-- ==== Sys2Proof/Word.lean ====
section
/-! DEFINITION. The word types of the core (spec 00 R9, 10 R31 to R41): bit vectors only, no operation. -/

namespace Sys2Proof

/-- One byte. The window is byte addressed (20 R70), although only whole 32-bit words are ever accessed (20 R75). -/
abbrev Byte := BitVec 8

/-- One host word: a command word, or the data of a host access (20 R75, 30 R110). -/
abbrev Word := BitVec 32

/-- One 64-bit value: a block, a DES key, an IV or a chaining vector (00 R9). -/
abbrev Block := BitVec 64

/-- One 7-bit table entry (10 R38). -/
abbrev Entry := BitVec 7

end Sys2Proof
end

