-- ==== Sys2Proof/Syntax.lean ====
section
/-! DEFINITION. The commands as syntax: one constructor for each row of spec/opcode_table.json (30 R118), with the
fields of its format (30 R112 to R117). Selector bits are already the names they select; `TID` and `IVSEL` keep their
bits, because some of their values are reserved (30 R120) and `WellFormed` is the check on them. -/

namespace Sys2Proof

/-- `DIR` (30 R114, R115): 0 encrypts, 1 decrypts. -/
inductive Dir
  | enc
  | dec
  deriving DecidableEq, Repr

/-- `KSEL` (30 R115): 0 is K1, 1 is K2. -/
inductive KeySel
  | k1
  | k2
  deriving DecidableEq, Repr

/-- `CONC` (30 R116) and `RUN.MODE` (10 R44): 0 is sequential, 1 is concurrent. -/
inductive Mode
  | seq
  | conc
  deriving DecidableEq, Repr

/-- The eight tables (10 R38, 40 R150). -/
inductive TableId
  | ip
  | fp
  | e
  | p
  | pc2
  | ls
  | rs
  | sb
  deriving DecidableEq, Repr

/-- The number of entries of a table (30 R121). -/
def TableId.size : TableId → Nat
  | .ip => 64
  | .fp => 64
  | .e => 48
  | .p => 32
  | .pc2 => 48
  | .ls => 16
  | .rs => 16
  | .sb => 512

/-- The seven commands (30 R118). -/
inductive Instr
  /-- `TBLW t, i, v` (40 R152): write one table entry. -/
  | tblw (tid : BitVec 4) (idx : BitVec 9) (val : Entry)
  /-- `TBLC` (40 R153): commit and lock the table set. -/
  | tblc
  /-- `DESB d` (41 R203): transform one block. -/
  | desb (dir : Dir)
  /-- `IVGEN` (42 R245): draw three IVs. -/
  | ivgen
  /-- `PASS d, k, v` (42 R244): one chaining pass over the block store. -/
  | pass (dir : Dir) (ksel : KeySel) (ivsel : BitVec 2)
  /-- `EDEE m` (43 R284): Triple-DES encrypt the block store. -/
  | edee (mode : Mode)
  /-- `EDED m` (43 R285): Triple-DES decrypt the block store. -/
  | eded (mode : Mode)
  deriving DecidableEq, Repr

end Sys2Proof
end

