-- ==== Sys2Proof/WellFormed.lean ====
section
/-! DEFINITION. Which commands have a legal word (30 R120): a `TBLW` with `TID` 0 to 7 and a `PASS` whose `IVSEL` is
not 00. Every other value of every other field is legal as an encoding; `IDX` beyond its table is a legal word that
raises STRUCT (30 R121). -/

namespace Sys2Proof

/-- The command has a legal word. -/
def Instr.wellFormed : Instr → Bool
  | .tblw tid _ _ => decide (tid.toNat < 8)
  | .tblc => true
  | .desb _ => true
  | .ivgen => true
  | .pass _ _ ivsel => decide (ivsel ≠ 0#2)
  | .edee _ => true
  | .eded _ => true

end Sys2Proof
end

