-- ==== Sys2Proof/Decode.lean ====
section
/-! DEFINITION. The decode function of 30 R125, total on every 32-bit word and rejecting by name, and after it the
encoder, written from the formats of 30 R112 to R117 and the syntax of 30 R126. -/

namespace Sys2Proof

/-- Why a command word is illegal (30 R119, R120). The machine reports every one of them as ILLEGAL. -/
inductive DecodeError
  /-- `OPC` is 0x00 or 0x08 to 0xFF (30 R119). -/
  | undefinedOpcode
  /-- A 1 in a reserved-zero bit of the format (30 R111). -/
  | reservedBit
  /-- `TID` 8 to 15 in TBLW (30 R120). -/
  | reservedTid
  /-- `IVSEL = 00` in PASS (30 R120). -/
  | reservedIvsel
  deriving DecidableEq, Repr

/-- `DIR` from its bit (30 R114). -/
def dirOfBit (b : Bool) : Dir := if b then .dec else .enc

/-- The bit of `DIR`. -/
def dirBit : Dir → BitVec 1
  | .enc => 0#1
  | .dec => 1#1

/-- `KSEL` from its bit (30 R115). -/
def keySelOfBit (b : Bool) : KeySel := if b then .k2 else .k1

/-- The bit of `KSEL`. -/
def keySelBit : KeySel → BitVec 1
  | .k1 => 0#1
  | .k2 => 1#1

/-- `CONC` from its bit (30 R116). -/
def modeOfBit (b : Bool) : Mode := if b then .conc else .seq

/-- The bit of `CONC`. -/
def modeBit : Mode → BitVec 1
  | .seq => 0#1
  | .conc => 1#1

/-- The command, where the reserved-zero bits are zero. -/
def unlessReserved (reserved : Bool) (i : Instr) : Except DecodeError Instr :=
  if reserved then .error .reservedBit else .ok i

/-- The command a word stands for (30 R125). -/
def decode (w : Word) : Except DecodeError Instr :=
  match (w.extractLsb' 0 8).toNat with
  | 1 =>
    if w.extractLsb' 28 4 ≠ 0#4 then .error .reservedBit
    else if 8 ≤ (w.extractLsb' 8 4).toNat then .error .reservedTid
    else .ok (.tblw (w.extractLsb' 8 4) (w.extractLsb' 12 9) (w.extractLsb' 21 7))
  | 2 => unlessReserved (decide (w.extractLsb' 8 24 ≠ 0#24)) .tblc
  | 3 => unlessReserved (decide (w.extractLsb' 9 23 ≠ 0#23)) (.desb (dirOfBit (w.getLsbD 8)))
  | 4 => unlessReserved (decide (w.extractLsb' 8 24 ≠ 0#24)) .ivgen
  | 5 =>
    if w.extractLsb' 12 20 ≠ 0#20 then .error .reservedBit
    else if w.extractLsb' 10 2 = 0#2 then .error .reservedIvsel
    else .ok (.pass (dirOfBit (w.getLsbD 8)) (keySelOfBit (w.getLsbD 9)) (w.extractLsb' 10 2))
  | 6 => unlessReserved (decide (w.extractLsb' 9 23 ≠ 0#23)) (.edee (modeOfBit (w.getLsbD 8)))
  | 7 => unlessReserved (decide (w.extractLsb' 9 23 ≠ 0#23)) (.eded (modeOfBit (w.getLsbD 8)))
  | _ => .error .undefinedOpcode

/-- The command word of a command (30 R112 to R117, R126). -/
def encode : Instr → Word
  | .tblw tid idx val => 0#4 ++ val ++ idx ++ tid ++ 0x01#8
  | .tblc => 0#24 ++ 0x02#8
  | .desb dir => 0#23 ++ dirBit dir ++ 0x03#8
  | .ivgen => 0#24 ++ 0x04#8
  | .pass dir ksel ivsel => 0#20 ++ ivsel ++ keySelBit ksel ++ dirBit dir ++ 0x05#8
  | .edee mode => 0#23 ++ modeBit mode ++ 0x06#8
  | .eded mode => 0#23 ++ modeBit mode ++ 0x07#8

/-- The `match` column of 30 R118 for a command. -/
def matchOf : Instr → Word
  | .tblw _ _ _ => 0x00000001#32
  | .tblc => 0x00000002#32
  | .desb _ => 0x00000003#32
  | .ivgen => 0x00000004#32
  | .pass _ _ _ => 0x00000005#32
  | .edee _ => 0x00000006#32
  | .eded _ => 0x00000007#32

/-- The `mask` column of 30 R118 for a command. -/
def maskOf : Instr → Word
  | .tblw _ _ _ => 0xF00008FF#32
  | .tblc => 0xFFFFFFFF#32
  | .desb _ => 0xFFFFFEFF#32
  | .ivgen => 0xFFFFFFFF#32
  | .pass _ _ _ => 0xFFFFF0FF#32
  | .edee _ => 0xFFFFFEFF#32
  | .eded _ => 0xFFFFFEFF#32

/-- The rows (match, mask) of the opcode map, in the order of 30 R118. -/
def opcodeRows : List (Word × Word) :=
  [ (0x00000001#32, 0xF00008FF#32),
    (0x00000002#32, 0xFFFFFFFF#32),
    (0x00000003#32, 0xFFFFFEFF#32),
    (0x00000004#32, 0xFFFFFFFF#32),
    (0x00000005#32, 0xFFFFF0FF#32),
    (0x00000006#32, 0xFFFFFEFF#32),
    (0x00000007#32, 0xFFFFFEFF#32) ]

/-- What the decoder reads from an instruction whose `nbits` bits are `w`, numbered as spec/opcode_table.json numbers
them: every command is one 32-bit word (30 R124), bit 0 its least significant bit; bits above `nbits` are 0.
Log entry 24. -/
def decodeTableWord (nbits w : Nat) : Option Instr :=
  if w < 2 ^ nbits ∧ w < 2 ^ 32 then
    match decode (BitVec.ofNat 32 w) with
    | .ok i => some i
    | .error _ => none
  else none

end Sys2Proof
end

