-- ==== Sys2Proof/Machine/Bits.lean ====
section
/-! DEFINITION. The primitives of 00 R10 to R15: DES bit numbers, selection of bits by a table, 28-bit rotations, and
the 32-bit words of the wider registers (20 R76). -/

namespace Sys2Proof.Machine

/-- `dbit(v, n, i)` (00 R11): DES bit `i`, counted from 1 at the most significant bit. Outside 1 to `n` see log entry
14. -/
def dbit {n : Nat} (v : BitVec n) (i : Nat) : Bool := v.getMsbD (i - 1)

/-- The number whose binary digits these are, most significant first. -/
def natOfBits (bs : List Bool) : Nat := bs.foldl (fun acc b => 2 * acc + b.toNat) 0

/-- The `m`-bit value whose DES bit `i` is DES bit `ps[i]` of `v`. -/
def selectBits {n : Nat} (m : Nat) (ps : List Nat) (v : BitVec n) : BitVec m :=
  BitVec.ofNat m (natOfBits (ps.map (dbit v)))

/-- `permute(T, v, n)` (00 R12): output bit `i` is input bit `T[i]`. -/
def permute {n m : Nat} (T : Vector Entry m) (v : BitVec n) : BitVec m :=
  selectBits m (T.toList.map BitVec.toNat) v

/-- `rotl28(c, s)` (00 R13), the count taken modulo 28 (92 D17). -/
def rotl28 (c : BitVec 28) (s : Nat) : BitVec 28 := c.rotateLeft s

/-- `rotr28(c, s)` (00 R13), the count taken modulo 28 (92 D17). -/
def rotr28 (c : BitVec 28) (s : Nat) : BitVec 28 := c.rotateRight s

/-- `_HI` of a 64-bit register (20 R76). -/
def hiWord (v : Block) : Word := v.extractLsb' 32 32

/-- `_LO` of a 64-bit register (20 R76). -/
def loWord (v : Block) : Word := v.extractLsb' 0 32

/-- A 64-bit register after a write of its `_HI` word. -/
def setHiWord (v : Block) (w : Word) : Block := w ++ loWord v

/-- A 64-bit register after a write of its `_LO` word. -/
def setLoWord (v : Block) (w : Word) : Block := hiWord v ++ w

/-- `K1` of a primal key (10 R35): its left half. -/
def leftKey (k : BitVec 128) : Block := k.extractLsb' 64 64

/-- `K2` of a primal key (10 R35): its right half. -/
def rightKey (k : BitVec 128) : Block := k.extractLsb' 0 64

/-- A primal key after its left half is replaced. -/
def setLeftKey (k : BitVec 128) (v : Block) : BitVec 128 := v ++ rightKey k

/-- A primal key after its right half is replaced. -/
def setRightKey (k : BitVec 128) (v : Block) : BitVec 128 := leftKey k ++ v

end Sys2Proof.Machine
end

