-- ==== Sys2Proof/Config.lean ====
section
/-! DEFINITION. What is fixed for one core and the values the spec leaves open (00 R8, 93 section 1): the
parameters as a record every operation takes as an argument, the parameters of this hardware, and the free
values as constants without a body, of which nothing can be proved. -/

namespace Sys2Proof

/-- `SBOX_INDEX_ORDER` (00 R8, 41 R196): the weights of the bits of a 6-bit S-box group. -/
inductive SboxIndexOrder
  | msbFirst
  | lsbFirst
  deriving DecidableEq, Repr

/-- `DEC_VECTOR_INIT` (00 R8, 42 R242): what a decrypting pass XORs block 0 with. -/
inductive DecVectorInit
  | iv
  | firstBlock
  deriving DecidableEq, Repr

/-- The parameters of 00 R8 that the core's own rules read. -/
structure Params where
  /-- `NBLK_MAX`: the number of block cells. -/
  nblkMax : Nat
  /-- `SBOX_INDEX_ORDER`. -/
  sboxOrder : SboxIndexOrder
  /-- `DEC_VECTOR_INIT`. -/
  decVectorInit : DecVectorInit
  deriving DecidableEq, Repr

/-- FREE VALUE. `NBLK_MAX - 1` (00 R8: "OPEN", 1 to 65535). Log entry 7. -/
opaque Config.nblkMaxLessOne : Fin 65535

/-- `NBLK_MAX`, any integer from 1 to 65535 (00 R8). Log entry 7. -/
def Config.nblkMax : Nat := Config.nblkMaxLessOne.val + 1

/-- FREE VALUE. `CORE_BASE`, where the platform places the window (20 R70, 92 D31). Log entry 18. -/
opaque Config.coreBase : Nat

/-- FREE VALUE. `IV_SOURCE`: the draws of IVGEN, one for each value of the draw counter (00 R8, 42 R245). Log entry 9. -/
opaque Config.ivSource : Nat → Block

/-- FREE VALUE. What a host read of `BLK` or `DOUT` returns while the command that writes it runs, one for each value
of the draw counter (20 R82, 93 U3 and U4). Log entry 10. -/
opaque Config.busyRead : Nat → Word

/-- FREE VALUE. Which enabled stage moves when more than one may and the environment has scheduled nothing, one for
each value of the draw counter (43 R289, 93 U19). Log entry 4. -/
opaque Config.arbiter : Nat → Nat

/-- The parameters of THIS hardware (00 R8): `msb_first` and `iv`, by 90 C2 and C4. Log entry 8. -/
def Config.params : Params :=
  { nblkMax := Config.nblkMax, sboxOrder := .msbFirst, decVectorInit := .iv }

end Sys2Proof
end

