-- ==== Sys2Proof/Machine/State.lean ====
section
/-! DEFINITION. The state of the core (spec 10 R30), as plain data, with the reasons a step can stop and the state
after reset. Beside the spec's own state stand three fields of the MODEL (`events`, `rdata`, `draws`): what the
environment does next, what the last host read returned, and how many free values were drawn. -/

namespace Sys2Proof.Machine

/-- `STATUS.ERR` (60 R332): codes 5 to 15 are never produced, so they have no name. -/
inductive ErrCode
  | noError
  | cfg
  | struct
  | illegal
  | locked
  deriving DecidableEq, Repr

/-- The fields of `STATUS` (10 R31). The reserved bits read 0 and nothing writes them: `Status.toWord` (Flags) is the
word the host reads. -/
structure Status where
  busy : Bool
  done : Bool
  tblOk : Bool
  err : ErrCode
  deriving DecidableEq, Repr

/-- `RUN.OP` (10 R44). -/
inductive RunOp
  | none
  | desb
  | pass
  | edee
  | eded
  deriving DecidableEq, Repr

/-- The three stages (00 R17). -/
inductive Stage
  | s1
  | s2
  | s3
  deriving DecidableEq, Repr

/-- One value for each stage, or for each slot of a handshake triple. -/
structure PerStage (α : Type) where
  s1 : α
  s2 : α
  s3 : α
  deriving DecidableEq, Repr

/-- The handshake triple of one block (10 R42): `SEM[j][1]`, `SEM[j][2]`, `SEM[j][3]`; true is "available". -/
abbrev Slots := PerStage Bool

/-- `PP[s]` (10 R47). -/
structure PassParams where
  dir : Dir
  k : Block
  iv : Block
  deriving DecidableEq, Repr

/-- What DESB latches at acceptance (41 R203): "latch x <- DIN, key <- DKEY, dec <- (DIR = 1)". DEDUCED to be
state beside `DIN` and `DKEY` (log entry 6). -/
structure DesbLatch where
  x : Block
  key : Block
  dec : Bool
  deriving DecidableEq, Repr

/-- `RUN` (10 R44), with the latch of DESB (10 R32: the operands are latched into `RUN` and `PP`). -/
structure Run where
  op : RunOp
  mode : Mode
  latch : DesbLatch
  deriving DecidableEq, Repr

/-- One value for each entry of each table (10 R38): the shape of `TBL` and of `WR`. -/
structure TableStore (α : Type) where
  ip : Vector α 64
  fp : Vector α 64
  e : Vector α 48
  p : Vector α 32
  pc2 : Vector α 48
  ls : Vector α 16
  rs : Vector α 16
  sb : Vector α 512
  deriving DecidableEq, Repr

/-- The same value at every entry. -/
def TableStore.filled {α : Type} (v : α) : TableStore α :=
  { ip := Vector.replicate 64 v, fp := Vector.replicate 64 v, e := Vector.replicate 48 v,
    p := Vector.replicate 32 v, pc2 := Vector.replicate 48 v, ls := Vector.replicate 16 v,
    rs := Vector.replicate 16 v, sb := Vector.replicate 512 v }

/-- The block store `BLK` (10 R41) as the bytes of its window (20 R73, R77), keyed by window offset, in one canonical
form: offsets strictly rising, no entry equal to what an unlisted offset reads as. -/
abbrev Memory := List Host.Cell

/-- The values 10 R50 leaves to a draw at reset: everything that rule R49 marks unspecified. `blk` lists `BLK[0]`,
`BLK[1]`, … ; a block beyond its end is drawn as 0. -/
structure ResetDraw where
  tbl : TableStore Entry
  key : BitVec 128
  iv1 : Block
  iv2 : Block
  iv3 : Block
  din : Block
  dkey : Block
  dout : Block
  blk : List Block
  vec : PerStage Block
  pp : PerStage PassParams
  latch : DesbLatch
  deriving DecidableEq, Repr

/-- What the world around the core can do (60 R345): one event is one step. DESIGN CHOICE
(log entry 3). -/
inductive Event
  /-- `HostWrite(off, v)`, an access of `size` bytes (20 R75, R79). -/
  | write (off : Nat) (size : Nat) (v : Word)
  /-- `HostRead(off)`, an access of `size` bytes (20 R75, R82). -/
  | read (off : Nat) (size : Nat)
  /-- The host polls `STATUS` until `BUSY` is 0 (30 R127); the core moves between the reads.
  DESIGN CHOICE (log entry 15). -/
  | poll
  /-- The agent of this stage is scheduled next (60 R345, 43 R289). -/
  | turn (st : Stage)
  /-- The reset signal (70 R370, R371), with the values drawn at it. -/
  | reset (d : ResetDraw)
  deriving DecidableEq, Repr

/-- The state of the core (10 R30), and the model's own fields. -/
structure State where
  /-- `STATUS` (10 R31). -/
  status : Status
  /-- `NBLK` (10 R33), and the `NBLK` of the run in progress (60 R346). Log entry 27. -/
  nblk : BitVec 16
  /-- `KEY` (10 R34). -/
  key : BitVec 128
  /-- `IV1` (10 R36). -/
  iv1 : Block
  /-- `IV2` (10 R36). -/
  iv2 : Block
  /-- `IV3` (10 R36). -/
  iv3 : Block
  /-- `DIN` (10 R37). -/
  din : Block
  /-- `DKEY` (10 R37). -/
  dkey : Block
  /-- `DOUT` (10 R37). -/
  dout : Block
  /-- `TBL` (10 R38). -/
  tbl : TableStore Entry
  /-- `WR` (10 R39). -/
  wr : TableStore Bool
  /-- `BLK` (10 R41), as bytes of the window. -/
  mem : Memory
  /-- `SEM` (10 R42), keyed by block index; an unlisted block has no available slot. -/
  sem : List (Nat × Slots)
  /-- `RUN` (10 R44). -/
  run : Run
  /-- `IDX` (10 R45). Log entries 23 and 26. -/
  idx : PerStage Nat
  /-- `VEC` (10 R46). -/
  vec : PerStage Block
  /-- `PP` (10 R47). -/
  pp : PerStage PassParams
  /-- MODEL'S OWN: what the environment does next, in order. Log entry 3. -/
  events : List Event
  /-- MODEL'S OWN: what the last host read returned. Log entry 5. -/
  rdata : Word
  /-- MODEL'S OWN: how many free values have been drawn. Log entry 4. -/
  draws : Nat
  deriving DecidableEq, Repr

/-- Why the machine stops with a fault. -/
inductive Fault
  /-- Raised by a host access at an offset of 0x100000 or more: the window has no such offset (20 R70, R84). Log entry 13.
  SAFE: the model stops where the platform goes on. -/
  | outsideWindow
  deriving DecidableEq, Repr

/-- Why the model gives an event no step. -/
inductive Refusal
  /-- The instruction has no meaning yet (raised by `exec` only; no arm raises it now). SAFE. -/
  | notModelled (mnemonic : String)
  /-- Raised by a host access that is not an aligned 32-bit access: "The model refuses it; it gives such an access no
  step." (20 R75). Log entry 13. SAFE: the spec gives it no meaning. -/
  | undefinedAccess
  deriving DecidableEq, Repr

/-- The state right after reset (10 R49, 70 R370). What that rule marks unspecified is 0 here, a DESIGN CHOICE (log
entries 1 and 2): `afterReset` (Ops) is the state for every draw. -/
def State.reset : State :=
  { status := { busy := false, done := false, tblOk := false, err := .noError }
    nblk := 0#16
    key := 0#128
    iv1 := 0#64
    iv2 := 0#64
    iv3 := 0#64
    din := 0#64
    dkey := 0#64
    dout := 0#64
    tbl := TableStore.filled 0#7
    wr := TableStore.filled false
    mem := []
    sem := []
    run := { op := .none, mode := .seq, latch := { x := 0#64, key := 0#64, dec := false } }
    idx := { s1 := 0, s2 := 0, s3 := 0 }
    vec := { s1 := 0#64, s2 := 0#64, s3 := 0#64 }
    pp := { s1 := { dir := .enc, k := 0#64, iv := 0#64 }
            s2 := { dir := .enc, k := 0#64, iv := 0#64 }
            s3 := { dir := .enc, k := 0#64, iv := 0#64 } }
    events := []
    rdata := 0#32
    draws := 0 }

end Sys2Proof.Machine
end

