-- ==== Sys2Proof/Machine/Flags.lean ====
section
/-! DEFINITION. `STATUS` (spec 10 R31): the word the host reads, and every way a command writes its fields. -/

namespace Sys2Proof.Machine

/-- The code of an error (60 R332). -/
def ErrCode.code : ErrCode → BitVec 4
  | .noError => 0#4
  | .cfg => 1#4
  | .struct => 2#4
  | .illegal => 3#4
  | .locked => 4#4

/-- `STATUS` as the host reads it (10 R31): `BUSY` [0], `DONE` [1], `TBL_OK` [2], `ERR` [7:4], the rest 0. -/
def Status.toWord (f : Status) : Word :=
  0#24 ++ f.err.code ++ 0#1 ++ BitVec.ofBool f.tblOk ++ BitVec.ofBool f.done ++ BitVec.ofBool f.busy

/-- Acceptance clears `DONE` and `ERR` (60 R340). -/
def Status.accepted (f : Status) : Status := { f with done := false, err := .noError }

/-- An error writes `ERR` (60 R331). -/
def Status.failed (c : ErrCode) (f : Status) : Status := { f with err := c }

/-- An immediate command completes (30 R128): `DONE <- 1`. -/
def Status.finished (f : Status) : Status := { f with done := true }

/-- A long command is accepted (30 R128): `BUSY <- 1`. -/
def Status.started (f : Status) : Status := { f with busy := true }

/-- A long command completes (43 R290): `BUSY <- 0; DONE <- 1`. -/
def Status.completed (f : Status) : Status := { f with busy := false, done := true }

/-- TBLC commits the tables (40 R153): `TBL_OK <- 1; DONE <- 1`. -/
def Status.committed (f : Status) : Status := { f with tblOk := true, done := true }

end Sys2Proof.Machine
end

