-- ==== Sys2Proof/Machine/Ops.lean ====
section
/-! DEFINITION. The operations every command shares: stages and table entries, sparse stores in canonical form, the
block store over bytes of the window, the acceptance of a command, raising an error, completing, and reset. The core
takes no traps (60 R330, R343): raising an error IS what the spec has for an exception, and there is no return from
one; the next acceptance clears it (60 R340). -/

namespace Sys2Proof.Machine

/-! ## Stages and table entries -/

/-- The value of one stage. -/
def PerStage.get {α : Type} (p : PerStage α) : Stage → α
  | .s1 => p.s1
  | .s2 => p.s2
  | .s3 => p.s3

/-- The value of one stage replaced. -/
def PerStage.set {α : Type} (p : PerStage α) (st : Stage) (v : α) : PerStage α :=
  match st with
  | .s1 => { p with s1 := v }
  | .s2 => { p with s2 := v }
  | .s3 => { p with s3 := v }

/-- The slot a stage releases (43 R287): `next(1) = 2`, `next(2) = 3`, `next(3) = 1`. -/
def nextSlot : Stage → Stage
  | .s1 => .s2
  | .s2 => .s3
  | .s3 => .s1

/-- Entry `i` of table `t` (10 R38), none beyond its size. -/
def tableGet {α : Type} (T : TableStore α) (t : TableId) (i : Nat) : Option α :=
  match t with
  | .ip => T.ip[i]?
  | .fp => T.fp[i]?
  | .e => T.e[i]?
  | .p => T.p[i]?
  | .pc2 => T.pc2[i]?
  | .ls => T.ls[i]?
  | .rs => T.rs[i]?
  | .sb => T.sb[i]?

/-- Entry `i` of table `t` replaced; nothing changes beyond its size. -/
def tableSet {α : Type} (T : TableStore α) (t : TableId) (i : Nat) (v : α) : TableStore α :=
  match t with
  | .ip => { T with ip := T.ip.setIfInBounds i v }
  | .fp => { T with fp := T.fp.setIfInBounds i v }
  | .e => { T with e := T.e.setIfInBounds i v }
  | .p => { T with p := T.p.setIfInBounds i v }
  | .pc2 => { T with pc2 := T.pc2.setIfInBounds i v }
  | .ls => { T with ls := T.ls.setIfInBounds i v }
  | .rs => { T with rs := T.rs.setIfInBounds i v }
  | .sb => { T with sb := T.sb.setIfInBounds i v }

/-- The entries of table `t` in order. -/
def tableList {α : Type} (T : TableStore α) : TableId → List α
  | .ip => T.ip.toList
  | .fp => T.fp.toList
  | .e => T.e.toList
  | .p => T.p.toList
  | .pc2 => T.pc2.toList
  | .ls => T.ls.toList
  | .rs => T.rs.toList
  | .sb => T.sb.toList

/-! ## Sparse stores in canonical form -/

/-- The value at key `a`: `d` where nothing is listed. -/
def storeGet {β : Type} (d : β) : List (Nat × β) → Nat → β
  | [], _ => d
  | (k, v) :: rest, a => if k = a then v else storeGet d rest a

/-- The value at key `a` replaced, keeping the canonical form: writing `d` removes the entry. -/
def storeSet {β : Type} [DecidableEq β] (d : β) : List (Nat × β) → Nat → β → List (Nat × β)
  | [], a, v => if v = d then [] else [(a, v)]
  | (k, w) :: rest, a, v =>
    if a < k then (if v = d then (k, w) :: rest else (a, v) :: (k, w) :: rest)
    else if a = k then (if v = d then rest else (a, v) :: rest)
    else (k, w) :: storeSet d rest a v

/-- The canonical form: keys strictly rising, no entry equal to what an unlisted key reads as. -/
abbrev storeWf {β : Type} (d : β) (m : List (Nat × β)) : Prop :=
  m.Pairwise (fun a b => a.1 < b.1) ∧ ∀ c ∈ m, c.2 ≠ d

/-! ## The block store as bytes of the window -/

/-- What a byte of the block window that nothing has written reads as: DESIGN CHOICE (log entry 2), since 10 R50 leaves
`BLK` to a draw at reset. -/
def unlistedByte : Byte := 0#8

/-- The canonical form of the block store. -/
abbrev Memory.wf (m : Memory) : Prop := storeWf unlistedByte m

/-- One byte of the block window, at its window offset. -/
def readByte (m : Memory) (a : Nat) : Byte := storeGet unlistedByte m a

/-- One byte of the block window replaced. -/
def writeByte (m : Memory) (a : Nat) (b : Byte) : Memory := storeSet unlistedByte m a b

/-- The word at offset `a`, big-endian (20 R77; DEDUCED for the order of its bytes in the store, log entry 11). -/
def readWord (m : Memory) (a : Nat) : Word :=
  readByte m a ++ readByte m (a + 1) ++ readByte m (a + 2) ++ readByte m (a + 3)

/-- The word at offset `a` replaced, big-endian (20 R77). -/
def writeWord (m : Memory) (a : Nat) (v : Word) : Memory :=
  writeByte (writeByte (writeByte (writeByte m a (v.extractLsb' 24 8)) (a + 1) (v.extractLsb' 16 8))
    (a + 2) (v.extractLsb' 8 8)) (a + 3) (v.extractLsb' 0 8)

/-- The offset of `BLK_HI[j]` (20 R73); `BLK_LO[j]` is 4 above it. -/
def blkAddr (j : Nat) : Nat := 0x80000 + 8 * j

/-- `BLK[j]` (10 R41). -/
def readBlock (m : Memory) (j : Nat) : Block := readWord m (blkAddr j) ++ readWord m (blkAddr j + 4)

/-- `BLK[j] <- v` (10 R41). -/
def writeBlock (m : Memory) (j : Nat) (v : Block) : Memory :=
  writeWord (writeWord m (blkAddr j) (hiWord v)) (blkAddr j + 4) (loWord v)

/-- `BLK[j], BLK[j+1], … <- bs`. -/
def writeBlocks : Memory → Nat → List Block → Memory
  | m, _, [] => m
  | m, j, b :: bs => writeBlocks (writeBlock m j b) (j + 1) bs

/-! ## The handshake file -/

/-- A block whose three slots are all unavailable, as after reset (10 R49). -/
def noSlots : Slots := { s1 := false, s2 := false, s3 := false }

/-- The triple of a block at acceptance (43 R286): slot 1 available, slots 2 and 3 not. -/
def freshSlots : Slots := { s1 := true, s2 := false, s3 := false }

/-- `SEM[j]` (10 R42). -/
def readSlots (m : List (Nat × Slots)) (j : Nat) : Slots := storeGet noSlots m j

/-- `SEM[j] <- t`. -/
def writeSlots (m : List (Nat × Slots)) (j : Nat) (t : Slots) : List (Nat × Slots) := storeSet noSlots m j t

/-- `SEM[j][k] <- b` (43 R287). -/
def writeSlot (m : List (Nat × Slots)) (j : Nat) (k : Stage) (b : Bool) : List (Nat × Slots) :=
  writeSlots m j ((readSlots m j).set k b)

/-- `for j in 0..n-1: SEM[j] <- (1, 0, 0)` (43 R286). -/
def freshSem (m : List (Nat × Slots)) : Nat → List (Nat × Slots)
  | 0 => m
  | n + 1 => writeSlots (freshSem m n) n freshSlots

/-! ## Acceptance, errors and completion -/

/-- `DONE <- 0; ERR <- 0` (60 R340). -/
def State.accepted (s : State) : State := { s with status := s.status.accepted }

/-- `raise Error(c)` (00 R14, 60 R331): `STATUS.ERR <- c`, and no other effect. -/
def raiseError (c : ErrCode) (s : State) : State := { s with status := s.status.failed c }

/-- An immediate command completes (30 R128). -/
def finish (s : State) : State := { s with status := s.status.finished }

/-- A long command completes (43 R290, 41 R203, 42 R244): `RUN.OP <- NONE; BUSY <- 0; DONE <- 1`. -/
def complete (s : State) : State :=
  { s with run := { s.run with op := .none }, status := s.status.completed }

/-- The issue of a command (30 R110): ignored while `BUSY = 1` (20 R81); otherwise accepted, and then its rule runs.
The check stands here and in `hostWrite`, so `exec` alone has it too (DESIGN CHOICE, log entry 19). -/
def issue (cmd : State → State) (s : State) : Host.Outcome State Fault Refusal :=
  if s.status.busy then .next s else .next (cmd s.accepted)

/-- The check PASS, EDEE and EDED make on `NBLK` (60 R334): true where it raises STRUCT. -/
def nblkRefused (P : Params) (n : BitVec 16) : Bool := decide (n.toNat = 0 ∨ P.nblkMax < n.toNat)

/-! ## Reset -/

/-- The state after the reset signal (70 R370, R371) with the draws `d` (10 R49, R50). The model's own fields are no
state of the core and keep their values; the draws come with the event (DESIGN CHOICE, log entry 25). -/
def afterReset (P : Params) (d : ResetDraw) (s : State) : State :=
  { status := { busy := false, done := false, tblOk := false, err := .noError }
    nblk := 0#16
    key := d.key
    iv1 := d.iv1
    iv2 := d.iv2
    iv3 := d.iv3
    din := d.din
    dkey := d.dkey
    dout := d.dout
    tbl := d.tbl
    wr := TableStore.filled false
    mem := writeBlocks [] 0 (d.blk.take P.nblkMax)
    sem := []
    run := { op := .none, mode := .seq, latch := d.latch }
    idx := { s1 := 0, s2 := 0, s3 := 0 }
    vec := d.vec
    pp := d.pp
    events := s.events
    rdata := s.rdata
    draws := s.draws }

end Sys2Proof.Machine
end

