-- ==== Sys2Proof/Machine/Operands.lean ====
section
/-! DEFINITION. The operands of the commands (spec 30 R113 to R116, R121): tables by `TID`, keys by `KSEL`, IVs by
`IVSEL`, and the pass parameters of a run. -/

namespace Sys2Proof.Machine

/-- The table a `TID` names (30 R121); 8 to 15 name none (30 R120). A command with one of them has no word; its meaning
raises ILLEGAL (DESIGN CHOICE, log entry 17), as with `IVSEL` 00 below. -/
def tableOfTid (tid : BitVec 4) : Option TableId :=
  match tid.toNat with
  | 0 => some .ip
  | 1 => some .fp
  | 2 => some .e
  | 3 => some .p
  | 4 => some .pc2
  | 5 => some .ls
  | 6 => some .rs
  | 7 => some .sb
  | _ => none

/-- The `TID` of a table (30 R121). -/
def tidOfTable : TableId → BitVec 4
  | .ip => 0#4
  | .fp => 1#4
  | .e => 2#4
  | .p => 3#4
  | .pc2 => 4#4
  | .ls => 5#4
  | .rs => 6#4
  | .sb => 7#4

/-- The values an entry of a table may hold when the tables are committed (40 R153). -/
def legalEntry (t : TableId) (v : Entry) : Bool :=
  match t with
  | .ip => decide (1 ≤ v.toNat ∧ v.toNat ≤ 64)
  | .fp => decide (1 ≤ v.toNat ∧ v.toNat ≤ 64)
  | .e => decide (1 ≤ v.toNat ∧ v.toNat ≤ 32)
  | .p => decide (1 ≤ v.toNat ∧ v.toNat ≤ 32)
  | .pc2 => decide (1 ≤ v.toNat ∧ v.toNat ≤ 56)
  | .ls => decide (v.toNat ≤ 27)
  | .rs => decide (v.toNat ≤ 27)
  | .sb => decide (v.toNat ≤ 15)

/-- The DES key `KSEL` selects (10 R35, 30 R115). -/
def keyOf (s : State) : KeySel → Block
  | .k1 => leftKey s.key
  | .k2 => rightKey s.key

/-- The IV `IVSEL` selects (30 R115); 00 is reserved. -/
def ivOf (s : State) (ivsel : BitVec 2) : Option Block :=
  match ivsel.toNat with
  | 1 => some s.iv1
  | 2 => some s.iv2
  | 3 => some s.iv3
  | _ => none

/-- The pass parameters of EDEE (43 R282). -/
def edeePasses (s : State) : PerStage PassParams :=
  { s1 := { dir := .enc, k := leftKey s.key, iv := s.iv1 }
    s2 := { dir := .dec, k := rightKey s.key, iv := s.iv2 }
    s3 := { dir := .enc, k := leftKey s.key, iv := s.iv3 } }

/-- The pass parameters of EDED (43 R283). -/
def ededPasses (s : State) : PerStage PassParams :=
  { s1 := { dir := .dec, k := leftKey s.key, iv := s.iv3 }
    s2 := { dir := .enc, k := rightKey s.key, iv := s.iv2 }
    s3 := { dir := .dec, k := leftKey s.key, iv := s.iv1 } }

end Sys2Proof.Machine
end

