-- ==== Sys2Proof/Machine/Cipher.lean ====
section
/-! DEFINITION. The single-block transform (spec 41 R190 to R202) as a pure function of the committed tables, and the
command DESB (41 R203). -/

namespace Sys2Proof.Machine

/-! ## Key schedule -/

/-- The DES bits of a key that the reduction keeps (41 R191): bit `i + (i-1) div 7` for `i` = 1 to 56. -/
def keptKeyBits : List Nat := (List.range 56).map fun k => (k + 1) + k / 7

/-- `reduce(key)` (41 R191). -/
def reduceKey (key : Block) : BitVec 56 := selectBits 56 keptKeyBits key

/-- `C` of a reduced key (41 R192). -/
def halfC (k : BitVec 56) : BitVec 28 := k.extractLsb' 28 28

/-- `D` of a reduced key (41 R192). -/
def halfD (k : BitVec 56) : BitVec 28 := k.extractLsb' 0 28

/-- One rotation of a key half: left by `LS` when encrypting, right by `RS` when decrypting (41 R193, R194). -/
def rotateHalf (dec : Bool) (c : BitVec 28) (s : Entry) : BitVec 28 :=
  if dec then rotr28 c s.toNat else rotl28 c s.toNat

/-- The round subkeys for a list of shift counts (41 R193 to R195): rotate, then contract with PC-2. -/
def subkeysFrom (pc2 : Vector Entry 48) (dec : Bool) : List Entry → BitVec 28 → BitVec 28 → List (BitVec 48)
  | [], _, _ => []
  | n :: ns, c, d =>
    let c' := rotateHalf dec c n
    let d' := rotateHalf dec d n
    permute pc2 (c' ++ d' : BitVec 56) :: subkeysFrom pc2 dec ns c' d'

/-- The shift schedule of a direction (41 R193, R194). -/
def shiftSchedule (tb : TableStore Entry) (dec : Bool) : List Entry := if dec then tb.rs.toList else tb.ls.toList

/-- `KS(key, decrypting)` (41 R195): the sixteen round subkeys. -/
def keySchedule (tb : TableStore Entry) (key : Block) (dec : Bool) : List (BitVec 48) :=
  subkeysFrom tb.pc2 dec (shiftSchedule tb dec) (halfC (reduceKey key)) (halfD (reduceKey key))

/-! ## Feistel function -/

/-- Row and column of a 6-bit group, as the index `16·row + col` (41 R196). `g[5]` is `g1` and `g[0]` is `g6`. -/
def sboxIndex (order : SboxIndexOrder) (g : BitVec 6) : Nat :=
  let bit (k : Nat) : Nat := (g.getLsbD (6 - k)).toNat
  match order with
  | .msbFirst => 16 * (2 * bit 1 + bit 6) + (8 * bit 2 + 4 * bit 3 + 2 * bit 4 + bit 5)
  | .lsbFirst => 16 * (bit 1 + 2 * bit 6) + (bit 2 + 2 * bit 3 + 4 * bit 4 + 8 * bit 5)

/-- Lane `i` (1 to 8) of the S-box layer (41 R197): the 4-bit cell its 6-bit group selects. -/
def sboxLane (order : SboxIndexOrder) (sb : Vector Entry 512) (y : BitVec 48) (i : Nat) : BitVec 4 :=
  (sb.toList.getD (64 * (i - 1) + sboxIndex order (y.extractLsb' (48 - 6 * i) 6)) 0#7).setWidth 4

/-- The S-box layer `S(y)` (41 R197). -/
def sboxLayer (order : SboxIndexOrder) (sb : Vector Entry 512) (y : BitVec 48) : BitVec 32 :=
  sboxLane order sb y 1 ++ sboxLane order sb y 2 ++ sboxLane order sb y 3 ++ sboxLane order sb y 4 ++
    sboxLane order sb y 5 ++ sboxLane order sb y 6 ++ sboxLane order sb y 7 ++ sboxLane order sb y 8

/-- `f(R, k)` (41 R198). -/
def feistel (order : SboxIndexOrder) (tb : TableStore Entry) (r : BitVec 32) (k : BitVec 48) : BitVec 32 :=
  permute tb.p (sboxLayer order tb.sb (permute tb.e r ^^^ k))

/-! ## Rounds -/

/-- The two block halves. -/
structure Halves where
  l : BitVec 32
  r : BitVec 32
  deriving DecidableEq, Repr

/-- One round (41 R200); every round swaps. -/
def feistelRound (order : SboxIndexOrder) (tb : TableStore Entry) (h : Halves) (k : BitVec 48) : Halves :=
  { l := h.r, r := h.l ^^^ feistel order tb h.r k }

/-- The rounds for a list of subkeys. -/
def feistelRounds (order : SboxIndexOrder) (tb : TableStore Entry) (h : Halves) (ks : List (BitVec 48)) : Halves :=
  ks.foldl (feistelRound order tb) h

/-- Initial permutation and split (41 R199). -/
def splitBlock (tb : TableStore Entry) (x : Block) : Halves :=
  { l := (permute tb.ip x).extractLsb' 32 32, r := (permute tb.ip x).extractLsb' 0 32 }

/-- The output (41 R201): right half first, then the final permutation. -/
def joinHalves (tb : TableStore Entry) (h : Halves) : Block := permute tb.fp (h.r ++ h.l : BitVec 64)

/-- `T(x, key, decrypting)` (41 R190, R202). -/
def transform (order : SboxIndexOrder) (tb : TableStore Entry) (x key : Block) (dec : Bool) : Block :=
  joinHalves tb (feistelRounds order tb (splitBlock tb x) (keySchedule tb key dec))

/-! ## DESB -/

/-- The body of DESB after acceptance (41 R203): CFG, then the latch. DESB runs no pass, so it uses no stage's index and
every stage holds `IDX[s] = NBLK` (10 R45, 60 R347; DEDUCED, log entry 26). -/
def desbBody (dir : Dir) (s : State) : State :=
  if s.status.tblOk then
    { s with
      idx := { s1 := s.nblk.toNat, s2 := s.nblk.toNat, s3 := s.nblk.toNat }
      run := { s.run with op := .desb, latch := { x := s.din, key := s.dkey, dec := decide (dir = .dec) } }
      status := s.status.started }
  else raiseError .cfg s

/-- **DESB** (41 R203): its acceptance; `desbStep` is its core step. -/
def execDesb (dir : Dir) (s : State) : Host.Outcome State Fault Refusal := issue (desbBody dir) s

/-- The core step of DESB (41 R203). -/
def desbStep (P : Params) (s : State) : State :=
  complete { s with dout := transform P.sboxOrder s.tbl s.run.latch.x s.run.latch.key s.run.latch.dec }

end Sys2Proof.Machine
end

