-- ==== Sys2Proof/Machine/Chaining.lean ====
section
/-! DEFINITION. The chaining layer (spec 42): the two chaining steps, and the commands PASS and IVGEN. -/

namespace Sys2Proof.Machine

/-- What a chaining step writes: the block and the vector. -/
structure Chained where
  block : Block
  vector : Block
  deriving DecidableEq, Repr

/-- `CSE(K, v, b)` (42 R240). -/
def chainEncrypt (P : Params) (tb : TableStore Entry) (k v b : Block) : Chained :=
  { block := transform P.sboxOrder tb (b ^^^ v) k false, vector := transform P.sboxOrder tb (b ^^^ v) k false }

/-- The value a decrypting step XORs into block `j` (42 R241, R242). -/
def undoVector (P : Params) (v b : Block) (j : Nat) : Block :=
  if j = 0 ∧ P.decVectorInit = .firstBlock then b else v

/-- `CSD(K, v, b, j)` (42 R241). -/
def chainDecrypt (P : Params) (tb : TableStore Entry) (k v b : Block) (j : Nat) : Chained :=
  { block := transform P.sboxOrder tb b k true ^^^ undoVector P v b j, vector := b }

/-- The chaining step of a pass on block `j`, whose value is `b` (42 R244, 43 R287). -/
def chainStep (P : Params) (tb : TableStore Entry) (pp : PassParams) (v b : Block) (j : Nat) : Chained :=
  match pp.dir with
  | .enc => chainEncrypt P tb pp.k v b
  | .dec => chainDecrypt P tb pp.k v b j

/-- The body of PASS after acceptance (42 R244): ILLEGAL, CFG, STRUCT, then the start. -/
def passBody (P : Params) (dir : Dir) (ksel : KeySel) (ivsel : BitVec 2) (s : State) : State :=
  match ivOf s ivsel with
  | none => raiseError .illegal s
  | some iv =>
    if s.status.tblOk then
      if nblkRefused P s.nblk then raiseError .struct s
      else
        { s with
          pp := { s.pp with s1 := { dir := dir, k := keyOf s ksel, iv := iv } }
          vec := { s.vec with s1 := iv }
          idx := { s1 := 0, s2 := s.nblk.toNat, s3 := s.nblk.toNat }
          run := { s.run with op := .pass, mode := .seq }
          status := s.status.started }
    else raiseError .cfg s

/-- **PASS** (42 R244): its acceptance; `passStep` is its core step. -/
def execPass (dir : Dir) (ksel : KeySel) (ivsel : BitVec 2) (s : State) : Host.Outcome State Fault Refusal :=
  issue (passBody Config.params dir ksel ivsel) s

/-- The core step of PASS (42 R244). It reads the register `NBLK` at each step (DEDUCED, log entry 27). -/
def passStep (P : Params) (s : State) : State :=
  let j := s.idx.s1
  let c := chainStep P s.tbl s.pp.s1 s.vec.s1 (readBlock s.mem j) j
  let t := { s with
    mem := writeBlock s.mem j c.block
    vec := { s.vec with s1 := c.vector }
    idx := { s.idx with s1 := j + 1 } }
  if j + 1 = s.nblk.toNat then complete t else t

/-- The body of IVGEN after acceptance (42 R245): three draws from `IV_SOURCE`. -/
def ivgenBody (s : State) : State :=
  finish { s with
    iv1 := Config.ivSource s.draws
    iv2 := Config.ivSource (s.draws + 1)
    iv3 := Config.ivSource (s.draws + 2)
    draws := s.draws + 3 }

/-- **IVGEN** (42 R245). -/
def execIvgen (s : State) : Host.Outcome State Fault Refusal := issue ivgenBody s

/-- One whole pass (00 R17) over the blocks from index `j`, as a pure function: what is left in the blocks. -/
def passFrom (P : Params) (tb : TableStore Entry) (pp : PassParams) : Nat → Block → List Block → List Block
  | _, _, [] => []
  | j, v, b :: bs =>
    let c := chainStep P tb pp v b j
    c.block :: passFrom P tb pp (j + 1) c.vector bs

/-- One whole pass over a block list (00 R17, 42 R243): the vector starts as the pass's IV. -/
def passBlocks (P : Params) (tb : TableStore Entry) (pp : PassParams) (bs : List Block) : List Block :=
  passFrom P tb pp 0 pp.iv bs

end Sys2Proof.Machine
end

