-- ==== Sys2Proof/Machine/Pipeline.lean ====
section
/-! DEFINITION. The Triple-DES orchestrator (spec 43): the commands EDEE and EDED, which stage may step, and the stage
step with its handshake. -/

namespace Sys2Proof.Machine

/-- `ACCEPT(op, conc)` (43 R286) for the pass parameters `pp`: CFG, STRUCT, then the start of all three stages. -/
def tripleBody (P : Params) (op : RunOp) (mode : Mode) (pp : PerStage PassParams) (s : State) : State :=
  if s.status.tblOk then
    if nblkRefused P s.nblk then raiseError .struct s
    else
      { s with
        pp := pp
        vec := { s1 := pp.s1.iv, s2 := pp.s2.iv, s3 := pp.s3.iv }
        idx := { s1 := 0, s2 := 0, s3 := 0 }
        sem := freshSem s.sem s.nblk.toNat
        run := { s.run with op := op, mode := mode }
        status := s.status.started }
  else raiseError .cfg s

/-- **EDEE** (43 R284): its acceptance; `stageStep` is its core step. -/
def execEdee (mode : Mode) (s : State) : Host.Outcome State Fault Refusal :=
  issue (fun t => tripleBody Config.params .edee mode (edeePasses t) t) s

/-- **EDED** (43 R285): its acceptance; `stageStep` is its core step. -/
def execEded (mode : Mode) (s : State) : Host.Outcome State Fault Refusal :=
  issue (fun t => tripleBody Config.params .eded mode (ededPasses t) t) s

/-- The stage before this one has finished every block (43 R288); stage 1 has none before it. -/
def earlierDone (s : State) : Stage → Bool
  | .s1 => true
  | .s2 => decide (s.idx.s1 = s.nblk.toNat)
  | .s3 => decide (s.idx.s2 = s.nblk.toNat)

/-- `STEP(st)` is enabled during an EDEE or EDED (43 R287, R288). The `NBLK` of the run (60 R346) is the register itself,
which no host write changes while a command runs (20 R81): DEDUCED, log entry 27. -/
def stageReady (s : State) (st : Stage) : Bool :=
  decide (s.idx.get st < s.nblk.toNat) && (readSlots s.sem (s.idx.get st)).get st &&
    (decide (s.run.mode = .conc) || earlierDone s st)

/-- The agent of this stage has an enabled step (60 R345): DESB's and PASS's core steps are stage 1's. -/
def enabled (s : State) (st : Stage) : Bool :=
  match s.run.op with
  | .none => false
  | .desb => decide (st = .s1)
  | .pass => decide (st = .s1) && decide (s.idx.s1 < s.nblk.toNat)
  | .edee => stageReady s st
  | .eded => stageReady s st

/-- `STEP(st)` (43 R287): acquire, one chaining step, release, and completion by the last one (43 R290).
`NBLK` is read as in `stageReady` (log entry 27). -/
def stageStep (P : Params) (st : Stage) (s : State) : State :=
  let j := s.idx.get st
  let c := chainStep P s.tbl (s.pp.get st) (s.vec.get st) (readBlock s.mem j) j
  let t := { s with
    sem := writeSlot (writeSlot s.sem j st false) j (nextSlot st) true
    mem := writeBlock s.mem j c.block
    vec := s.vec.set st c.vector
    idx := s.idx.set st (j + 1) }
  if t.idx.s1 = s.nblk.toNat ∧ t.idx.s2 = s.nblk.toNat ∧ t.idx.s3 = s.nblk.toNat then complete t else t

/-- The core step of an agent: what it does when its step is enabled. -/
def coreStep (P : Params) (st : Stage) (s : State) : State :=
  match s.run.op with
  | .none => s
  | .desb => desbStep P s
  | .pass => passStep P s
  | .edee => stageStep P st s
  | .eded => stageStep P st s

/-- The agent of this stage is scheduled: it takes its step, or has none (00 R14, `await`) and the
turn changes nothing (DESIGN CHOICE, log entry 22). -/
def stageTurn (P : Params) (st : Stage) (s : State) : State := if enabled s st then coreStep P st s else s

/-- The agents that have an enabled step. -/
def enabledStages (s : State) : List Stage := [Stage.s1, Stage.s2, Stage.s3].filter (enabled s)

/-- The core left alone (70 R383, weak fairness): an enabled agent steps, which one being a free value where several
are (43 R289); an idle core waits (70 R372). Log entries 4 and 21. -/
def coreAlone (P : Params) (s : State) : State :=
  match enabledStages s with
  | [] => s
  | [st] => coreStep P st s
  | st :: st' :: sts =>
    coreStep P ((st :: st' :: sts).getD (Config.arbiter s.draws % (sts.length + 2)) st) { s with draws := s.draws + 1 }

/-- The three passes of a run, as a pure function of the block list (00 R2, 43 R282, R283). -/
def triplePass (P : Params) (tb : TableStore Entry) (pp : PerStage PassParams) (bs : List Block) : List Block :=
  passBlocks P tb pp.s3 (passBlocks P tb pp.s2 (passBlocks P tb pp.s1 bs))

end Sys2Proof.Machine
end

