-- ==== Sys2Proof/Machine/Tables.lean ====
section
/-! DEFINITION. The table commands TBLW and TBLC (spec 40 R152, R153). -/

namespace Sys2Proof.Machine

/-- The body of TBLW after acceptance (40 R152): ILLEGAL, then LOCKED, then STRUCT, then the write. -/
def tblwBody (tid : BitVec 4) (idx : BitVec 9) (val : Entry) (s : State) : State :=
  match tableOfTid tid with
  | none => raiseError .illegal s
  | some t =>
    if s.status.tblOk then raiseError .locked s
    else if t.size ≤ idx.toNat then raiseError .struct s
    else finish { s with tbl := tableSet s.tbl t idx.toNat val, wr := tableSet s.wr t idx.toNat true }

/-- **TBLW** (40 R152). -/
def execTblw (tid : BitVec 4) (idx : BitVec 9) (val : Entry) (s : State) : Host.Outcome State Fault Refusal :=
  issue (tblwBody tid idx val) s

/-- Every entry of table `t` is written and in its legal range. -/
def tableReady (tbl : TableStore Entry) (wr : TableStore Bool) (t : TableId) : Bool :=
  ((tableList tbl t).zip (tableList wr t)).all fun e => e.2 && legalEntry t e.1

/-- The tables, in the order of their `TID` (30 R121). -/
def allTables : List TableId := [.ip, .fp, .e, .p, .pc2, .ls, .rs, .sb]

/-- What TBLC checks (40 R153): every entry of every table is written and in its legal range. -/
def tablesReady (tbl : TableStore Entry) (wr : TableStore Bool) : Bool := allTables.all (tableReady tbl wr)

/-- The body of TBLC after acceptance (40 R153). -/
def tblcBody (s : State) : State :=
  if s.status.tblOk then finish s
  else if tablesReady s.tbl s.wr then { s with status := s.status.committed }
  else raiseError .cfg s

/-- **TBLC** (40 R153). -/
def execTblc (s : State) : Host.Outcome State Fault Refusal := issue tblcBody s

end Sys2Proof.Machine
end

