-- ==== Sys2Proof/Machine/Dispatch.lean ====
section
/-! DEFINITION. The meaning of every command, one arm for each constructor of Instr. -/

namespace Sys2Proof.Machine

def exec (i : Instr) (s : State) : Host.Outcome State Fault Refusal :=
  match i with
  | .tblw tid idx val => Sys2Proof.Machine.execTblw tid idx val s
  | .tblc => Sys2Proof.Machine.execTblc s
  | .desb dir => Sys2Proof.Machine.execDesb dir s
  | .ivgen => Sys2Proof.Machine.execIvgen s
  | .pass dir ksel ivsel => Sys2Proof.Machine.execPass dir ksel ivsel s
  | .edee mode => Sys2Proof.Machine.execEdee mode s
  | .eded mode => Sys2Proof.Machine.execEded mode s

end Sys2Proof.Machine
end

