-- ==== Sys2Proof/Machine/Window.lean ====
section
/-! DEFINITION. The host window (spec 20): the register map, what a read of each word returns, and what a write of each
word but `CMD` does. -/

namespace Sys2Proof.Machine

/-- The words of the window (20 R72). -/
inductive WinReg
  | cmd
  | status
  | nblk
  | key0
  | key1
  | key2
  | key3
  | iv1Hi
  | iv1Lo
  | iv2Hi
  | iv2Lo
  | iv3Hi
  | iv3Lo
  | dinHi
  | dinLo
  | dkeyHi
  | dkeyLo
  | doutHi
  | doutLo
  | blkHi (j : Nat)
  | blkLo (j : Nat)
  | reserved
  deriving DecidableEq, Repr

/-- The named registers and their offsets (20 R72). -/
def registerMap : List (Nat × WinReg) :=
  [ (0x00, .cmd), (0x04, .status), (0x08, .nblk),
    (0x10, .key0), (0x14, .key1), (0x18, .key2), (0x1C, .key3),
    (0x20, .iv1Hi), (0x24, .iv1Lo), (0x28, .iv2Hi), (0x2C, .iv2Lo), (0x30, .iv3Hi), (0x34, .iv3Lo),
    (0x40, .dinHi), (0x44, .dinLo), (0x48, .dkeyHi), (0x4C, .dkeyLo), (0x50, .doutHi), (0x54, .doutLo) ]

/-- The word at an aligned offset (20 R72, R73); every offset the map does not name is reserved (20 R74). -/
def registerAt (P : Params) (off : Nat) : WinReg :=
  match registerMap.lookup off with
  | some r => r
  | none =>
    if 0x80000 ≤ off ∧ off < 0x80000 + 8 * P.nblkMax then
      if off % 8 = 0 then .blkHi ((off - 0x80000) / 8) else .blkLo ((off - 0x80000) / 8)
    else .reserved

/-- The current value of a word (20 R72, R79); `CMD` and reserved words read 0. -/
def currentWord (r : WinReg) (s : State) : Word :=
  match r with
  | .cmd => 0#32
  | .status => s.status.toWord
  | .nblk => 0#16 ++ s.nblk
  | .key0 => hiWord (leftKey s.key)
  | .key1 => loWord (leftKey s.key)
  | .key2 => hiWord (rightKey s.key)
  | .key3 => loWord (rightKey s.key)
  | .iv1Hi => hiWord s.iv1
  | .iv1Lo => loWord s.iv1
  | .iv2Hi => hiWord s.iv2
  | .iv2Lo => loWord s.iv2
  | .iv3Hi => hiWord s.iv3
  | .iv3Lo => loWord s.iv3
  | .dinHi => hiWord s.din
  | .dinLo => loWord s.din
  | .dkeyHi => hiWord s.dkey
  | .dkeyLo => loWord s.dkey
  | .doutHi => hiWord s.dout
  | .doutLo => loWord s.dout
  | .blkHi j => readWord s.mem (blkAddr j)
  | .blkLo j => readWord s.mem (blkAddr j + 4)
  | .reserved => 0#32

/-- A read of this word returns any value now (20 R82): `BLK` while PASS, EDEE or EDED runs, `DOUT` while DESB
runs, told by `RUN.OP` (DEDUCED, log entry 16). -/
def readIsDraw (r : WinReg) (s : State) : Bool :=
  match r with
  | .blkHi _ => decide (s.run.op = .pass ∨ s.run.op = .edee ∨ s.run.op = .eded)
  | .blkLo _ => decide (s.run.op = .pass ∨ s.run.op = .edee ∨ s.run.op = .eded)
  | .doutHi => decide (s.run.op = .desb)
  | .doutLo => decide (s.run.op = .desb)
  | _ => false

/-- A host read of a word (20 R82): what it returns stands in `rdata`, and nothing of the core changes. -/
def readReg (r : WinReg) (s : State) : State :=
  if readIsDraw r s then { s with rdata := Config.busyRead s.draws, draws := s.draws + 1 }
  else { s with rdata := currentWord r s }

/-- A host write of a word other than `CMD` (20 R79). -/
def writeReg (r : WinReg) (v : Word) (s : State) : State :=
  match r with
  | .cmd => s
  | .status => s
  | .nblk => { s with nblk := v.extractLsb' 0 16 }
  | .key0 => { s with key := setLeftKey s.key (setHiWord (leftKey s.key) v) }
  | .key1 => { s with key := setLeftKey s.key (setLoWord (leftKey s.key) v) }
  | .key2 => { s with key := setRightKey s.key (setHiWord (rightKey s.key) v) }
  | .key3 => { s with key := setRightKey s.key (setLoWord (rightKey s.key) v) }
  | .iv1Hi => { s with iv1 := setHiWord s.iv1 v }
  | .iv1Lo => { s with iv1 := setLoWord s.iv1 v }
  | .iv2Hi => { s with iv2 := setHiWord s.iv2 v }
  | .iv2Lo => { s with iv2 := setLoWord s.iv2 v }
  | .iv3Hi => { s with iv3 := setHiWord s.iv3 v }
  | .iv3Lo => { s with iv3 := setLoWord s.iv3 v }
  | .dinHi => { s with din := setHiWord s.din v }
  | .dinLo => { s with din := setLoWord s.din v }
  | .dkeyHi => { s with dkey := setHiWord s.dkey v }
  | .dkeyLo => { s with dkey := setLoWord s.dkey v }
  | .doutHi => s
  | .doutLo => s
  | .blkHi j => { s with mem := writeWord s.mem (blkAddr j) v }
  | .blkLo j => { s with mem := writeWord s.mem (blkAddr j + 4) v }
  | .reserved => s

/-- Where the platform puts an offset of the window (00 R20, 20 R70). -/
def hostAddress (off : Nat) : Nat := Config.coreBase + off

/-- The first offset above the window (20 R70). -/
def windowSize : Nat := 0x100000

end Sys2Proof.Machine
end

