-- ==== Sys2Proof/Machine/Agents.lean ====
section
/-! DEFINITION. The agents of the core (spec 60 R345): the host's accesses, the acceptance of a command word, a stage's
turn, and reset; and how a command word is put where the next step takes it. -/

namespace Sys2Proof.Machine

/-- A command word written to `CMD` (30 R110): decoded, and its command's rule runs; an illegal word is accepted and
raises ILLEGAL (30 R119). -/
def commandWrite (w : Word) (s : State) : Host.Outcome State Fault Refusal :=
  match decode w with
  | .ok i => exec i s
  | .error _ => issue (raiseError .illegal) s

/-- The check on a host access (20 R75): the reason the model gives it no step, if there is one. -/
def accessRefused (off size : Nat) : Bool := decide (size ≠ 4 ∨ off % 4 ≠ 0)

/-- `HostWrite(off, v)` (20 R79, R81). -/
def hostWrite (P : Params) (off size : Nat) (v : Word) (s : State) : Host.Outcome State Fault Refusal :=
  if windowSize ≤ off then .fault .outsideWindow
  else if accessRefused off size then .refused .undefinedAccess
  else if s.status.busy then .next s
  else if registerAt P off = .cmd then commandWrite v s
  else .next (writeReg (registerAt P off) v s)

/-- `HostRead(off)` (20 R82). -/
def hostRead (P : Params) (off size : Nat) (s : State) : Host.Outcome State Fault Refusal :=
  if windowSize ≤ off then .fault .outsideWindow
  else if accessRefused off size then .refused .undefinedAccess
  else .next (readReg (registerAt P off) s)

/-- The host polls (30 R127, 70 R374): one read of `STATUS`; while it shows `BUSY = 1` the core moves and the host
polls on. -/
def hostPoll (P : Params) (s : State) : State :=
  let t := readReg .status s
  if s.status.busy then coreAlone P { t with events := Event.poll :: t.events } else t

/-- One event of the environment; it is already taken from `events`. -/
def takeEvent (P : Params) (e : Event) (s : State) : Host.Outcome State Fault Refusal :=
  match e with
  | .write off size v => hostWrite P off size v s
  | .read off size => hostRead P off size s
  | .poll => .next (hostPoll P s)
  | .turn st => .next (stageTurn P st s)
  | .reset d => .next (afterReset P d s)

/-- The next event, or the core left alone. -/
def nextEvent (P : Params) (s : State) : Host.Outcome State Fault Refusal :=
  match s.events with
  | [] => .next (coreAlone P s)
  | e :: rest => takeEvent P e { s with events := rest }

/-- The host's next access is a write of this command word to `CMD` (20 R72: offset 0). -/
def withCommand (w : Word) (s : State) : State := { s with events := Event.write 0x00000 4 w :: s.events }

end Sys2Proof.Machine
end

