-- ==== Sys2Proof/Machine/Step.lean ====
section
/-! DEFINITION. One step of the machine, and the command word the host places for the next one. -/

namespace Sys2Proof.Machine

/-- One step: the next event of the environment, or one step of the core left alone (60 R345). -/
def step (s : State) : Host.Outcome State Fault Refusal := nextEvent Config.params s

/-- `s` with the command `w` as the very next event: the core fetches no instructions (20 R92), a command comes to run
by the host's write to `CMD` (30 R110). Log entry 12. -/
def State.withFetchWord (s : State) (nbits w : Nat) : State := withCommand (BitVec.ofNat 32 (w % 2 ^ nbits)) s

end Sys2Proof.Machine
end

