-- ==== Sys2Proof/Machine/HostProgram.lean ====
section
/-! DEFINITION. What a host program is made of (spec 30 R126, R127): host operations and the expansion of the
pseudo-instructions, as lists of events; and the framing of bytes into blocks (70 R380, R381), a host convention. -/

namespace Sys2Proof.Machine

/-- `WR off, v` (30 R127). -/
def hostWr (off : Nat) (v : Word) : List Event := [.write off 4 v]

/-- `RD off` (30 R127). -/
def hostRd (off : Nat) : List Event := [.read off 4]

/-- `POLL` (30 R127). -/
def hostPollOp : List Event := [.poll]

/-- `CMD c` (30 R127). -/
def hostCmd (i : Instr) : List Event := hostWr 0x00000 (encode i)

/-- The two writes of a 64-bit register whose `_HI` is at `off` (20 R76). -/
def hostWr64 (off : Nat) (v : Block) : List Event := hostWr off (hiWord v) ++ hostWr (off + 4) (loWord v)

/-- `LDKEY K` (30 R127). -/
def hostLdKey (k : BitVec 128) : List Event := hostWr64 0x10 (leftKey k) ++ hostWr64 0x18 (rightKey k)

/-- `LDIV n, v` (30 R127), `n` = 1, 2 or 3. -/
def hostLdIv (n : Nat) (v : Block) : List Event := hostWr64 (0x20 + 8 * (n - 1)) v

/-- `LDDIN v` (30 R127). -/
def hostLdDin (v : Block) : List Event := hostWr64 0x40 v

/-- `LDDKEY v` (30 R127). -/
def hostLdDkey (v : Block) : List Event := hostWr64 0x48 v

/-- `LDBLK j, v` (30 R127). -/
def hostLdBlk (j : Nat) (v : Block) : List Event := hostWr64 (0x80000 + 8 * j) v

/-- `LDN n` (30 R127). -/
def hostLdN (n : Word) : List Event := hostWr 0x08 n

/-- The `TBLW` commands of one table from index `i`, ascending (30 R127). -/
def hostLoadFrom (t : TableId) : Nat → List Entry → List Event
  | _, [] => []
  | i, v :: vs => hostCmd (.tblw (tidOfTable t) (BitVec.ofNat 9 i) v) ++ hostLoadFrom t (i + 1) vs

/-- `TBLLOAD S` (30 R127): 800 commands, table by table, ascending. -/
def hostTblLoad (S : TableStore Entry) : List Event := allTables.flatMap fun t => hostLoadFrom t 0 (tableList S t)

/-- Eight bytes as a block, big-endian (20 R77); a chunk shorter than 8 bytes is padded with zero bytes on the right
(70 R380). -/
def blockOfBytes (bs : List Byte) : Block :=
  bs.getD 0 0#8 ++ bs.getD 1 0#8 ++ bs.getD 2 0#8 ++ bs.getD 3 0#8 ++
    bs.getD 4 0#8 ++ bs.getD 5 0#8 ++ bs.getD 6 0#8 ++ bs.getD 7 0#8

/-- The eight bytes of a block, most significant first (20 R77, 70 R381). -/
def bytesOfBlock (b : Block) : List Byte :=
  [b.extractLsb' 56 8, b.extractLsb' 48 8, b.extractLsb' 40 8, b.extractLsb' 32 8,
   b.extractLsb' 24 8, b.extractLsb' 16 8, b.extractLsb' 8 8, b.extractLsb' 0 8]

/-- The first `n` blocks of a byte buffer: block `j` holds bytes `8j` to `8j + 7` (70 R380). -/
def frameBlocks : Nat → List Byte → List Block
  | 0, _ => []
  | n + 1, m => blockOfBytes (m.take 8) :: frameBlocks n (m.drop 8)

/-- Framing (70 R380): `NBLK = ceil(n / 8)` blocks. -/
def frame (m : List Byte) : List Block := frameBlocks ((m.length + 7) / 8) m

/-- Reassembly (70 R381): the bytes of the blocks, truncated to the original length. -/
def reassemble (n : Nat) (bs : List Block) : List Byte := (bs.flatMap bytesOfBlock).take n

/-- The 128-bit key of a 16-byte buffer, big-endian (20 R78). -/
def keyOfBytes (bs : List Byte) : BitVec 128 := blockOfBytes (bs.take 8) ++ blockOfBytes (bs.drop 8)

end Sys2Proof.Machine
end

