-- ==== Sys2Proof/Safety.lean ====
section
/-! DEFINITION. What claims are stated in: host accesses the spec defines, illegal words and the error of a command as
the error rules put them, the register map as values, the invariant of the core, the conditions on a table set under
which the cipher has its algebraic properties, and how far a Triple-DES run has come. -/

namespace Sys2Proof.Machine

/-! ## Defined accesses -/

/-- An aligned 32-bit access inside the window (20 R70, R75). -/
def definedAccess (off size : Nat) : Bool := decide (off < windowSize ∧ size = 4 ∧ off % 4 = 0)

/-- An event the spec gives a step: every event but an undefined access. -/
def Event.isDefined : Event → Bool
  | .write off size _ => definedAccess off size
  | .read off size => definedAccess off size
  | .poll => true
  | .turn _ => true
  | .reset _ => true

/-- The event is not the reset signal. -/
def Event.noReset : Event → Bool
  | .reset _ => false
  | _ => true

/-! ## Illegal words and errors -/

/-- The command words that are illegal, as 30 R119 and R120 list them, format by format (30 R112). -/
def illegalWord (w : Word) : Prop :=
  (w.extractLsb' 0 8).toNat = 0 ∨
  8 ≤ (w.extractLsb' 0 8).toNat ∨
  ((w.extractLsb' 0 8).toNat = 1 ∧ (w.extractLsb' 28 4 ≠ 0#4 ∨ 8 ≤ (w.extractLsb' 8 4).toNat)) ∨
  (((w.extractLsb' 0 8).toNat = 2 ∨ (w.extractLsb' 0 8).toNat = 4) ∧ w.extractLsb' 8 24 ≠ 0#24) ∨
  (((w.extractLsb' 0 8).toNat = 3 ∨ (w.extractLsb' 0 8).toNat = 6 ∨ (w.extractLsb' 0 8).toNat = 7) ∧
    w.extractLsb' 9 23 ≠ 0#23) ∨
  ((w.extractLsb' 0 8).toNat = 5 ∧ (w.extractLsb' 12 20 ≠ 0#20 ∨ w.extractLsb' 10 2 = 0#2))

/-- `s` after a command that only reports the error `c` (60 R331): `DONE` is 0, `ERR` is the code. -/
def errorState (c : ErrCode) (s : State) : State := { s with status := { s.status with done := false, err := c } }

/-- `s` after an immediate command that completed and changed nothing else: `DONE` is 1, `ERR` is 0. -/
def doneState (s : State) : State := { s with status := { s.status with done := true, err := .noError } }

/-- `NBLK` is not a legal block count of this hardware (60 R334). -/
def badCount (s : State) : Bool := decide (s.nblk.toNat = 0) || decide (Config.nblkMax < s.nblk.toNat)

/-- The error of EDEE and EDED: CFG before STRUCT (60 R339). -/
def runError (s : State) : ErrCode :=
  if s.status.tblOk = false then .cfg else if badCount s then .struct else .noError

/-- The one error an accepted command reports in state `s` (60 R332 to R339), `noError` where it reports none. -/
def expectedError (s : State) : Instr → ErrCode
  | .tblw tid idx _ =>
    if 8 ≤ tid.toNat then .illegal
    else if s.status.tblOk then .locked
    else if [64, 64, 48, 32, 48, 16, 16, 512].getD tid.toNat 0 ≤ idx.toNat then .struct
    else .noError
  | .tblc => if s.status.tblOk then .noError else if tablesReady s.tbl s.wr then .noError else .cfg
  | .desb _ => if s.status.tblOk then .noError else .cfg
  | .ivgen => .noError
  | .pass _ _ ivsel => if ivsel = 0#2 then .illegal else runError s
  | .edee _ => runError s
  | .eded _ => runError s

/-! ## The register map as values -/

/-- The offsets 20 R72 names outside the block window. -/
def namedOffsets : List Nat :=
  [0x00, 0x04, 0x08, 0x10, 0x14, 0x18, 0x1C, 0x20, 0x24, 0x28, 0x2C, 0x30, 0x34,
   0x40, 0x44, 0x48, 0x4C, 0x50, 0x54]

/-- An offset is reserved (20 R74): aligned, in the window, not named and beyond the block cells. -/
def reservedOffset (off : Nat) : Prop :=
  off < windowSize ∧ off % 4 = 0 ∧ off ∉ namedOffsets ∧ ¬ (0x80000 ≤ off ∧ off < 0x80000 + 8 * Config.nblkMax)

/-- What each named word holds, by the bit ranges of 20 R72 and 10 R31 to R37. -/
def windowValues (s : State) : List (Nat × Word) :=
  [ (0x00, 0#32), (0x04, s.status.toWord), (0x08, s.nblk.setWidth 32),
    (0x10, s.key.extractLsb' 96 32), (0x14, s.key.extractLsb' 64 32),
    (0x18, s.key.extractLsb' 32 32), (0x1C, s.key.extractLsb' 0 32),
    (0x20, s.iv1.extractLsb' 32 32), (0x24, s.iv1.extractLsb' 0 32),
    (0x28, s.iv2.extractLsb' 32 32), (0x2C, s.iv2.extractLsb' 0 32),
    (0x30, s.iv3.extractLsb' 32 32), (0x34, s.iv3.extractLsb' 0 32),
    (0x40, s.din.extractLsb' 32 32), (0x44, s.din.extractLsb' 0 32),
    (0x48, s.dkey.extractLsb' 32 32), (0x4C, s.dkey.extractLsb' 0 32),
    (0x50, s.dout.extractLsb' 32 32), (0x54, s.dout.extractLsb' 0 32) ]

/-- What a write of `v` to each named word but `CMD` leaves (20 R79), by the bit ranges of 20 R72. -/
def windowWrites (s : State) (v : Word) : List (Nat × State) :=
  [ (0x04, s), (0x08, { s with nblk := v.extractLsb' 0 16 }),
    (0x10, { s with key := v ++ s.key.extractLsb' 0 96 }),
    (0x14, { s with key := s.key.extractLsb' 96 32 ++ v ++ s.key.extractLsb' 0 64 }),
    (0x18, { s with key := s.key.extractLsb' 64 64 ++ v ++ s.key.extractLsb' 0 32 }),
    (0x1C, { s with key := s.key.extractLsb' 32 96 ++ v }),
    (0x20, { s with iv1 := v ++ s.iv1.extractLsb' 0 32 }), (0x24, { s with iv1 := s.iv1.extractLsb' 32 32 ++ v }),
    (0x28, { s with iv2 := v ++ s.iv2.extractLsb' 0 32 }), (0x2C, { s with iv2 := s.iv2.extractLsb' 32 32 ++ v }),
    (0x30, { s with iv3 := v ++ s.iv3.extractLsb' 0 32 }), (0x34, { s with iv3 := s.iv3.extractLsb' 32 32 ++ v }),
    (0x40, { s with din := v ++ s.din.extractLsb' 0 32 }), (0x44, { s with din := s.din.extractLsb' 32 32 ++ v }),
    (0x48, { s with dkey := v ++ s.dkey.extractLsb' 0 32 }), (0x4C, { s with dkey := s.dkey.extractLsb' 32 32 ++ v }),
    (0x50, s), (0x54, s) ]

/-! ## The transform in one piece -/

/-- What the loop of 41 R202 carries. -/
structure LoopState where
  c : BitVec 28
  d : BitVec 28
  l : BitVec 32
  r : BitVec 32
  deriving DecidableEq, Repr

/-- One turn of the loop of 41 R202. -/
def loopTurn (order : SboxIndexOrder) (tb : TableStore Entry) (dec : Bool) (q : LoopState) (r : Nat) : LoopState :=
  let c := if dec then rotr28 q.c (tb.rs.toList.getD r 0#7).toNat else rotl28 q.c (tb.ls.toList.getD r 0#7).toNat
  let d := if dec then rotr28 q.d (tb.rs.toList.getD r 0#7).toNat else rotl28 q.d (tb.ls.toList.getD r 0#7).toNat
  { c := c, d := d, l := q.r, r := q.l ^^^ feistel order tb q.r (permute tb.pc2 (c ++ d : BitVec 56)) }

/-- `T(x, key, dec)` as 41 R202 writes it: one loop over the sixteen rounds. -/
def transformLoop (order : SboxIndexOrder) (tb : TableStore Entry) (x key : Block) (dec : Bool) : Block :=
  let z : BitVec 64 := permute tb.ip x
  let q := (List.range 16).foldl (loopTurn order tb dec)
    { c := (reduceKey key).extractLsb' 28 28, d := (reduceKey key).extractLsb' 0 28,
      l := z.extractLsb' 32 32, r := z.extractLsb' 0 32 }
  permute tb.fp (q.r ++ q.l : BitVec 64)

/-- Row and column of a group by the table of 41 R196, from its bits `g 1` to `g 6`. -/
def rowColumn (order : SboxIndexOrder) (g : Nat → Nat) : Nat × Nat :=
  match order with
  | .msbFirst => (2 * g 1 + g 6, 8 * g 2 + 4 * g 3 + 2 * g 4 + g 5)
  | .lsbFirst => (g 1 + 2 * g 6, g 2 + 2 * g 3 + 4 * g 4 + 8 * g 5)

/-! ## The invariant -/

/-- `1 ≤ NBLK ≤ NBLK_MAX` (10 R33). -/
def nblkInRange (P : Params) (s : State) : Prop := 1 ≤ s.nblk.toNat ∧ s.nblk.toNat ≤ P.nblkMax

/-- A Triple-DES run is in progress. -/
def tripleRuns (s : State) : Prop := s.run.op = .edee ∨ s.run.op = .eded

/-- `STATUS` and `RUN` agree (10 R31, R44), and a long command runs only on committed tables (40 R155). -/
structure StatusInv (s : State) : Prop where
  busyNotDone : s.status.busy = true → s.status.done = false
  busyNoError : s.status.busy = true → s.status.err = .noError
  opIffBusy : s.run.op = .none ↔ s.status.busy = false
  busyTablesOk : s.status.busy = true → s.status.tblOk = true

/-- Committed tables are complete and legal (40 R153). -/
def TablesInv (s : State) : Prop := s.status.tblOk = true → tablesReady s.tbl s.wr = true

/-- At most one slot of a triple is available. -/
def atMostOneSlot (t : Slots) : Bool :=
  !(t.s1 && t.s2) && !(t.s1 && t.s3) && !(t.s2 && t.s3)

/-- Exactly one slot of a triple is available (10 R43). -/
def exactlyOneSlot (t : Slots) : Bool := atMostOneSlot t && (t.s1 || t.s2 || t.s3)

/-- The stores are canonical, the block store lies in its window (20 R73), and no two stages own one block (10 R43). -/
structure StoresInv (P : Params) (s : State) : Prop where
  memWf : Memory.wf s.mem
  memInWindow : ∀ c ∈ s.mem, blkAddr 0 ≤ c.1 ∧ c.1 < blkAddr P.nblkMax
  semWf : storeWf noSlots s.sem
  oneOwner : ∀ j, atMostOneSlot (readSlots s.sem j) = true

/-- A DESB in progress: what it latched is what the registers still hold (41 R203), and every stage, being unused, holds
`IDX[s] = NBLK` (10 R45; for stage 1 log entry 26). -/
def DesbInv (s : State) : Prop :=
  s.run.op = .desb → s.run.latch.x = s.din ∧ s.run.latch.key = s.dkey ∧
    s.idx = { s1 := s.nblk.toNat, s2 := s.nblk.toNat, s3 := s.nblk.toNat }

/-- A PASS in progress (42 R244, 10 R45). -/
structure PassInv (P : Params) (s : State) : Prop where
  range : nblkInRange P s
  seqMode : s.run.mode = .seq
  first : s.idx.s1 < s.nblk.toNat
  second : s.idx.s2 = s.nblk.toNat
  third : s.idx.s3 = s.nblk.toNat

/-- The triple of block `j` when the stages have finished `i.s1`, `i.s2` and `i.s3` blocks (43 R287). -/
def slotsAt (i : PerStage Nat) (j : Nat) : Slots :=
  { s1 := decide (i.s1 ≤ j ∨ j < i.s3), s2 := decide (i.s2 ≤ j ∧ j < i.s1), s3 := decide (i.s3 ≤ j ∧ j < i.s2) }

/-- An EDEE or EDED in progress (10 R43, R45, R47; 43 R286 to R288). -/
structure TripleInv (P : Params) (s : State) : Prop where
  range : nblkInRange P s
  order32 : s.idx.s3 ≤ s.idx.s2
  order21 : s.idx.s2 ≤ s.idx.s1
  order1 : s.idx.s1 ≤ s.nblk.toNat
  unfinished : s.idx.s3 < s.nblk.toNat
  slots : ∀ j, j < s.nblk.toNat → readSlots s.sem j = slotsAt s.idx j
  seqSecond : s.run.mode = .seq → s.idx.s2 = 0 ∨ s.idx.s1 = s.nblk.toNat
  seqThird : s.run.mode = .seq → s.idx.s3 = 0 ∨ s.idx.s2 = s.nblk.toNat
  edeeParams : s.run.op = .edee → s.pp = edeePasses s
  ededParams : s.run.op = .eded → s.pp = ededPasses s

/-- The invariant of the core: it holds after reset and every step keeps it. -/
structure Inv (P : Params) (s : State) : Prop where
  status : StatusInv s
  tables : TablesInv s
  stores : StoresInv P s
  desb : DesbInv s
  pass : s.run.op = .pass → PassInv P s
  triple : tripleRuns s → TripleInv P s

/-! ## Conditions on a table set (40 R156) -/

/-- `FP` is the inverse permutation of `IP` (40 R156). -/
def fpInvertsIp (tb : TableStore Entry) : Prop :=
  ∀ i, 1 ≤ i → i ≤ 64 →
    (tb.ip.toList.getD ((tb.fp.toList.getD (i - 1) 0#7).toNat - 1) 0#7).toNat = i ∧
    (tb.fp.toList.getD ((tb.ip.toList.getD (i - 1) 0#7).toNat - 1) 0#7).toNat = i

/-- The sum of the first `n` shift counts. -/
def shiftSum (xs : List Entry) (n : Nat) : Nat := ((xs.take n).map BitVec.toNat).sum

/-- `RS` satisfies 40 R158 for `LS`: after every round the right rotation so far is the inverse of the left rotation
before the matching round, modulo 28. -/
def rsMatchesLs (ls rs : List Entry) : Prop :=
  ∀ r, r < 16 → (shiftSum rs (r + 1) + shiftSum ls (16 - r)) % 28 = 0

/-- Every entry of every table is in its legal range (40 R153). -/
def tablesLegal (tb : TableStore Entry) : Prop := ∀ t, ∀ v ∈ tableList tb t, legalEntry t v = true

/-- The tables of 40 R156: the conditions under which the transform undoes itself. -/
structure InvertibleTables (tb : TableStore Entry) : Prop where
  legal : tablesLegal tb
  inverse : fpInvertsIp tb
  shifts : rsMatchesLs tb.ls.toList tb.rs.toList

/-! ## How far a run has come -/

/-- The first `n` blocks of the block store. -/
def blocksOf (s : State) (n : Nat) : List Block := (List.range n).map (readBlock s.mem)

/-- What a pass XORs into block `n`, or hands on to it, when it ran over `bs` (42 R243): the IV before block 0, then
the last output block when encrypting and the last input block when decrypting. -/
def vectorAfter (P : Params) (tb : TableStore Entry) (pp : PassParams) (bs : List Block) : Nat → Block
  | 0 => pp.iv
  | n + 1 =>
    match pp.dir with
    | .enc => (passBlocks P tb pp bs).getD n 0#64
    | .dec => bs.getD n 0#64

/-- Block `j` of a Triple-DES run over `bs` when the stages have finished `i.s1`, `i.s2` and `i.s3` blocks. -/
def blockAt (P : Params) (tb : TableStore Entry) (pp : PerStage PassParams) (bs : List Block) (i : PerStage Nat)
    (j : Nat) : Block :=
  if j < i.s3 then (triplePass P tb pp bs).getD j 0#64
  else if j < i.s2 then (passBlocks P tb pp.s2 (passBlocks P tb pp.s1 bs)).getD j 0#64
  else if j < i.s1 then (passBlocks P tb pp.s1 bs).getD j 0#64
  else bs.getD j 0#64

/-- The blocks and the vectors of `s` are those of a Triple-DES run that started on the blocks `bs`. -/
structure RunOver (P : Params) (bs : List Block) (s : State) : Prop where
  count : bs.length = s.nblk.toNat
  blocks : ∀ j, j < s.nblk.toNat → readBlock s.mem j = blockAt P s.tbl s.pp bs s.idx j
  vec1 : s.vec.s1 = vectorAfter P s.tbl s.pp.s1 bs s.idx.s1
  vec2 : s.vec.s2 = vectorAfter P s.tbl s.pp.s2 (passBlocks P s.tbl s.pp.s1 bs) s.idx.s2
  vec3 : s.vec.s3 =
    vectorAfter P s.tbl s.pp.s3 (passBlocks P s.tbl s.pp.s2 (passBlocks P s.tbl s.pp.s1 bs)) s.idx.s3

/-- `k` steps, stopping at the first fault or refusal: the host's `core.run` over `step` itself. -/
def runSteps : Nat → State → Host.Outcome State Fault Refusal
  | 0, s => .next s
  | k + 1, s =>
    match step s with
    | .next t => runSteps k t
    | .fault r => .fault r
    | .refused r => .refused r

/-- The first `k` states of a run are all busy. -/
def busyBefore (k : Nat) (s : State) : Prop :=
  ∀ m, m < k → ∃ u, runSteps m s = .next u ∧ u.status.busy = true

/-- The state is idle, its tables are committed and `NBLK` is in range: a run may be issued (70 R373). -/
structure ReadyToRun (P : Params) (s : State) : Prop where
  idle : s.status.busy = false
  tablesOk : s.status.tblOk = true
  range : nblkInRange P s

end Sys2Proof.Machine
end

