-- ==== Sys2Proof/Certificates/Slice0/Obligations.lean ====
section
/-! DEFINITION. The statements for the provers, in the order of OBLIGATIONS.json. A statement about a free value holds
for every value of it; one about the parameters of this hardware holds for every `NBLK_MAX`. -/

open Sys2Proof Sys2Proof.Machine

/-! ## Encoding -/

/-- Decode and encode agree, for every command and every operand its encoding admits (30 R112 to R117, R125, R126). -/
def Obligations.DecodeOfEncodeIsTheCommand : Prop :=
  ∀ i : Instr, i.wellFormed = true → decode (encode i) = .ok i

/-- A legal word is the word of the command it decodes to, so no bit of it is dropped (30 R111, R125). -/
def Obligations.EncodeOfDecodeIsTheWord : Prop :=
  ∀ (w : Word) (i : Instr), decode w = .ok i → i.wellFormed = true ∧ encode i = w

/-- The words the decoder rejects are the illegal words of 30 R119 and R120, and no other; they are the words that match
no row of the opcode map, and PASS with `IVSEL = 00` (30 R118). -/
def Obligations.DecoderRejectsExactlyIllegalWords : Prop :=
  ∀ w : Word,
    ((∃ e, decode w = .error e) ↔ illegalWord w) ∧
    (illegalWord w ↔
      (∀ r ∈ opcodeRows, w &&& r.2 ≠ r.1) ∨ (w &&& 0xFFFFF0FF#32 = 0x00000005#32 ∧ w.extractLsb' 10 2 = 0#2))

/-- Words written out from 30 R125 and R126 (95 V19), at least one of each command, decode to what they stand for. -/
def Obligations.WordsOfEveryCommandDecode : Prop :=
  decode 0x07400001#32 = .ok (.tblw 0#4 0#9 58#7) ∧
  decode 0x017FF701#32 = .ok (.tblw 7#4 511#9 11#7) ∧
  decode 0x00000002#32 = .ok .tblc ∧
  decode 0x00000103#32 = .ok (.desb .dec) ∧
  decode 0x00000004#32 = .ok .ivgen ∧
  decode 0x00000A05#32 = .ok (.pass .enc .k2 2#2) ∧
  decode 0x00000106#32 = .ok (.edee .conc) ∧
  decode 0x00000007#32 = .ok (.eded .seq)

/-! ## Issuing a command -/

/-- A step runs the decoded command: when the next event is the host's write of a word to `CMD` and the word decodes to
`i`, the step is `exec i` of the state from which the event is taken, and `withFetchWord` places exactly such an event. -/
def Obligations.StepRunsTheDecodedCommand : Prop :=
  ∀ (s : State) (w : Word) (i : Instr), decode w = .ok i →
    (∀ rest, s.events = Event.write 0x00000 4 w :: rest → step s = exec i { s with events := rest }) ∧
    (∀ n : Nat, BitVec.ofNat 32 n = w → n < 2 ^ 32 → step (s.withFetchWord 32 n) = exec i s)

/-- An illegal word is accepted and raises ILLEGAL, with no other change of state (30 R119, R120). -/
def Obligations.IllegalWordRaisesIllegal : Prop :=
  ∀ (s : State) (w : Word) (rest : List Event), s.status.busy = false → illegalWord w →
    step { s with events := Event.write 0x00000 4 w :: rest } = .next (errorState .illegal { s with events := rest })

/-- While `BUSY = 1` every host write is ignored, whatever its offset and whatever word it carries to `CMD` (20 R81). -/
def Obligations.WritesWhileBusyChangeNothing : Prop :=
  ∀ (s : State) (off : Nat) (v : Word) (rest : List Event),
    s.status.busy = true → off < windowSize → off % 4 = 0 →
    step { s with events := Event.write off 4 v :: rest } = .next { s with events := rest } ∧
    ∀ i : Instr, exec i s = .next s

/-- Acceptance clears the outcome of the command before it, so what a command word does cannot depend on it, and what it
leaves in `DONE` and `ERR` is its own; and no step but an accepted `CMD` write or a reset changes `ERR` (60 R340). -/
def Obligations.AcceptanceForgetsThePreviousOutcome : Prop :=
  ∀ s : State,
    (s.status.busy = false → ∀ w : Word,
      (∀ (d : Bool) (c : ErrCode),
        commandWrite w s = commandWrite w { s with status := { s.status with done := d, err := c } }) ∧
      ∃ t, commandWrite w s = .next t ∧ (t.status.err ≠ .noError → t.status.done = false) ∧
        (t.status.busy = true → t.status.done = false ∧ t.status.err = .noError)) ∧
    (∀ t : State, step s = .next t →
      (s.status.busy = false → ∀ size v rest, s.events ≠ Event.write 0x00000 size v :: rest) →
      (∀ d rest, s.events ≠ Event.reset d :: rest) → t.status.err = s.status.err)

/-! ## Errors -/

/-- One error is reported, the first of ILLEGAL, LOCKED, CFG, STRUCT that applies (60 R339), and a command that reports
one changes nothing but `DONE` and `ERR` (60 R331). While `BUSY = 1` nothing is reported. -/
def Obligations.ErrorsByPriorityAndNothingElse : Prop :=
  ∀ (i : Instr) (s : State),
    (s.status.busy = true → exec i s = .next s) ∧
    (s.status.busy = false →
      (expectedError s i ≠ .noError → exec i s = .next (errorState (expectedError s i) s)) ∧
      (expectedError s i = .noError → ∃ t, exec i s = .next t ∧ t.status.err = .noError)) ∧
    (s.status.busy = false → ∀ w, illegalWord w → commandWrite w s = .next (errorState .illegal s))

/-- Retrying a failed command with no change of state fails again with the same code (60 R341). -/
def Obligations.RetryFailsAgain : Prop :=
  ∀ (i : Instr) (s t : State), s.status.busy = false → exec i s = .next t → t.status.err ≠ .noError →
    exec i t = .next t

/-- The frame of the commands: what each leaves unchanged when it is issued. No command stores to the block store at
its issue, and each special piece of state changes only by the commands that write it. Two clauses are the model's
reading of the spec: that `IDX` may change by DESB (`DesbTransformsOneBlock` says to what) is log entry 26, that the
latch of DESB is state and changes by DESB alone is log entry 6. -/
def Obligations.CommandsChangeOnlyTheirState : Prop :=
  ∀ (i : Instr) (s t : State), exec i s = .next t →
    (∀ a, readByte t.mem a = readByte s.mem a) ∧
    t.nblk = s.nblk ∧ t.key = s.key ∧ t.din = s.din ∧ t.dkey = s.dkey ∧ t.dout = s.dout ∧
    t.events = s.events ∧ t.rdata = s.rdata ∧
    (i ≠ .ivgen → t.iv1 = s.iv1 ∧ t.iv2 = s.iv2 ∧ t.iv3 = s.iv3 ∧ t.draws = s.draws) ∧
    ((∀ tid idx val, i ≠ .tblw tid idx val) → t.tbl = s.tbl ∧ t.wr = s.wr) ∧
    (i ≠ .tblc → t.status.tblOk = s.status.tblOk) ∧
    ((∀ d, i ≠ .desb d) → t.run.latch = s.run.latch) ∧
    ((∀ m, i ≠ .edee m) → (∀ m, i ≠ .eded m) →
      t.sem = s.sem ∧ t.vec.s2 = s.vec.s2 ∧ t.vec.s3 = s.vec.s3 ∧ t.pp.s2 = s.pp.s2 ∧ t.pp.s3 = s.pp.s3 ∧
      ((∀ d k v, i ≠ .pass d k v) →
        t.vec = s.vec ∧ t.pp = s.pp ∧ t.run.mode = s.run.mode ∧
        (t.idx = s.idx ∨ t.idx = { s1 := s.nblk.toNat, s2 := s.nblk.toNat, s3 := s.nblk.toNat }) ∧
        ((∀ d, i ≠ .desb d) → t.idx = s.idx ∧ t.run = s.run ∧ t.status.busy = s.status.busy)))

/-! ## Tables -/

/-- TBLW (40 R152): ILLEGAL for `TID` 8 to 15 or a reserved bit, then LOCKED once the tables are committed, then STRUCT
for an index beyond the table, each with no other effect; otherwise it writes its entry and sets its `WR` bit, and every
other entry and everything else stays. -/
def Obligations.TblwWritesOneEntry : Prop :=
  ∀ (tid : BitVec 4) (idx : BitVec 9) (val : Entry) (s : State), s.status.busy = false →
    (8 ≤ tid.toNat → exec (.tblw tid idx val) s = .next (errorState .illegal s)) ∧
    (∀ w : Word, w.extractLsb' 0 8 = 0x01#8 → w.extractLsb' 28 4 ≠ 0#4 →
      commandWrite w s = .next (errorState .illegal s)) ∧
    (∀ tab, tid = tidOfTable tab →
      (s.status.tblOk = true → exec (.tblw tid idx val) s = .next (errorState .locked s)) ∧
      (s.status.tblOk = false → tab.size ≤ idx.toNat →
        exec (.tblw tid idx val) s = .next (errorState .struct s)) ∧
      (s.status.tblOk = false → idx.toNat < tab.size →
        ∃ t, exec (.tblw tid idx val) s = .next t ∧
          t = { doneState s with tbl := t.tbl, wr := t.wr } ∧
          (∀ u j, tableGet t.tbl u j = if u = tab ∧ j = idx.toNat then some val else tableGet s.tbl u j) ∧
          (∀ u j, tableGet t.wr u j = if u = tab ∧ j = idx.toNat then some true else tableGet s.wr u j)))

/-- TBLC commits exactly when every entry of every table is written and in its range, and otherwise reports CFG;
committing again changes nothing; a reserved bit is ILLEGAL (40 R153). -/
def Obligations.TblcCommitsCompleteTables : Prop :=
  ∀ s : State, s.status.busy = false →
    (s.status.tblOk = true → exec .tblc s = .next (doneState s)) ∧
    (s.status.tblOk = false →
      (∀ t i, i < TableId.size t →
        tableGet s.wr t i = some true ∧ ∃ v, tableGet s.tbl t i = some v ∧ legalEntry t v = true) →
      exec .tblc s = .next { s with status := { s.status with done := true, tblOk := true, err := .noError } }) ∧
    (s.status.tblOk = false →
      (∃ t i, i < TableId.size t ∧
        (tableGet s.wr t i = some false ∨ ∃ v, tableGet s.tbl t i = some v ∧ legalEntry t v = false)) →
      exec .tblc s = .next (errorState .cfg s)) ∧
    (∀ w : Word, w.extractLsb' 0 8 = 0x02#8 → w.extractLsb' 8 24 ≠ 0#24 →
      commandWrite w s = .next (errorState .illegal s))

/-- Once `TBL_OK = 1`, no step but a reset changes a table entry, a `WR` bit or `TBL_OK`, and TBLW raises LOCKED
(40 R154, 10 R40). -/
def Obligations.CommittedTablesAreImmutable : Prop :=
  ∀ s : State, s.status.tblOk = true →
    (∀ t, (∀ d rest, s.events ≠ Event.reset d :: rest) → step s = .next t →
      t.tbl = s.tbl ∧ t.wr = s.wr ∧ t.status.tblOk = true) ∧
    (∀ tid idx val, s.status.busy = false → tid.toNat < 8 →
      exec (.tblw tid idx val) s = .next (errorState .locked s))

/-! ## The cipher core -/

/-- The reduced key keeps DES bits 1 to 7, 9 to 15, … of the key in order (41 R191). -/
def Obligations.ReducedKeyKeepsSevenBitsOfEight : Prop :=
  ∀ (key : Block) (i : Nat), 1 ≤ i → i ≤ 56 → dbit (reduceKey key) i = dbit key (i + (i - 1) / 7)

/-- The rotations are the formulas of 00 R13; a left rotation moves DES bit `i + s` to DES bit `i`; by 0 it is the
identity. -/
def Obligations.RotationsAreThoseOfRule13 : Prop :=
  ∀ (c : BitVec 28) (s : Nat), s ≤ 27 →
    rotl28 c s = ((c <<< s) ||| (c >>> (28 - s))) ∧
    rotr28 c s = ((c >>> s) ||| (c <<< (28 - s))) ∧
    (∀ i, 1 ≤ i → i + s ≤ 28 → dbit (rotl28 c s) i = dbit c (i + s)) ∧
    rotl28 c 0 = c ∧ rotr28 c 0 = c

/-- Lane `i` of the S-box layer is the cell its own six DES bits select, by either reading of the bit weights
(41 R196, R197). -/
def Obligations.SboxLanesSelectTheirCells : Prop :=
  ∀ (order : SboxIndexOrder) (sb : Vector Entry 512) (y : BitVec 48) (i : Nat), 1 ≤ i → i ≤ 8 →
    (sboxLayer order sb y).extractLsb' (32 - 4 * i) 4 =
      (sb.toList.getD
        (64 * (i - 1) + 16 * (rowColumn order fun k => (dbit y (6 * (i - 1) + k)).toNat).1 +
          (rowColumn order fun k => (dbit y (6 * (i - 1) + k)).toNat).2) 0#7).extractLsb' 0 4

/-- The transform is the loop of 41 R202. -/
def Obligations.TransformIsTheLoopOfRule202 : Prop :=
  ∀ (order : SboxIndexOrder) (tb : TableStore Entry) (x key : Block) (dec : Bool),
    transform order tb x key dec = transformLoop order tb x key dec

/-- Key schedule symmetry (41 R205). -/
def Obligations.KeyScheduleIsSymmetric : Prop :=
  ∀ (tb : TableStore Entry) (key : Block), rsMatchesLs tb.ls.toList tb.rs.toList →
    ∀ r, r < 16 → (keySchedule tb key true)[r]? = (keySchedule tb key false)[15 - r]?

/-- The transform undoes itself (41 R204), for either reading of the S-box weights. -/
def Obligations.DecryptingUndoesEncrypting : Prop :=
  ∀ (order : SboxIndexOrder) (tb : TableStore Entry), InvertibleTables tb →
    ∀ x key : Block, transform order tb (transform order tb x key false) key true = x

/-- Keys that differ only in DES bits 8, 16, …, 64 give the same reduced key and the same transform; and where each key
half is all zeros or all ones, all sixteen subkeys are equal and both directions are one function (41 R206). -/
def Obligations.DroppedKeyBitsDoNotMatter : Prop :=
  ∀ (order : SboxIndexOrder) (tb : TableStore Entry) (key key' : Block),
    ((∀ i, 1 ≤ i → i ≤ 64 → i % 8 ≠ 0 → dbit key i = dbit key' i) →
      reduceKey key = reduceKey key' ∧ ∀ x dec, transform order tb x key dec = transform order tb x key' dec) ∧
    ((halfC (reduceKey key) = 0#28 ∨ halfC (reduceKey key) = BitVec.allOnes 28) →
      (halfD (reduceKey key) = 0#28 ∨ halfD (reduceKey key) = BitVec.allOnes 28) →
      (∀ dec r, r < 16 → (keySchedule tb key dec)[r]? = some (permute tb.pc2 (reduceKey key))) ∧
      ∀ x, transform order tb x key true = transform order tb x key false)

/-- Complementation (41 R207), for any legal tables. -/
def Obligations.ComplementedInputsComplementTheOutput : Prop :=
  ∀ (order : SboxIndexOrder) (tb : TableStore Entry), tablesLegal tb →
    ∀ (x key : Block) (dec : Bool), transform order tb (~~~x) (~~~key) dec = ~~~(transform order tb x key dec)

/-- For the left shifts of 40 R157, the right shifts of 40 R158 are the only ones in range that match. -/
def Obligations.DefaultRightShiftsAreTheOnlyMatch : Prop :=
  ∀ rs : List Entry, rs.length = 16 → (∀ v ∈ rs, v.toNat ≤ 27) →
    (rsMatchesLs defaultTables.ls.toList rs ↔ rs.map BitVec.toNat = [0, 1, 2, 2, 2, 2, 2, 2, 1, 2, 2, 2, 2, 2, 2, 1])

/-- DESB: its acceptance latches `DIN`, `DKEY` and the direction, and the next core step writes `DOUT` and completes
(41 R203); without committed tables it reports CFG, and a reserved bit is ILLEGAL. Three points are the model's reading
or choice: the latch is state held in `RUN` (log entry 6), every `IDX[s]` is set to `NBLK` at the acceptance (10 R45, log
entry 26), and the core left alone takes the core step in its next step (log entry 21). -/
def Obligations.DesbTransformsOneBlock : Prop :=
  ∀ (dir : Dir) (s : State), s.status.busy = false →
    (s.status.tblOk = false → exec (.desb dir) s = .next (errorState .cfg s)) ∧
    (s.status.tblOk = true →
      ∃ u, exec (.desb dir) s = .next u ∧
        u = { s with
              idx := { s1 := s.nblk.toNat, s2 := s.nblk.toNat, s3 := s.nblk.toNat }
              run := { op := .desb, mode := s.run.mode,
                       latch := { x := s.din, key := s.dkey, dec := decide (dir = .dec) } }
              status := { busy := true, done := false, tblOk := true, err := .noError } } ∧
        ∀ rest,
          step { u with events := Event.turn .s1 :: rest } =
            .next { s with
              events := rest
              idx := { s1 := s.nblk.toNat, s2 := s.nblk.toNat, s3 := s.nblk.toNat }
              run := { op := .none, mode := s.run.mode,
                       latch := { x := s.din, key := s.dkey, dec := decide (dir = .dec) } }
              dout := transform .msbFirst s.tbl s.din s.dkey (decide (dir = .dec))
              status := { busy := false, done := true, tblOk := true, err := .noError } } ∧
          (s.events = [] → step u = step { u with events := [Event.turn .s1] })) ∧
    (∀ w : Word, w.extractLsb' 0 8 = 0x03#8 → w.extractLsb' 9 23 ≠ 0#23 →
      commandWrite w s = .next (errorState .illegal s))

/-! ## The chaining layer -/

/-- IVGEN fills the three IVs with three draws, needs no tables and completes at once; a reserved bit is ILLEGAL
(42 R245). It holds for every value of the draws. -/
def Obligations.IvgenDrawsThreeIvs : Prop :=
  ∀ s : State, s.status.busy = false →
    exec .ivgen s = .next { doneState s with
      iv1 := Config.ivSource s.draws, iv2 := Config.ivSource (s.draws + 1), iv3 := Config.ivSource (s.draws + 2),
      draws := s.draws + 3 } ∧
    (∀ w : Word, w.extractLsb' 0 8 = 0x04#8 → w.extractLsb' 8 24 ≠ 0#24 →
      commandWrite w s = .next (errorState .illegal s))

/-- PASS with a legal `IVSEL`, committed tables and `NBLK` in range starts one pass on stage 1 with the key and the IV
its word selects, and nothing else changes (42 R244, 30 R115). -/
def Obligations.PassStartsOneChainingPass : Prop :=
  ∀ (dir : Dir) (ksel : KeySel) (ivsel : BitVec 2) (s : State), ReadyToRun Config.params s → ivsel ≠ 0#2 →
    exec (.pass dir ksel ivsel) s = .next { s with
      pp := { s.pp with s1 :=
        { dir := dir
          k := if ksel = .k1 then s.key.extractLsb' 64 64 else s.key.extractLsb' 0 64
          iv := if ivsel = 1#2 then s.iv1 else if ivsel = 2#2 then s.iv2 else s.iv3 } }
      vec := { s.vec with s1 := if ivsel = 1#2 then s.iv1 else if ivsel = 2#2 then s.iv2 else s.iv3 }
      idx := { s1 := 0, s2 := s.nblk.toNat, s3 := s.nblk.toNat }
      run := { s.run with op := .pass, mode := .seq }
      status := { busy := true, done := false, tblOk := true, err := .noError } }

/-- A core step of PASS rewrites exactly the block at `IDX[1]` by its chaining step, hands on the vector, counts one
block, and completes at the last; `SEM` and everything else stay (42 R240, R241, R244). -/
def Obligations.PassStepRewritesOneBlock : Prop :=
  ∀ (s : State) (rest : List Event), Inv Config.params s → s.run.op = .pass →
    ∃ t, step { s with events := Event.turn .s1 :: rest } = .next t ∧
      (s.pp.s1.dir = .enc →
        readBlock t.mem s.idx.s1 =
          transform .msbFirst s.tbl (readBlock s.mem s.idx.s1 ^^^ s.vec.s1) s.pp.s1.k false ∧
        t.vec.s1 = transform .msbFirst s.tbl (readBlock s.mem s.idx.s1 ^^^ s.vec.s1) s.pp.s1.k false) ∧
      (s.pp.s1.dir = .dec →
        readBlock t.mem s.idx.s1 =
          transform .msbFirst s.tbl (readBlock s.mem s.idx.s1) s.pp.s1.k true ^^^ s.vec.s1 ∧
        t.vec.s1 = readBlock s.mem s.idx.s1) ∧
      (∀ a, a < blkAddr s.idx.s1 ∨ blkAddr s.idx.s1 + 8 ≤ a → readByte t.mem a = readByte s.mem a) ∧
      t.idx = { s.idx with s1 := s.idx.s1 + 1 } ∧
      (s.idx.s1 + 1 = s.nblk.toNat →
        t.run.op = .none ∧ t.status = { s.status with busy := false, done := true }) ∧
      (s.idx.s1 + 1 ≠ s.nblk.toNat → t.run.op = .pass ∧ t.status = s.status) ∧
      t = { s with
            events := rest, mem := t.mem, idx := t.idx, vec := { s.vec with s1 := t.vec.s1 },
            run := { s.run with op := t.run.op }, status := t.status }

/-- A PASS, left alone by the host, takes exactly `NBLK` core steps and leaves in the block store the whole pass over
the blocks it started on; the blocks beyond `NBLK` stay (42 R244, 95 V34). That the core left alone takes a core step in
every step is log entry 21 (DESIGN CHOICE). -/
def Obligations.PassRunsOverEveryBlock : Prop :=
  ∀ (dir : Dir) (ksel : KeySel) (ivsel : BitVec 2) (s u : State), Inv Config.params s →
    ReadyToRun Config.params s → ivsel ≠ 0#2 → s.events = [] → exec (.pass dir ksel ivsel) s = .next u →
    ∃ t, runSteps s.nblk.toNat u = .next t ∧ busyBefore s.nblk.toNat u ∧
      t.status = { busy := false, done := true, tblOk := true, err := .noError } ∧
      blocksOf t s.nblk.toNat = passBlocks Config.params s.tbl u.pp.s1 (blocksOf s s.nblk.toNat) ∧
      (∀ j, s.nblk.toNat ≤ j → readBlock t.mem j = readBlock s.mem j)

/-- A decrypting pass undoes an encrypting pass with the same key and IV (42 R246). -/
def Obligations.DecryptingPassUndoesEncryptingPass : Prop :=
  ∀ (P : Params) (tb : TableStore Entry) (k iv : Block) (bs : List Block),
    InvertibleTables tb → P.decVectorInit = .iv →
    passBlocks P tb { dir := .dec, k := k, iv := iv } (passBlocks P tb { dir := .enc, k := k, iv := iv } bs) = bs

/-- Error propagation (42 R247): output `j` of a decrypting pass depends on the inputs `j` and `j - 1` and, for `j = 0`,
the IV, and on nothing else; output `j` of an encrypting pass on no input after `j`. -/
def Obligations.OutputsDependOnFewBlocks : Prop :=
  ∀ (P : Params) (tb : TableStore Entry) (k iv iv' : Block) (bs bs' : List Block) (j : Nat),
    bs.length = bs'.length →
    (P.decVectorInit = .iv → bs[j]? = bs'[j]? → (j = 0 → iv = iv') → (0 < j → bs[j - 1]? = bs'[j - 1]?) →
      (passBlocks P tb { dir := .dec, k := k, iv := iv } bs)[j]? =
        (passBlocks P tb { dir := .dec, k := k, iv := iv' } bs')[j]?) ∧
    (iv = iv' → (∀ m, m ≤ j → bs[m]? = bs'[m]?) →
      (passBlocks P tb { dir := .enc, k := k, iv := iv } bs)[j]? =
        (passBlocks P tb { dir := .enc, k := k, iv := iv' } bs')[j]?)

/-! ## The Triple-DES pipeline -/

/-- EDEE starts all three stages with (ENC, K1, IV1), (DEC, K2, IV2), (ENC, K1, IV3), the triples of its blocks at
(1, 0, 0) and the others as they were, and nothing else changes (43 R282, R286). -/
def Obligations.EdeeStartsThreeStages : Prop :=
  ∀ (mode : Mode) (s : State), ReadyToRun Config.params s → storeWf noSlots s.sem →
    ∃ t, exec (.edee mode) s = .next t ∧
      t = { s with
            pp := { s1 := { dir := .enc, k := s.key.extractLsb' 64 64, iv := s.iv1 }
                    s2 := { dir := .dec, k := s.key.extractLsb' 0 64, iv := s.iv2 }
                    s3 := { dir := .enc, k := s.key.extractLsb' 64 64, iv := s.iv3 } }
            vec := { s1 := s.iv1, s2 := s.iv2, s3 := s.iv3 }
            idx := { s1 := 0, s2 := 0, s3 := 0 }
            sem := t.sem
            run := { s.run with op := .edee, mode := mode }
            status := { busy := true, done := false, tblOk := true, err := .noError } } ∧
      ∀ j, readSlots t.sem j =
        if j < s.nblk.toNat then { s1 := true, s2 := false, s3 := false } else readSlots s.sem j

/-- EDED starts all three stages with (DEC, K1, IV3), (ENC, K2, IV2), (DEC, K1, IV1), and otherwise as EDEE does
(43 R283, R286). -/
def Obligations.EdedStartsThreeStages : Prop :=
  ∀ (mode : Mode) (s : State), ReadyToRun Config.params s → storeWf noSlots s.sem →
    ∃ t, exec (.eded mode) s = .next t ∧
      t = { s with
            pp := { s1 := { dir := .dec, k := s.key.extractLsb' 64 64, iv := s.iv3 }
                    s2 := { dir := .enc, k := s.key.extractLsb' 0 64, iv := s.iv2 }
                    s3 := { dir := .dec, k := s.key.extractLsb' 64 64, iv := s.iv1 } }
            vec := { s1 := s.iv3, s2 := s.iv2, s3 := s.iv1 }
            idx := { s1 := 0, s2 := 0, s3 := 0 }
            sem := t.sem
            run := { s.run with op := .eded, mode := mode }
            status := { busy := true, done := false, tblOk := true, err := .noError } } ∧
      ∀ j, readSlots t.sem j =
        if j < s.nblk.toNat then { s1 := true, s2 := false, s3 := false } else readSlots s.sem j

/-- A stage step (43 R287): it is taken exactly when the stage has a block left, holds that block's slot and, in
sequential mode, the stage before it has finished; it then rewrites that one block by its chaining step, hands the block
to the next slot and counts one block; where that was the last step of the run it completes the run, and it changes
nothing else. That the turn of a stage with no enabled step is a step that changes nothing is log entry 22 (DESIGN
CHOICE). -/
def Obligations.StageStepHandsOneBlockOn : Prop :=
  ∀ (s : State) (st : Stage) (rest : List Event), Inv Config.params s → tripleRuns s →
    ∃ t, step { s with events := Event.turn st :: rest } = .next t ∧
      (¬ (s.idx.get st < s.nblk.toNat ∧ (readSlots s.sem (s.idx.get st)).get st = true ∧
          (s.run.mode = .conc ∨ st = .s1 ∨ (st = .s2 ∧ s.idx.s1 = s.nblk.toNat) ∨
            (st = .s3 ∧ s.idx.s2 = s.nblk.toNat))) →
        t = { s with events := rest }) ∧
      ((s.idx.get st < s.nblk.toNat ∧ (readSlots s.sem (s.idx.get st)).get st = true ∧
          (s.run.mode = .conc ∨ st = .s1 ∨ (st = .s2 ∧ s.idx.s1 = s.nblk.toNat) ∨
            (st = .s3 ∧ s.idx.s2 = s.nblk.toNat))) →
        ((s.pp.get st).dir = .enc →
          readBlock t.mem (s.idx.get st) =
            transform .msbFirst s.tbl (readBlock s.mem (s.idx.get st) ^^^ s.vec.get st) (s.pp.get st).k false ∧
          t.vec.get st =
            transform .msbFirst s.tbl (readBlock s.mem (s.idx.get st) ^^^ s.vec.get st) (s.pp.get st).k false) ∧
        ((s.pp.get st).dir = .dec →
          readBlock t.mem (s.idx.get st) =
            transform .msbFirst s.tbl (readBlock s.mem (s.idx.get st)) (s.pp.get st).k true ^^^ s.vec.get st ∧
          t.vec.get st = readBlock s.mem (s.idx.get st)) ∧
        (∀ a, a < blkAddr (s.idx.get st) ∨ blkAddr (s.idx.get st) + 8 ≤ a → readByte t.mem a = readByte s.mem a) ∧
        (∀ j, readSlots t.sem j =
          if j = s.idx.get st then ((readSlots s.sem j).set st false).set (nextSlot st) true
          else readSlots s.sem j) ∧
        t.idx.get st = s.idx.get st + 1 ∧
        (∀ st', st' ≠ st → t.idx.get st' = s.idx.get st' ∧ t.vec.get st' = s.vec.get st') ∧
        (t.idx = { s1 := s.nblk.toNat, s2 := s.nblk.toNat, s3 := s.nblk.toNat } →
          t.run.op = .none ∧ t.status = { s.status with busy := false, done := true }) ∧
        (t.idx ≠ { s1 := s.nblk.toNat, s2 := s.nblk.toNat, s3 := s.nblk.toNat } →
          t.run.op = s.run.op ∧ t.status = s.status) ∧
        t = { s with
              events := rest, mem := t.mem, sem := t.sem, idx := t.idx, vec := t.vec,
              run := { s.run with op := t.run.op }, status := t.status })

/-- In sequential mode a stage above the first is enabled only when the stage before it has finished, and exactly one
stage is enabled at any time (43 R288). -/
def Obligations.SequentialModeEnablesOneStage : Prop :=
  ∀ s : State, Inv Config.params s → tripleRuns s → s.run.mode = .seq →
    (∃ st, enabled s st = true ∧ ∀ st', enabled s st' = true → st' = st) ∧
    (enabled s .s2 = true → s.idx.s1 = s.nblk.toNat) ∧ (enabled s .s3 = true → s.idx.s2 = s.nblk.toNat)

/-- No deadlock (43 R293): while a Triple-DES run is in progress a stage step is enabled; and the core left alone takes one
in its next step (log entry 21, DESIGN CHOICE), which adds one to the sum of the indices (43 R294). -/
def Obligations.TripleRunNeverDeadlocks : Prop :=
  ∀ s : State, Inv Config.params s → tripleRuns s →
    (∃ st, enabled s st = true) ∧
    (s.events = [] → ∃ t, step s = .next t ∧ t.idx.s1 + t.idx.s2 + t.idx.s3 = s.idx.s1 + s.idx.s2 + s.idx.s3 + 1)

/-- Of each block of a run exactly one slot is available at every point, and after completion it is slot 1
(43 R295, 10 R43). -/
def Obligations.OneSlotAvailableThenSlotOne : Prop :=
  ∀ s : State, Inv Config.params s → tripleRuns s →
    (∀ j, j < s.nblk.toNat → exactlyOneSlot (readSlots s.sem j) = true) ∧
    (∀ t, step s = .next t → (∀ d rest, s.events ≠ Event.reset d :: rest) → t.run.op = .none →
      ∀ j, j < s.nblk.toNat → readSlots t.sem j = { s1 := true, s2 := false, s3 := false })

/-- Completion is stage 3's step on the last block, after both other stages have finished; it clears `BUSY`, sets
`DONE` and changes no other state: `SEM`, `VEC` and `IDX` are what the stage step leaves, `KEY` and the IVs stay
(43 R290). -/
def Obligations.CompletionIsTheLastStepOfStageThree : Prop :=
  ∀ (s : State) (st : Stage), Inv Config.params s → tripleRuns s → enabled s st = true →
    ((coreStep Config.params st s).run.op = .none ↔
      st = .s3 ∧ s.idx.s3 + 1 = s.nblk.toNat ∧ s.idx.s1 = s.nblk.toNat ∧ s.idx.s2 = s.nblk.toNat) ∧
    ((coreStep Config.params st s).run.op = .none →
      (coreStep Config.params st s).status = { s.status with busy := false, done := true }) ∧
    ((coreStep Config.params st s).run.op ≠ .none → (coreStep Config.params st s).status = s.status) ∧
    (coreStep Config.params st s).idx = s.idx.set st (s.idx.get st + 1) ∧
    (coreStep Config.params st s).sem =
      writeSlot (writeSlot s.sem (s.idx.get st) st false) (s.idx.get st) (nextSlot st) true ∧
    (coreStep Config.params st s).vec = s.vec.set st
      (chainStep Config.params s.tbl (s.pp.get st) (s.vec.get st) (readBlock s.mem (s.idx.get st))
        (s.idx.get st)).vector ∧
    (coreStep Config.params st s).key = s.key ∧ (coreStep Config.params st s).iv1 = s.iv1 ∧
    (coreStep Config.params st s).iv2 = s.iv2 ∧ (coreStep Config.params st s).iv3 = s.iv3

/-- An accepted EDEE or EDED starts on the blocks of the block store (43 R286, 20 R86). -/
def Obligations.AcceptedRunStartsOnTheBlocks : Prop :=
  ∀ (i : Instr) (mode : Mode) (s t : State), Inv Config.params s → ReadyToRun Config.params s →
    i = .edee mode ∨ i = .eded mode → exec i s = .next t →
    RunOver Config.params (blocksOf s s.nblk.toNat) t

/-- Every step of a run but a reset, whichever agent takes it and in whichever mode, keeps every block and every vector
what the three passes over the starting blocks make of them so far (20 R86, 43 R287, R291). -/
def Obligations.EveryStepKeepsTheRunOnItsPasses : Prop :=
  ∀ (bs : List Block) (s t : State), Inv Config.params s → tripleRuns s → RunOver Config.params bs s →
    (∀ d rest, s.events ≠ Event.reset d :: rest) → step s = .next t → RunOver Config.params bs t

/-- Under every schedule of the stages and every host access that does not reset the core, in either mode, an EDEE or
EDED that has completed has left the three passes over its starting blocks in the block store (43 R292). -/
def Obligations.TripleRunResultIsScheduleFree : Prop :=
  ∀ (i : Instr) (mode : Mode) (s u t : State) (k : Nat), Inv Config.params s → ReadyToRun Config.params s →
    i = .edee mode ∨ i = .eded mode → exec i s = .next u → (∀ e ∈ u.events, e.noReset = true) →
    busyBefore k u → runSteps k u = .next t → t.status.busy = false →
    blocksOf t s.nblk.toNat =
      triplePass Config.params s.tbl (if i = .edee mode then edeePasses s else ededPasses s)
        (blocksOf s s.nblk.toNat) ∧
    (∀ j, s.nblk.toNat ≤ j → readBlock t.mem j = readBlock s.mem j)

/-- Termination (43 R294): an EDEE or EDED that the host leaves alone takes exactly `3·NBLK` stage steps, whichever
stage the arbiter picks, and then completes. That the core left alone takes a stage step in every step is log entry 21,
and that the arbiter picks among the enabled stages is log entry 4 (DESIGN CHOICE both). -/
def Obligations.TripleRunTakesThreeStepsPerBlock : Prop :=
  ∀ (i : Instr) (mode : Mode) (s u : State), Inv Config.params s → ReadyToRun Config.params s →
    i = .edee mode ∨ i = .eded mode → s.events = [] → exec i s = .next u →
    ∃ t, runSteps (3 * s.nblk.toNat) u = .next t ∧ busyBefore (3 * s.nblk.toNat) u ∧
      t.status = { busy := false, done := true, tblOk := true, err := .noError } ∧
      t.idx = { s1 := s.nblk.toNat, s2 := s.nblk.toNat, s3 := s.nblk.toNat }

/-- Round trip (43 R296): an EDED after an EDEE, with the same `KEY`, IVs and `NBLK`, each in either mode and under any
schedule, restores the blocks. -/
def Obligations.EdedAfterEdeeRestoresTheBlocks : Prop :=
  ∀ (m m' : Mode) (s u t v w : State) (k k' : Nat), Inv Config.params s → ReadyToRun Config.params s →
    InvertibleTables s.tbl →
    exec (.edee m) s = .next u → (∀ e ∈ u.events, e.noReset = true) →
    busyBefore k u → runSteps k u = .next t → t.status.busy = false →
    exec (.eded m') t = .next v → busyBefore k' v → runSteps k' v = .next w → w.status.busy = false →
    blocksOf w s.nblk.toNat = blocksOf s s.nblk.toNat

/-- Degenerate keys (43 R298): with K1 = K2 and IV1 = IV2, EDEE yields the blocks of `PASS ENC, K1, IV3`. -/
def Obligations.EqualKeysMakeOnePass : Prop :=
  ∀ (P : Params) (s : State) (bs : List Block), InvertibleTables s.tbl → P.decVectorInit = .iv →
    leftKey s.key = rightKey s.key → s.iv1 = s.iv2 →
    triplePass P s.tbl (edeePasses s) bs =
      passBlocks P s.tbl { dir := .enc, k := leftKey s.key, iv := s.iv3 } bs

/-- A running command changes none of the registers it reads, none of the tables, and `STATUS` only by completing
(20 R82, R89). So the register `NBLK` is the `NBLK` of the run throughout it (log entry 27). -/
def Obligations.RunningCommandKeepsItsOperands : Prop :=
  ∀ s t : State, Inv Config.params s → s.status.busy = true → (∀ d rest, s.events ≠ Event.reset d :: rest) →
    step s = .next t →
    t.nblk = s.nblk ∧ t.key = s.key ∧ t.iv1 = s.iv1 ∧ t.iv2 = s.iv2 ∧ t.iv3 = s.iv3 ∧ t.din = s.din ∧
    t.dkey = s.dkey ∧ t.tbl = s.tbl ∧ t.wr = s.wr ∧ t.pp = s.pp ∧
    (t.status.busy = true → t.status = s.status) ∧
    (t.status.busy = false → t.status = { s.status with busy := false, done := true })

/-! ## The host window -/

/-- `STATUS` (10 R31): the place of every field, the code of every error in bits [7:4] (60 R332), and 0 in every reserved
bit. -/
def Obligations.StatusWordHasItsFields : Prop :=
  ∀ f : Status,
    f.toWord.getLsbD 0 = f.busy ∧ f.toWord.getLsbD 1 = f.done ∧ f.toWord.getLsbD 2 = f.tblOk ∧
    f.toWord.getLsbD 3 = false ∧ f.toWord.extractLsb' 8 24 = 0#24 ∧
    (f.err = .noError → f.toWord.extractLsb' 4 4 = 0#4) ∧ (f.err = .cfg → f.toWord.extractLsb' 4 4 = 1#4) ∧
    (f.err = .struct → f.toWord.extractLsb' 4 4 = 2#4) ∧ (f.err = .illegal → f.toWord.extractLsb' 4 4 = 3#4) ∧
    (f.err = .locked → f.toWord.extractLsb' 4 4 = 4#4)

/-- A read returns the word the register map puts at its offset: the named registers by their bit ranges, `BLK_HI[j]`
and `BLK_LO[j]` at `0x80000 + 8j` and 4 above (20 R72, R73), with no command running. -/
def Obligations.ReadsReturnTheRegisterMap : Prop :=
  ∀ (s : State) (rest : List Event), s.run.op = .none →
    (∀ p ∈ windowValues s,
      step { s with events := Event.read p.1 4 :: rest } = .next { s with events := rest, rdata := p.2 }) ∧
    (∀ j, j < Config.nblkMax →
      step { s with events := Event.read (0x80000 + 8 * j) 4 :: rest } =
        .next { s with events := rest, rdata := (readBlock s.mem j).extractLsb' 32 32 } ∧
      step { s with events := Event.read (0x80000 + 8 * j + 4) 4 :: rest } =
        .next { s with events := rest, rdata := (readBlock s.mem j).extractLsb' 0 32 })

/-- A write with no command running changes exactly the bits the register map gives its offset: all 32 of a read-write
register, 16 of `NBLK`, none of a read-only one; and one word of one block (20 R79). -/
def Obligations.WritesChangeExactlyTheirWord : Prop :=
  ∀ (s : State) (v : Word) (rest : List Event), s.status.busy = false →
    (∀ p ∈ windowWrites { s with events := rest } v,
      step { s with events := Event.write p.1 4 v :: rest } = .next p.2) ∧
    (Memory.wf s.mem → ∀ j, j < Config.nblkMax →
      ∃ t u, step { s with events := Event.write (0x80000 + 8 * j) 4 v :: rest } = .next t ∧
        step { s with events := Event.write (0x80000 + 8 * j + 4) 4 v :: rest } = .next u ∧
        readBlock t.mem j = v ++ (readBlock s.mem j).extractLsb' 0 32 ∧
        readBlock u.mem j = (readBlock s.mem j).extractLsb' 32 32 ++ v ∧
        (∀ a, a < 0x80000 + 8 * j ∨ 0x80000 + 8 * j + 4 ≤ a → readByte t.mem a = readByte s.mem a) ∧
        (∀ a, a < 0x80000 + 8 * j + 4 ∨ 0x80000 + 8 * j + 8 ≤ a → readByte u.mem a = readByte s.mem a) ∧
        t = { s with events := rest, mem := t.mem } ∧ u = { s with events := rest, mem := u.mem })

/-- A reserved offset reads 0 in every state and ignores every write; so do the high bits of `NBLK` (20 R74). -/
def Obligations.ReservedOffsetsReadZeroAndIgnoreWrites : Prop :=
  ∀ (s : State) (rest : List Event) (v : Word),
    (∀ off, reservedOffset off →
      step { s with events := Event.read off 4 :: rest } = .next { s with events := rest, rdata := 0#32 } ∧
      step { s with events := Event.write off 4 v :: rest } = .next { s with events := rest }) ∧
    step { s with events := Event.read 0x08 4 :: rest } =
      .next { s with events := rest, rdata := 0#16 ++ s.nblk } ∧
    (s.status.busy = false →
      step { s with events := Event.write 0x08 4 v :: rest } =
        step { s with events := Event.write 0x08 4 (0#16 ++ v.extractLsb' 0 16) :: rest })

/-- A read changes nothing of the core: only what the model keeps about reads; and with no command running the same read
again returns the same word (20 R82, R83). -/
def Obligations.ReadsHaveNoSideEffect : Prop :=
  ∀ (s t : State) (off size : Nat) (rest : List Event), s.events = Event.read off size :: rest → step s = .next t →
    t = { s with events := rest, rdata := t.rdata, draws := t.draws } ∧
    (s.run.op = .none → t.draws = s.draws ∧
      ∀ u, step { t with events := Event.read off size :: rest } = .next u → u.rdata = t.rdata)

/-- While PASS, EDEE or EDED runs a read of the block store returns a draw, and while DESB runs a read of `DOUT` does;
every other read returns the register's current value: of a named word, and of the block store while none of those three
runs (20 R82; a reserved offset reads 0 by `ReservedOffsetsReadZeroAndIgnoreWrites`). -/
def Obligations.BusyReadsOfResultsAreDraws : Prop :=
  ∀ (s : State) (rest : List Event),
    (s.run.op = .pass ∨ tripleRuns s → ∀ off, 0x80000 ≤ off → off < 0x80000 + 8 * Config.nblkMax → off % 4 = 0 →
      step { s with events := Event.read off 4 :: rest } =
        .next { s with events := rest, rdata := Config.busyRead s.draws, draws := s.draws + 1 }) ∧
    (s.run.op = .desb → ∀ off, off = 0x50 ∨ off = 0x54 →
      step { s with events := Event.read off 4 :: rest } =
        .next { s with events := rest, rdata := Config.busyRead s.draws, draws := s.draws + 1 }) ∧
    (∀ p ∈ windowValues s, (s.run.op = .desb → p.1 ≠ 0x50 ∧ p.1 ≠ 0x54) →
      step { s with events := Event.read p.1 4 :: rest } = .next { s with events := rest, rdata := p.2 }) ∧
    (¬ (s.run.op = .pass ∨ tripleRuns s) → ∀ j, j < Config.nblkMax →
      step { s with events := Event.read (0x80000 + 8 * j) 4 :: rest } =
        .next { s with events := rest, rdata := (readBlock s.mem j).extractLsb' 32 32 } ∧
      step { s with events := Event.read (0x80000 + 8 * j + 4) 4 :: rest } =
        .next { s with events := rest, rdata := (readBlock s.mem j).extractLsb' 0 32 })

/-- An access that is not an aligned 32-bit access has no step: the model refuses it (20 R75). -/
def Obligations.UndefinedAccessesHaveNoStep : Prop :=
  ∀ (s : State) (off size : Nat) (v : Word) (rest : List Event), off < windowSize → size ≠ 4 ∨ off % 4 ≠ 0 →
    step { s with events := Event.write off size v :: rest } = .refused .undefinedAccess ∧
    step { s with events := Event.read off size :: rest } = .refused .undefinedAccess

/-- Every event the spec defines has a step, and so has the core left alone: no command, no operand and no state stops
the machine. That the turn of a stage with no enabled step is a step (log entry 22), that an idle core left alone steps
without effect (log entry 21) and that a poll is an event (log entry 15) are the model's choices. -/
def Obligations.DefinedEventsAlwaysStep : Prop :=
  ∀ s : State, (∀ e rest, s.events = e :: rest → e.isDefined = true) → ∃ t, step s = .next t

/-! ## Reset and the invariant -/

/-- Reset, at any time and whatever is running, leaves every register 10 R49 gives a value at that value and every other
one at what was drawn (70 R370, R371). It holds for every draw. -/
def Obligations.ResetSetsEveryControlRegister : Prop :=
  ∀ (s : State) (d : ResetDraw) (rest : List Event),
    ∃ t, step { s with events := Event.reset d :: rest } = .next t ∧
      t.status = { busy := false, done := false, tblOk := false, err := .noError } ∧ t.nblk = 0#16 ∧
      (∀ tab i, i < TableId.size tab → tableGet t.wr tab i = some false) ∧
      t.run.op = .none ∧ t.run.mode = .seq ∧ t.idx = { s1 := 0, s2 := 0, s3 := 0 } ∧
      (∀ j, readSlots t.sem j = { s1 := false, s2 := false, s3 := false }) ∧
      t.tbl = d.tbl ∧ t.key = d.key ∧ t.iv1 = d.iv1 ∧ t.iv2 = d.iv2 ∧ t.iv3 = d.iv3 ∧ t.din = d.din ∧
      t.dkey = d.dkey ∧ t.dout = d.dout ∧ t.vec = d.vec ∧ t.pp = d.pp ∧ t.events = rest ∧
      (∀ j, j < Config.nblkMax → readBlock t.mem j = d.blk.getD j 0#64)

/-- The invariant holds in the state after reset. -/
def Obligations.InvariantHoldsAfterReset : Prop :=
  Inv Config.params State.reset

/-- Every step keeps the invariant: canonical stores, blocks inside their window, `STATUS` and `RUN` in agreement
(10 R31, R44), committed tables complete and legal, one owner of each block (10 R43), every index of a run in its range
and every unused stage's index at `NBLK` (10 R45; during DESB all three, log entry 26). -/
def Obligations.EveryStepKeepsTheInvariant : Prop :=
  ∀ s t : State, Inv Config.params s → step s = .next t → Inv Config.params t

/-! ## Host framing -/

/-- Framing and reassembly (70 R380, R381): `ceil(n / 8)` blocks, byte `8j + k` of the buffer in block `j` with byte `8j`
in its top bits, zero padding on the right, and the original bytes back. -/
def Obligations.ReassemblyUndoesFraming : Prop :=
  ∀ m : List Byte,
    (frame m).length = (m.length + 7) / 8 ∧ reassemble m.length (frame m) = m ∧
    (∀ j k, j < (frame m).length → k < 8 →
      ((frame m).getD j 0#64).extractLsb' (56 - 8 * k) 8 = m.getD (8 * j + k) 0#8)
end

