-- ==== Sys2Proof/Laws/Bits.lean ====
section
/-! SUPPORT. The laws of the bit primitives: the DES bits of a selected value, and of the bitwise operations. -/

namespace Sys2Proof.Machine

theorem natOfBits_append (bs : List Bool) (b : Bool) : natOfBits (bs ++ [b]) = 2 * natOfBits bs + b.toNat := by
  simp [natOfBits, List.foldl_append]

/-- Bit `k` of the number is the `k`-th digit from the end. -/
theorem testBit_natOfBits (bs : List Bool) (k : Nat) (hk : k < bs.length) :
    (natOfBits bs).testBit k = bs[bs.length - 1 - k] := by
  induction bs using List.reverseRecOn generalizing k with
  | nil => simp at hk
  | append_singleton bs b ih =>
    simp only [List.length_append, List.length_singleton] at hk
    rw [natOfBits_append]
    cases k with
    | zero => cases b <;> simp [Nat.testBit_zero, Nat.add_mod]
    | succ k =>
      have hk' : k < bs.length := by omega
      have hdiv : (2 * natOfBits bs + b.toNat) / 2 = natOfBits bs := by cases b <;> (simp; try omega)
      rw [Nat.testBit_succ, hdiv, ih k hk', List.getElem_append_left (by simp; omega)]
      congr 1
      simp only [List.length_append, List.length_singleton]
      omega

/-- Two values whose DES bits agree are equal. -/
theorem eq_of_dbit {n : Nat} {v w : BitVec n} (h : ∀ i, 1 ≤ i → i ≤ n → dbit v i = dbit w i) : v = w := by
  apply BitVec.eq_of_getMsbD_eq
  intro i hi
  have := h (i + 1) (by omega) (by omega)
  simpa [dbit] using this

/-- DES bit `i` of a selection is the DES bit the list names. -/
theorem dbit_selectBits {n m : Nat} (ps : List Nat) (v : BitVec n) (hlen : ps.length = m) (i : Nat) (h1 : 1 ≤ i)
    (hm : i ≤ m) : dbit (selectBits m ps v) i = dbit v (ps.getD (i - 1) 0) := by
  have hi : i - 1 < ps.length := by omega
  have hk : m - 1 - (i - 1) < (ps.map (dbit v)).length := by simp; omega
  rw [dbit, selectBits, BitVec.getMsbD, BitVec.getLsbD_ofNat, testBit_natOfBits _ _ hk]
  have hidx : (ps.map (dbit v)).length - 1 - (m - 1 - (i - 1)) = i - 1 := by simp; omega
  simp only [hidx, List.getElem_map, List.getD_eq_getElem?_getD, List.getElem?_eq_getElem hi, Option.getD_some]
  simp only [show i - 1 < m by omega, decide_true, Bool.true_and, show m - 1 - (i - 1) < m by omega]

/-- DES bit `i` of a permuted value (00 R12). -/
theorem dbit_permute {n m : Nat} (T : Vector Entry m) (v : BitVec n) (i : Nat) (h1 : 1 ≤ i) (hm : i ≤ m) :
    dbit (permute T v) i = dbit v (T.toList.getD (i - 1) 0#7).toNat := by
  rw [permute, dbit_selectBits _ _ (by simp) i h1 hm]
  congr 1
  have : i - 1 < T.toList.length := by simp; omega
  simp [List.getD_eq_getElem?_getD, List.getElem?_map, List.getElem?_eq_getElem this]

theorem dbit_xor {n : Nat} (v w : BitVec n) (i : Nat) : dbit (v ^^^ w) i = (dbit v i ^^ dbit w i) := by
  simp [dbit]

theorem dbit_not {n : Nat} (v : BitVec n) (i : Nat) (h1 : 1 ≤ i) (hn : i ≤ n) : dbit (~~~v) i = !dbit v i := by
  simp only [dbit, BitVec.getMsbD_not, show i - 1 < n by omega, decide_true, Bool.true_and]

/-- The high part of a concatenation. -/
theorem extract_append_high {n m : Nat} (v : BitVec n) (w : BitVec m) : (v ++ w).extractLsb' m n = v := by
  apply BitVec.eq_of_getLsbD_eq
  intro i hi
  simp [BitVec.getLsbD_append, hi]

/-- The low part of a concatenation. -/
theorem extract_append_low {n m : Nat} (v : BitVec n) (w : BitVec m) : (v ++ w).extractLsb' 0 m = w := by
  apply BitVec.eq_of_getLsbD_eq
  intro i hi
  simp [BitVec.getLsbD_append, hi]

@[simp] theorem leftKey_setLeftKey (k : BitVec 128) (v : Block) : leftKey (setLeftKey k v) = v :=
  extract_append_high v (rightKey k)

@[simp] theorem rightKey_setLeftKey (k : BitVec 128) (v : Block) : rightKey (setLeftKey k v) = rightKey k :=
  extract_append_low v (rightKey k)

@[simp] theorem leftKey_setRightKey (k : BitVec 128) (v : Block) : leftKey (setRightKey k v) = leftKey k :=
  extract_append_high (leftKey k) v

@[simp] theorem rightKey_setRightKey (k : BitVec 128) (v : Block) : rightKey (setRightKey k v) = v :=
  extract_append_low (leftKey k) v

@[simp] theorem hiWord_setHiWord (v : Block) (w : Word) : hiWord (setHiWord v w) = w :=
  extract_append_high w (loWord v)

@[simp] theorem loWord_setHiWord (v : Block) (w : Word) : loWord (setHiWord v w) = loWord v :=
  extract_append_low w (loWord v)

@[simp] theorem hiWord_setLoWord (v : Block) (w : Word) : hiWord (setLoWord v w) = hiWord v :=
  extract_append_high (hiWord v) w

@[simp] theorem loWord_setLoWord (v : Block) (w : Word) : loWord (setLoWord v w) = w :=
  extract_append_low (hiWord v) w

end Sys2Proof.Machine
end

