-- ==== Sys2Proof/Laws/Cipher.lean ====
section
/-! SUPPORT. Rotations bit by bit, the subkeys as rotations by a sum of counts, and one Feistel round undone. -/

namespace Sys2Proof.Machine

/-! ## Rotations (00 R13) -/

theorem getLsbD_rotl28 (c : BitVec 28) (n i : Nat) (h : i < 28) :
    (rotl28 c n).getLsbD i = c.getLsbD ((i + 28 - n % 28) % 28) := by
  rw [rotl28, BitVec.getLsbD_rotateLeft, Bool.cond_eq_ite]
  simp only [decide_eq_true_eq]
  split
  · congr 1; omega
  · simp only [h, decide_true, Bool.true_and]; congr 1; omega

theorem getLsbD_rotr28 (c : BitVec 28) (n i : Nat) (h : i < 28) :
    (rotr28 c n).getLsbD i = c.getLsbD ((i + n) % 28) := by
  rw [rotr28, BitVec.getLsbD_rotateRight, Bool.cond_eq_ite]
  simp only [decide_eq_true_eq]
  split
  · congr 1; omega
  · simp only [h, decide_true, Bool.true_and]; congr 1; omega

theorem rotl28_rotl28 (c : BitVec 28) (n m : Nat) : rotl28 (rotl28 c n) m = rotl28 c (n + m) := by
  apply BitVec.eq_of_getLsbD_eq
  intro i hi
  rw [getLsbD_rotl28 _ _ _ hi, getLsbD_rotl28 _ _ _ (Nat.mod_lt _ (by decide)), getLsbD_rotl28 _ _ _ hi]
  congr 1; omega

theorem rotr28_rotr28 (c : BitVec 28) (n m : Nat) : rotr28 (rotr28 c n) m = rotr28 c (n + m) := by
  apply BitVec.eq_of_getLsbD_eq
  intro i hi
  rw [getLsbD_rotr28 _ _ _ hi, getLsbD_rotr28 _ _ _ (Nat.mod_lt _ (by decide)), getLsbD_rotr28 _ _ _ hi]
  congr 1; omega

/-- A left rotation is the right rotation by what is missing to a multiple of 28. -/
theorem rotl28_eq_rotr28 (c : BitVec 28) (n m : Nat) (h : (n + m) % 28 = 0) : rotl28 c n = rotr28 c m := by
  apply BitVec.eq_of_getLsbD_eq
  intro i hi
  rw [getLsbD_rotl28 _ _ _ hi, getLsbD_rotr28 _ _ _ hi]
  congr 1; omega

/-! ## Subkeys (41 R193 to R195) -/

theorem subkeysFrom_length (pc2 : Vector Entry 48) (dec : Bool) (ns : List Entry) (c d : BitVec 28) :
    (subkeysFrom pc2 dec ns c d).length = ns.length := by
  induction ns generalizing c d with
  | nil => rfl
  | cons n ns ih => simp only [subkeysFrom, List.length_cons, ih]

@[simp] theorem keySchedule_length (tb : TableStore Entry) (key : Block) (dec : Bool) :
    (keySchedule tb key dec).length = 16 := by
  rw [keySchedule, subkeysFrom_length]
  cases dec <;> simp [shiftSchedule]

/-- A key half rotated by `n` places in a direction. -/
def rotated (dec : Bool) (c : BitVec 28) (n : Nat) : BitVec 28 := if dec then rotr28 c n else rotl28 c n

theorem rotated_rotated (dec : Bool) (c : BitVec 28) (n m : Nat) :
    rotated dec (rotated dec c n) m = rotated dec c (n + m) := by
  cases dec
  · exact rotl28_rotl28 c n m
  · exact rotr28_rotr28 c n m

/-- Subkey `r` contracts the halves rotated by the first `r + 1` counts together (41 R193, R195). -/
theorem subkeysFrom_getElem? (pc2 : Vector Entry 48) (dec : Bool) (ns : List Entry) (c d : BitVec 28) (r : Nat)
    (h : r < ns.length) :
    (subkeysFrom pc2 dec ns c d)[r]? =
      some (permute pc2 (rotated dec c ((ns.take (r + 1)).map BitVec.toNat).sum ++
        rotated dec d ((ns.take (r + 1)).map BitVec.toNat).sum : BitVec 56)) := by
  induction ns generalizing c d r with
  | nil => exact absurd h (Nat.not_lt_zero _)
  | cons n ns ih =>
    have e : ∀ x : BitVec 28, rotateHalf dec x n = rotated dec x n.toNat := fun _ => rfl
    cases r with
    | zero => simp [subkeysFrom, e]
    | succ r =>
      simp only [subkeysFrom, List.getElem?_cons_succ]
      rw [ih _ _ _ (Nat.lt_of_succ_lt_succ h), e, e, rotated_rotated, rotated_rotated]
      simp

/-! ## Rounds (41 R200) -/

/-- The halves exchanged. -/
def Halves.swap (h : Halves) : Halves := { l := h.r, r := h.l }

/-- A round, run again with the same subkey on the exchanged halves, undoes itself. -/
theorem feistelRound_undo (order : SboxIndexOrder) (tb : TableStore Entry) (h : Halves) (k : BitVec 48) :
    feistelRound order tb (feistelRound order tb h k).swap k = h.swap := by
  simp [feistelRound, Halves.swap]

end Sys2Proof.Machine
end

