-- ==== Sys2Proof/Laws/State.lean ====
section
/-! SUPPORT. What every shared operation does to every field of the state, one lemma for each field, true by rfl. -/

namespace Sys2Proof.Machine

/-! ## accepted -/

@[simp] theorem accepted_status (s : State) : s.accepted.status = s.status.accepted := rfl
@[simp] theorem accepted_nblk (s : State) : s.accepted.nblk = s.nblk := rfl
@[simp] theorem accepted_key (s : State) : s.accepted.key = s.key := rfl
@[simp] theorem accepted_iv1 (s : State) : s.accepted.iv1 = s.iv1 := rfl
@[simp] theorem accepted_iv2 (s : State) : s.accepted.iv2 = s.iv2 := rfl
@[simp] theorem accepted_iv3 (s : State) : s.accepted.iv3 = s.iv3 := rfl
@[simp] theorem accepted_din (s : State) : s.accepted.din = s.din := rfl
@[simp] theorem accepted_dkey (s : State) : s.accepted.dkey = s.dkey := rfl
@[simp] theorem accepted_dout (s : State) : s.accepted.dout = s.dout := rfl
@[simp] theorem accepted_tbl (s : State) : s.accepted.tbl = s.tbl := rfl
@[simp] theorem accepted_wr (s : State) : s.accepted.wr = s.wr := rfl
@[simp] theorem accepted_mem (s : State) : s.accepted.mem = s.mem := rfl
@[simp] theorem accepted_sem (s : State) : s.accepted.sem = s.sem := rfl
@[simp] theorem accepted_run (s : State) : s.accepted.run = s.run := rfl
@[simp] theorem accepted_idx (s : State) : s.accepted.idx = s.idx := rfl
@[simp] theorem accepted_vec (s : State) : s.accepted.vec = s.vec := rfl
@[simp] theorem accepted_pp (s : State) : s.accepted.pp = s.pp := rfl
@[simp] theorem accepted_events (s : State) : s.accepted.events = s.events := rfl
@[simp] theorem accepted_rdata (s : State) : s.accepted.rdata = s.rdata := rfl
@[simp] theorem accepted_draws (s : State) : s.accepted.draws = s.draws := rfl

/-! ## raiseError -/

@[simp] theorem raiseError_status (c : ErrCode) (s : State) : (raiseError c s).status = s.status.failed c := rfl
@[simp] theorem raiseError_nblk (c : ErrCode) (s : State) : (raiseError c s).nblk = s.nblk := rfl
@[simp] theorem raiseError_key (c : ErrCode) (s : State) : (raiseError c s).key = s.key := rfl
@[simp] theorem raiseError_iv1 (c : ErrCode) (s : State) : (raiseError c s).iv1 = s.iv1 := rfl
@[simp] theorem raiseError_iv2 (c : ErrCode) (s : State) : (raiseError c s).iv2 = s.iv2 := rfl
@[simp] theorem raiseError_iv3 (c : ErrCode) (s : State) : (raiseError c s).iv3 = s.iv3 := rfl
@[simp] theorem raiseError_din (c : ErrCode) (s : State) : (raiseError c s).din = s.din := rfl
@[simp] theorem raiseError_dkey (c : ErrCode) (s : State) : (raiseError c s).dkey = s.dkey := rfl
@[simp] theorem raiseError_dout (c : ErrCode) (s : State) : (raiseError c s).dout = s.dout := rfl
@[simp] theorem raiseError_tbl (c : ErrCode) (s : State) : (raiseError c s).tbl = s.tbl := rfl
@[simp] theorem raiseError_wr (c : ErrCode) (s : State) : (raiseError c s).wr = s.wr := rfl
@[simp] theorem raiseError_mem (c : ErrCode) (s : State) : (raiseError c s).mem = s.mem := rfl
@[simp] theorem raiseError_sem (c : ErrCode) (s : State) : (raiseError c s).sem = s.sem := rfl
@[simp] theorem raiseError_run (c : ErrCode) (s : State) : (raiseError c s).run = s.run := rfl
@[simp] theorem raiseError_idx (c : ErrCode) (s : State) : (raiseError c s).idx = s.idx := rfl
@[simp] theorem raiseError_vec (c : ErrCode) (s : State) : (raiseError c s).vec = s.vec := rfl
@[simp] theorem raiseError_pp (c : ErrCode) (s : State) : (raiseError c s).pp = s.pp := rfl
@[simp] theorem raiseError_events (c : ErrCode) (s : State) : (raiseError c s).events = s.events := rfl
@[simp] theorem raiseError_rdata (c : ErrCode) (s : State) : (raiseError c s).rdata = s.rdata := rfl
@[simp] theorem raiseError_draws (c : ErrCode) (s : State) : (raiseError c s).draws = s.draws := rfl

/-! ## finish -/

@[simp] theorem finish_status (s : State) : (finish s).status = s.status.finished := rfl
@[simp] theorem finish_nblk (s : State) : (finish s).nblk = s.nblk := rfl
@[simp] theorem finish_key (s : State) : (finish s).key = s.key := rfl
@[simp] theorem finish_iv1 (s : State) : (finish s).iv1 = s.iv1 := rfl
@[simp] theorem finish_iv2 (s : State) : (finish s).iv2 = s.iv2 := rfl
@[simp] theorem finish_iv3 (s : State) : (finish s).iv3 = s.iv3 := rfl
@[simp] theorem finish_din (s : State) : (finish s).din = s.din := rfl
@[simp] theorem finish_dkey (s : State) : (finish s).dkey = s.dkey := rfl
@[simp] theorem finish_dout (s : State) : (finish s).dout = s.dout := rfl
@[simp] theorem finish_tbl (s : State) : (finish s).tbl = s.tbl := rfl
@[simp] theorem finish_wr (s : State) : (finish s).wr = s.wr := rfl
@[simp] theorem finish_mem (s : State) : (finish s).mem = s.mem := rfl
@[simp] theorem finish_sem (s : State) : (finish s).sem = s.sem := rfl
@[simp] theorem finish_run (s : State) : (finish s).run = s.run := rfl
@[simp] theorem finish_idx (s : State) : (finish s).idx = s.idx := rfl
@[simp] theorem finish_vec (s : State) : (finish s).vec = s.vec := rfl
@[simp] theorem finish_pp (s : State) : (finish s).pp = s.pp := rfl
@[simp] theorem finish_events (s : State) : (finish s).events = s.events := rfl
@[simp] theorem finish_rdata (s : State) : (finish s).rdata = s.rdata := rfl
@[simp] theorem finish_draws (s : State) : (finish s).draws = s.draws := rfl

/-! ## complete -/

@[simp] theorem complete_status (s : State) : (complete s).status = s.status.completed := rfl
@[simp] theorem complete_nblk (s : State) : (complete s).nblk = s.nblk := rfl
@[simp] theorem complete_key (s : State) : (complete s).key = s.key := rfl
@[simp] theorem complete_iv1 (s : State) : (complete s).iv1 = s.iv1 := rfl
@[simp] theorem complete_iv2 (s : State) : (complete s).iv2 = s.iv2 := rfl
@[simp] theorem complete_iv3 (s : State) : (complete s).iv3 = s.iv3 := rfl
@[simp] theorem complete_din (s : State) : (complete s).din = s.din := rfl
@[simp] theorem complete_dkey (s : State) : (complete s).dkey = s.dkey := rfl
@[simp] theorem complete_dout (s : State) : (complete s).dout = s.dout := rfl
@[simp] theorem complete_tbl (s : State) : (complete s).tbl = s.tbl := rfl
@[simp] theorem complete_wr (s : State) : (complete s).wr = s.wr := rfl
@[simp] theorem complete_mem (s : State) : (complete s).mem = s.mem := rfl
@[simp] theorem complete_sem (s : State) : (complete s).sem = s.sem := rfl
@[simp] theorem complete_run (s : State) : (complete s).run = { s.run with op := .none } := rfl
@[simp] theorem complete_idx (s : State) : (complete s).idx = s.idx := rfl
@[simp] theorem complete_vec (s : State) : (complete s).vec = s.vec := rfl
@[simp] theorem complete_pp (s : State) : (complete s).pp = s.pp := rfl
@[simp] theorem complete_events (s : State) : (complete s).events = s.events := rfl
@[simp] theorem complete_rdata (s : State) : (complete s).rdata = s.rdata := rfl
@[simp] theorem complete_draws (s : State) : (complete s).draws = s.draws := rfl

/-! ## desbStep -/

@[simp] theorem desbStep_status (P : Params) (s : State) : (desbStep P s).status = s.status.completed := rfl
@[simp] theorem desbStep_nblk (P : Params) (s : State) : (desbStep P s).nblk = s.nblk := rfl
@[simp] theorem desbStep_key (P : Params) (s : State) : (desbStep P s).key = s.key := rfl
@[simp] theorem desbStep_iv1 (P : Params) (s : State) : (desbStep P s).iv1 = s.iv1 := rfl
@[simp] theorem desbStep_iv2 (P : Params) (s : State) : (desbStep P s).iv2 = s.iv2 := rfl
@[simp] theorem desbStep_iv3 (P : Params) (s : State) : (desbStep P s).iv3 = s.iv3 := rfl
@[simp] theorem desbStep_din (P : Params) (s : State) : (desbStep P s).din = s.din := rfl
@[simp] theorem desbStep_dkey (P : Params) (s : State) : (desbStep P s).dkey = s.dkey := rfl
@[simp] theorem desbStep_dout (P : Params) (s : State) : (desbStep P s).dout = transform P.sboxOrder s.tbl s.run.latch.x s.run.latch.key s.run.latch.dec := rfl
@[simp] theorem desbStep_tbl (P : Params) (s : State) : (desbStep P s).tbl = s.tbl := rfl
@[simp] theorem desbStep_wr (P : Params) (s : State) : (desbStep P s).wr = s.wr := rfl
@[simp] theorem desbStep_mem (P : Params) (s : State) : (desbStep P s).mem = s.mem := rfl
@[simp] theorem desbStep_sem (P : Params) (s : State) : (desbStep P s).sem = s.sem := rfl
@[simp] theorem desbStep_run (P : Params) (s : State) : (desbStep P s).run = { s.run with op := .none } := rfl
@[simp] theorem desbStep_idx (P : Params) (s : State) : (desbStep P s).idx = s.idx := rfl
@[simp] theorem desbStep_vec (P : Params) (s : State) : (desbStep P s).vec = s.vec := rfl
@[simp] theorem desbStep_pp (P : Params) (s : State) : (desbStep P s).pp = s.pp := rfl
@[simp] theorem desbStep_events (P : Params) (s : State) : (desbStep P s).events = s.events := rfl
@[simp] theorem desbStep_rdata (P : Params) (s : State) : (desbStep P s).rdata = s.rdata := rfl
@[simp] theorem desbStep_draws (P : Params) (s : State) : (desbStep P s).draws = s.draws := rfl

/-! ## The fields of STATUS -/

@[simp] theorem status_accepted_busy (f : Status) : f.accepted.busy = f.busy := rfl
@[simp] theorem status_accepted_done (f : Status) : f.accepted.done = false := rfl
@[simp] theorem status_accepted_tblOk (f : Status) : f.accepted.tblOk = f.tblOk := rfl
@[simp] theorem status_accepted_err (f : Status) : f.accepted.err = .noError := rfl
@[simp] theorem status_finished_busy (f : Status) : f.finished.busy = f.busy := rfl
@[simp] theorem status_finished_done (f : Status) : f.finished.done = true := rfl
@[simp] theorem status_finished_tblOk (f : Status) : f.finished.tblOk = f.tblOk := rfl
@[simp] theorem status_finished_err (f : Status) : f.finished.err = f.err := rfl
@[simp] theorem status_started_busy (f : Status) : f.started.busy = true := rfl
@[simp] theorem status_started_done (f : Status) : f.started.done = f.done := rfl
@[simp] theorem status_started_tblOk (f : Status) : f.started.tblOk = f.tblOk := rfl
@[simp] theorem status_started_err (f : Status) : f.started.err = f.err := rfl
@[simp] theorem status_completed_busy (f : Status) : f.completed.busy = false := rfl
@[simp] theorem status_completed_done (f : Status) : f.completed.done = true := rfl
@[simp] theorem status_completed_tblOk (f : Status) : f.completed.tblOk = f.tblOk := rfl
@[simp] theorem status_completed_err (f : Status) : f.completed.err = f.err := rfl
@[simp] theorem status_committed_busy (f : Status) : f.committed.busy = f.busy := rfl
@[simp] theorem status_committed_done (f : Status) : f.committed.done = true := rfl
@[simp] theorem status_committed_tblOk (f : Status) : f.committed.tblOk = true := rfl
@[simp] theorem status_committed_err (f : Status) : f.committed.err = f.err := rfl
@[simp] theorem status_failed_busy (c : ErrCode) (f : Status) : (f.failed c).busy = f.busy := rfl
@[simp] theorem status_failed_done (c : ErrCode) (f : Status) : (f.failed c).done = f.done := rfl
@[simp] theorem status_failed_tblOk (c : ErrCode) (f : Status) : (f.failed c).tblOk = f.tblOk := rfl
@[simp] theorem status_failed_err (c : ErrCode) (f : Status) : (f.failed c).err = c := rfl

/-! ## The values of the stages -/

@[simp] theorem perStage_get_set_same {α : Type} (p : PerStage α) (st : Stage) (v : α) : (p.set st v).get st = v := by
  cases st <;> rfl

theorem perStage_get_set_of_ne {α : Type} (p : PerStage α) {st st' : Stage} (v : α) (h : st ≠ st') :
    (p.set st v).get st' = p.get st' := by
  cases st <;> cases st' <;> first | rfl | exact absurd rfl h

/-- `STATUS.BUSY` as the host reads it (10 R31). -/
theorem toWord_busy (f : Status) : f.toWord.getLsbD 0 = f.busy := by
  obtain ⟨b, d, o, e⟩ := f
  cases b <;> cases d <;> cases o <;> cases e <;> rfl

end Sys2Proof.Machine
end

