-- ==== Sys2Proof/Laws/Tables.lean ====
section
/-! SUPPORT. The laws of the table store: read after write, and what the commit check says entry by entry. -/

namespace Sys2Proof.Machine

variable {α : Type}

theorem tableGet_eq_tableList (T : TableStore α) (t : TableId) (i : Nat) : tableGet T t i = (tableList T t)[i]? := by
  cases t <;> simp [tableGet, tableList]

@[simp] theorem tableList_length (T : TableStore α) (t : TableId) : (tableList T t).length = t.size := by
  cases t <;> simp [tableList, TableId.size]

theorem tableGet_isSome (T : TableStore α) (t : TableId) (i : Nat) : (tableGet T t i).isSome = decide (i < t.size) := by
  rw [tableGet_eq_tableList]
  by_cases h : i < t.size
  · simp [h]
  · simp [h]

/-- Read after write, at every entry of every table. -/
theorem tableGet_tableSet (T : TableStore α) (t : TableId) (i : Nat) (v : α) (u : TableId) (j : Nat) :
    tableGet (tableSet T t i v) u j = if t = u ∧ i = j ∧ i < t.size then some v else tableGet T u j := by
  cases t <;> cases u <;>
    simp only [tableGet, tableSet, TableId.size, reduceCtorEq, false_and, if_false, true_and,
      Vector.getElem?_setIfInBounds]
  all_goals
    by_cases hij : i = j
    · subst hij; simp only [true_and, if_true]; split <;> simp_all
    · simp [hij]

theorem tableReady_iff (tbl : TableStore Entry) (wr : TableStore Bool) (t : TableId) :
    tableReady tbl wr t = true ↔
      ∀ i, i < t.size → tableGet wr t i = some true ∧ ∃ v, tableGet tbl t i = some v ∧ legalEntry t v = true := by
  simp only [tableReady, List.all_eq_true, tableGet_eq_tableList]
  constructor
  · intro h i hi
    have h1 : i < (tableList tbl t).length := by simpa using hi
    have h2 : i < (tableList wr t).length := by simpa using hi
    have hz : i < ((tableList tbl t).zip (tableList wr t)).length := by simp; omega
    have := h _ (List.getElem_mem hz)
    simp only [List.getElem_zip, Bool.and_eq_true] at this
    exact ⟨by rw [List.getElem?_eq_getElem h2, this.1], _, List.getElem?_eq_getElem h1, this.2⟩
  · intro h e he
    obtain ⟨i, hi, rfl⟩ := List.getElem_of_mem he
    have hi' : i < t.size := by simpa using hi
    obtain ⟨hw, v, hv, hl⟩ := h i hi'
    have h1 : i < (tableList tbl t).length := by simpa using hi'
    have h2 : i < (tableList wr t).length := by simpa using hi'
    rw [List.getElem?_eq_getElem h2, Option.some.injEq] at hw
    rw [List.getElem?_eq_getElem h1, Option.some.injEq] at hv
    simp only [List.getElem_zip, hw, hv, hl, Bool.and_self]

theorem mem_allTables (t : TableId) : t ∈ allTables := by cases t <;> decide

/-- The commit check (40 R153), entry by entry. -/
theorem tablesReady_iff (tbl : TableStore Entry) (wr : TableStore Bool) :
    tablesReady tbl wr = true ↔
      ∀ t i, i < t.size → tableGet wr t i = some true ∧ ∃ v, tableGet tbl t i = some v ∧ legalEntry t v = true := by
  simp only [tablesReady, List.all_eq_true, tableReady_iff]
  exact ⟨fun h t => h t (mem_allTables t), fun h t _ => h t⟩

/-- Committed tables are legal. -/
theorem legal_of_tablesReady {tbl : TableStore Entry} {wr : TableStore Bool} (h : tablesReady tbl wr = true)
    (t : TableId) : ∀ v ∈ tableList tbl t, legalEntry t v = true := by
  intro v hv
  obtain ⟨i, hi, rfl⟩ := List.getElem_of_mem hv
  obtain ⟨-, w, hw, hl⟩ := (tablesReady_iff tbl wr).mp h t i (by simpa using hi)
  rw [tableGet_eq_tableList, List.getElem?_eq_getElem hi, Option.some.injEq] at hw
  rw [hw, hl]

end Sys2Proof.Machine
end

