-- ==== Sys2Proof/Laws/Exec.lean ====
section
/-! SUPPORT. What a command can do, said once: every command is its body run after acceptance, and a body either
raises one error or takes the effect of its rule. -/

namespace Sys2Proof.Machine

/-- The rule of a command, run on an accepted state. -/
def commandBody : Instr → State → State
  | .tblw tid idx val => tblwBody tid idx val
  | .tblc => tblcBody
  | .desb dir => desbBody dir
  | .ivgen => ivgenBody
  | .pass dir ksel ivsel => passBody Config.params dir ksel ivsel
  | .edee mode => fun t => tripleBody Config.params .edee mode (edeePasses t) t
  | .eded mode => fun t => tripleBody Config.params .eded mode (ededPasses t) t

theorem exec_eq_issue (i : Instr) (s : State) : exec i s = issue (commandBody i) s := by
  cases i <;> rfl

theorem issue_of_busy {cmd : State → State} {s : State} (h : s.status.busy = true) : issue cmd s = .next s := by
  simp [issue, h]

theorem issue_of_idle {cmd : State → State} {s : State} (h : s.status.busy = false) :
    issue cmd s = .next (cmd s.accepted) := by
  simp [issue, h]

/-- A command word always takes a step: it is ignored, or its rule runs. -/
theorem exec_cases (i : Instr) (s : State) :
    (s.status.busy = true ∧ exec i s = .next s) ∨
    (s.status.busy = false ∧ exec i s = .next (commandBody i s.accepted)) := by
  rw [exec_eq_issue]
  cases h : s.status.busy
  · exact .inr ⟨rfl, issue_of_idle h⟩
  · exact .inl ⟨rfl, issue_of_busy h⟩

/-- TBLW raises one of its three errors or writes the entry (40 R152). -/
theorem tblwBody_cases (tid : BitVec 4) (idx : BitVec 9) (val : Entry) (s : State) :
    (tableOfTid tid = none ∧ tblwBody tid idx val s = raiseError .illegal s) ∨
    (∃ t, tableOfTid tid = some t ∧
      ((s.status.tblOk = true ∧ tblwBody tid idx val s = raiseError .locked s) ∨
       (s.status.tblOk = false ∧ t.size ≤ idx.toNat ∧ tblwBody tid idx val s = raiseError .struct s) ∨
       (s.status.tblOk = false ∧ idx.toNat < t.size ∧ tblwBody tid idx val s =
          finish { s with tbl := tableSet s.tbl t idx.toNat val, wr := tableSet s.wr t idx.toNat true }))) := by
  unfold tblwBody
  cases ht : tableOfTid tid with
  | none => exact .inl ⟨rfl, rfl⟩
  | some t =>
    refine .inr ⟨t, rfl, ?_⟩
    cases ho : s.status.tblOk
    · by_cases hi : t.size ≤ idx.toNat
      · exact .inr (.inl ⟨rfl, hi, by simp [hi]⟩)
      · exact .inr (.inr ⟨rfl, by omega, by simp [hi]⟩)
    · exact .inl ⟨rfl, by simp⟩

/-- TBLC commits again, commits, or raises CFG (40 R153). -/
theorem tblcBody_cases (s : State) :
    (s.status.tblOk = true ∧ tblcBody s = finish s) ∨
    (s.status.tblOk = false ∧ tablesReady s.tbl s.wr = true ∧ tblcBody s = { s with status := s.status.committed }) ∨
    (s.status.tblOk = false ∧ tablesReady s.tbl s.wr = false ∧ tblcBody s = raiseError .cfg s) := by
  unfold tblcBody
  cases ho : s.status.tblOk
  · cases hr : tablesReady s.tbl s.wr
    · exact .inr (.inr ⟨rfl, rfl, by simp⟩)
    · exact .inr (.inl ⟨rfl, rfl, by simp⟩)
  · exact .inl ⟨rfl, by simp⟩

/-- DESB raises CFG or latches its operands and runs (41 R203). -/
theorem desbBody_cases (dir : Dir) (s : State) :
    (s.status.tblOk = false ∧ desbBody dir s = raiseError .cfg s) ∨
    (s.status.tblOk = true ∧ desbBody dir s =
      { s with
        idx := { s1 := s.nblk.toNat, s2 := s.nblk.toNat, s3 := s.nblk.toNat }
        run := { s.run with op := .desb, latch := { x := s.din, key := s.dkey, dec := decide (dir = .dec) } }
        status := s.status.started }) := by
  unfold desbBody
  cases ho : s.status.tblOk
  · exact .inl ⟨rfl, by simp⟩
  · exact .inr ⟨rfl, by simp⟩

theorem nblkRefused_eq_false {P : Params} {n : BitVec 16} :
    nblkRefused P n = false ↔ 1 ≤ n.toNat ∧ n.toNat ≤ P.nblkMax := by
  simp only [nblkRefused, decide_eq_false_iff_not]
  omega

/-- PASS raises one of its three errors or starts (42 R244). -/
theorem passBody_cases (P : Params) (dir : Dir) (ksel : KeySel) (ivsel : BitVec 2) (s : State) :
    (ivOf s ivsel = none ∧ passBody P dir ksel ivsel s = raiseError .illegal s) ∨
    (∃ iv, ivOf s ivsel = some iv ∧
      ((s.status.tblOk = false ∧ passBody P dir ksel ivsel s = raiseError .cfg s) ∨
       (s.status.tblOk = true ∧ nblkRefused P s.nblk = true ∧ passBody P dir ksel ivsel s = raiseError .struct s) ∨
       (s.status.tblOk = true ∧ nblkRefused P s.nblk = false ∧ passBody P dir ksel ivsel s =
          { s with
            pp := { s.pp with s1 := { dir := dir, k := keyOf s ksel, iv := iv } }
            vec := { s.vec with s1 := iv }
            idx := { s1 := 0, s2 := s.nblk.toNat, s3 := s.nblk.toNat }
            run := { s.run with op := .pass, mode := .seq }
            status := s.status.started }))) := by
  unfold passBody
  cases hv : ivOf s ivsel with
  | none => exact .inl ⟨rfl, rfl⟩
  | some iv =>
    refine .inr ⟨iv, rfl, ?_⟩
    cases ho : s.status.tblOk
    · exact .inl ⟨rfl, by simp⟩
    · cases hn : nblkRefused P s.nblk
      · exact .inr (.inr ⟨rfl, rfl, by simp⟩)
      · exact .inr (.inl ⟨rfl, rfl, by simp⟩)

/-- EDEE and EDED raise one of their two errors or start (43 R286). -/
theorem tripleBody_cases (P : Params) (op : RunOp) (mode : Mode) (pp : PerStage PassParams) (s : State) :
    (s.status.tblOk = false ∧ tripleBody P op mode pp s = raiseError .cfg s) ∨
    (s.status.tblOk = true ∧ nblkRefused P s.nblk = true ∧ tripleBody P op mode pp s = raiseError .struct s) ∨
    (s.status.tblOk = true ∧ nblkRefused P s.nblk = false ∧ tripleBody P op mode pp s =
      { s with
        pp := pp
        vec := { s1 := pp.s1.iv, s2 := pp.s2.iv, s3 := pp.s3.iv }
        idx := { s1 := 0, s2 := 0, s3 := 0 }
        sem := freshSem s.sem s.nblk.toNat
        run := { s.run with op := op, mode := mode }
        status := s.status.started }) := by
  unfold tripleBody
  cases ho : s.status.tblOk
  · exact .inl ⟨rfl, by simp⟩
  · cases hn : nblkRefused P s.nblk
    · exact .inr (.inr ⟨rfl, rfl, by simp⟩)
    · exact .inr (.inl ⟨rfl, rfl, by simp⟩)

end Sys2Proof.Machine
end

