-- ==== Sys2Proof/Laws/Store.lean ====
section
/-! SUPPORT. The laws of sparse stores in canonical form: read after write, the canonical form is kept, and equal
readings are equal data. -/

namespace Sys2Proof.Machine

variable {β : Type}

@[simp] theorem storeGet_nil (d : β) (a : Nat) : storeGet d [] a = d := rfl

theorem storeWf_nil (d : β) : storeWf d ([] : List (Nat × β)) :=
  ⟨List.Pairwise.nil, fun _ h => absurd h List.not_mem_nil⟩

theorem storeWf_tail {d : β} {c : Nat × β} {m : List (Nat × β)} (h : storeWf d (c :: m)) : storeWf d m :=
  ⟨(List.pairwise_cons.mp h.1).2, fun x hx => h.2 x (List.mem_cons_of_mem _ hx)⟩

/-- A key below every listed key reads as unlisted. -/
theorem storeGet_of_lt {d : β} {m : List (Nat × β)} {a : Nat} (h : ∀ c ∈ m, a < c.1) : storeGet d m a = d := by
  induction m with
  | nil => rfl
  | cons c m ih =>
    have hc : a < c.1 := h c (List.mem_cons_self ..)
    simp only [storeGet, if_neg (Nat.ne_of_gt hc)]
    exact ih fun x hx => h x (List.mem_cons_of_mem _ hx)

/-- Two canonical stores that read alike are equal. -/
theorem store_ext {d : β} {m n : List (Nat × β)} (hm : storeWf d m) (hn : storeWf d n)
    (h : ∀ a, storeGet d m a = storeGet d n a) : m = n := by
  induction m generalizing n with
  | nil =>
    cases n with
    | nil => rfl
    | cons c n =>
      have := h c.1
      simp only [storeGet, if_true] at this
      exact absurd this.symm (hn.2 c (List.mem_cons_self ..))
  | cons c m ih =>
    cases n with
    | nil =>
      have := h c.1
      simp only [storeGet, if_true] at this
      exact absurd this (hm.2 c (List.mem_cons_self ..))
    | cons e n =>
      have hcm := List.pairwise_cons.mp hm.1
      have hen := List.pairwise_cons.mp hn.1
      obtain ⟨k, v⟩ := c
      obtain ⟨k', v'⟩ := e
      have hk : k = k' := by
        rcases Nat.lt_trichotomy k k' with hlt | heq | hlt
        · have := h k
          rw [storeGet_of_lt (m := (k', v') :: n)] at this
          · simp only [storeGet, if_true] at this
            exact absurd this (hm.2 (k, v) (List.mem_cons_self ..))
          · intro x hx
            rcases List.mem_cons.mp hx with rfl | hx'
            · exact hlt
            · exact Nat.lt_trans hlt (hen.1 x hx')
        · exact heq
        · have := h k'
          rw [storeGet_of_lt (m := (k, v) :: m)] at this
          · simp only [storeGet, if_true] at this
            exact absurd this.symm (hn.2 (k', v') (List.mem_cons_self ..))
          · intro x hx
            rcases List.mem_cons.mp hx with rfl | hx'
            · exact hlt
            · exact Nat.lt_trans hlt (hcm.1 x hx')
      subst hk
      have hv := h k
      simp only [storeGet, if_true] at hv
      subst hv
      congr 1
      refine ih (storeWf_tail hm) (storeWf_tail hn) fun a => ?_
      by_cases ha : k = a
      · subst ha
        rw [storeGet_of_lt fun x hx => hcm.1 x hx, storeGet_of_lt fun x hx => hen.1 x hx]
      · have := h a
        simpa only [storeGet, if_neg ha] using this

variable [DecidableEq β]

theorem mem_storeSet {d : β} {m : List (Nat × β)} {a : Nat} {v : β} {c : Nat × β} (h : c ∈ storeSet d m a v) :
    (c = (a, v) ∧ v ≠ d) ∨ c ∈ m := by
  induction m with
  | nil => simp only [storeSet] at h; split at h <;> simp_all
  | cons x m ih =>
    simp only [storeSet] at h
    split at h
    · split at h
      · exact .inr h
      · rcases List.mem_cons.mp h with rfl | h'
        · exact .inl ⟨rfl, ‹_›⟩
        · exact .inr h'
    · split at h
      · split at h
        · exact .inr (List.mem_cons_of_mem _ h)
        · rcases List.mem_cons.mp h with rfl | h'
          · exact .inl ⟨rfl, ‹_›⟩
          · exact .inr (List.mem_cons_of_mem _ h')
      · rcases List.mem_cons.mp h with rfl | h'
        · exact .inr (List.mem_cons_self ..)
        · rcases ih h' with h1 | h1
          · exact .inl h1
          · exact .inr (List.mem_cons_of_mem _ h1)

/-- Every write keeps the canonical form. -/
theorem storeSet_wf {d : β} {m : List (Nat × β)} (a : Nat) (v : β) (h : storeWf d m) : storeWf d (storeSet d m a v) := by
  refine ⟨?_, fun c hc => ?_⟩
  · induction m with
    | nil => simp only [storeSet]; split <;> simp
    | cons x m ih =>
      have hx := List.pairwise_cons.mp h.1
      simp only [storeSet]
      split
      · rename_i hlt
        split
        · exact h.1
        · refine List.pairwise_cons.mpr ⟨fun c hc => ?_, h.1⟩
          rcases List.mem_cons.mp hc with rfl | hc'
          · exact hlt
          · exact Nat.lt_trans hlt (hx.1 c hc')
      · split
        · rename_i heq
          split
          · exact hx.2
          · exact List.pairwise_cons.mpr ⟨fun c hc => heq ▸ hx.1 c hc, hx.2⟩
        · rename_i hnlt hne
          refine List.pairwise_cons.mpr ⟨fun c hc => ?_, ih (storeWf_tail h)⟩
          rcases mem_storeSet hc with ⟨rfl, -⟩ | hc'
          · show x.1 < a; omega
          · exact hx.1 c hc'
  · rcases mem_storeSet hc with ⟨rfl, hv⟩ | hc'
    · exact hv
    · exact h.2 c hc'

/-- Read after write. -/
theorem storeGet_storeSet {d : β} {m : List (Nat × β)} (h : storeWf d m) (a : Nat) (v : β) (b : Nat) :
    storeGet d (storeSet d m a v) b = if a = b then v else storeGet d m b := by
  induction m with
  | nil =>
    simp only [storeSet]
    split
    · simp_all
    · simp [storeGet]
  | cons x m ih =>
    have hx := List.pairwise_cons.mp h.1
    have ih := ih (storeWf_tail h)
    obtain ⟨k, w⟩ := x
    simp only [storeSet]
    split
    · rename_i hlt
      split
      · rename_i hv
        subst hv
        by_cases hab : a = b
        · subst hab
          rw [if_pos rfl]
          refine storeGet_of_lt fun c hc => ?_
          rcases List.mem_cons.mp hc with rfl | hc'
          · exact hlt
          · exact Nat.lt_trans hlt (hx.1 c hc')
        · rw [if_neg hab]
      · simp [storeGet]
    · split
      · rename_i heq
        subst heq
        split
        · rename_i hv
          subst hv
          by_cases hab : a = b
          · subst hab
            rw [if_pos rfl]
            exact storeGet_of_lt fun c hc => hx.1 c hc
          · rw [if_neg hab]; simp only [storeGet, if_neg hab]
        · simp only [storeGet]
          by_cases hab : a = b <;> simp [hab]
      · rename_i hnlt hne
        simp only [storeGet, ih]
        by_cases hkb : k = b
        · subst hkb; simp [hne]
        · simp [hkb]

end Sys2Proof.Machine
end

