-- ==== Sys2Proof/Laws/Memory.lean ====
section
/-! SUPPORT. The laws of the block store: every operation keeps its canonical form, a byte, a word or a block reads as
last written, and a write leaves every other place alone. -/

namespace Sys2Proof.Machine

/-! ## Bytes -/

theorem writeByte_wf {m : Memory} (a : Nat) (b : Byte) (h : Memory.wf m) : Memory.wf (writeByte m a b) :=
  storeSet_wf a b h

theorem readByte_writeByte {m : Memory} (h : Memory.wf m) (a : Nat) (b : Byte) (x : Nat) :
    readByte (writeByte m a b) x = if a = x then b else readByte m x :=
  storeGet_storeSet h a b x

theorem mem_writeByte {m : Memory} {a : Nat} {b : Byte} {c : Host.Cell} (h : c ∈ writeByte m a b) :
    c.1 = a ∨ c ∈ m :=
  (mem_storeSet h).imp (fun h' => by rw [h'.1]) id

/-- Two canonical memories whose every byte reads alike are equal. -/
theorem memory_ext {m n : Memory} (hm : Memory.wf m) (hn : Memory.wf n)
    (h : ∀ a, readByte m a = readByte n a) : m = n :=
  store_ext hm hn h

/-! ## Words -/

theorem writeWord_wf {m : Memory} (a : Nat) (v : Word) (h : Memory.wf m) : Memory.wf (writeWord m a v) :=
  writeByte_wf _ _ (writeByte_wf _ _ (writeByte_wf _ _ (writeByte_wf _ _ h)))

theorem mem_writeWord {m : Memory} {a : Nat} {v : Word} {c : Host.Cell} (h : c ∈ writeWord m a v) :
    (a ≤ c.1 ∧ c.1 < a + 4) ∨ c ∈ m := by
  rcases mem_writeByte h with h | h
  · exact .inl ⟨by omega, by omega⟩
  rcases mem_writeByte h with h | h
  · exact .inl ⟨by omega, by omega⟩
  rcases mem_writeByte h with h | h
  · exact .inl ⟨by omega, by omega⟩
  rcases mem_writeByte h with h | h
  · exact .inl ⟨by omega, by omega⟩
  · exact .inr h

/-- A word write leaves every byte outside its four alone. -/
theorem readByte_writeWord_of_ne {m : Memory} (h : Memory.wf m) (a : Nat) (v : Word) {x : Nat}
    (hx : x < a ∨ a + 4 ≤ x) : readByte (writeWord m a v) x = readByte m x := by
  have h1 := writeByte_wf a (v.extractLsb' 24 8) h
  have h2 := writeByte_wf (a + 1) (v.extractLsb' 16 8) h1
  have h3 := writeByte_wf (a + 2) (v.extractLsb' 8 8) h2
  rw [writeWord, readByte_writeByte h3, if_neg (by omega), readByte_writeByte h2, if_neg (by omega),
    readByte_writeByte h1, if_neg (by omega), readByte_writeByte h, if_neg (by omega)]

/-- The four bytes of a word, put together again. -/
theorem word_of_bytes (v : Word) :
    v.extractLsb' 24 8 ++ v.extractLsb' 16 8 ++ v.extractLsb' 8 8 ++ v.extractLsb' 0 8 = v := by
  apply BitVec.eq_of_getLsbD_eq
  intro i hi
  simp only [BitVec.getLsbD_append, BitVec.getLsbD_extractLsb']
  by_cases h0 : i < 8
  · simp [h0]
  by_cases h1 : i < 16
  · simp [h0, show i - 8 < 8 by omega, show 8 + (i - 8) = i by omega]
  by_cases h2 : i < 24
  · simp [h0, show ¬ i - 8 < 8 by omega,
      show i - 8 - 8 < 8 by omega, show 16 + (i - 8 - 8) = i by omega]
  · simp [h0, show ¬ i - 8 < 8 by omega, show ¬ i - 8 - 8 < 8 by omega, show i - 8 - 8 - 8 < 8 by omega,
      show 24 + (i - 8 - 8 - 8) = i by omega]

theorem readWord_writeWord_same {m : Memory} (h : Memory.wf m) (a : Nat) (v : Word) :
    readWord (writeWord m a v) a = v := by
  have h1 := writeByte_wf a (v.extractLsb' 24 8) h
  have h2 := writeByte_wf (a + 1) (v.extractLsb' 16 8) h1
  have h3 := writeByte_wf (a + 2) (v.extractLsb' 8 8) h2
  simp only [readWord, writeWord, readByte_writeByte h3, readByte_writeByte h2, readByte_writeByte h1,
    readByte_writeByte h]
  simpa using word_of_bytes v

theorem readWord_writeWord_of_ne {m : Memory} (h : Memory.wf m) (a : Nat) (v : Word) {x : Nat}
    (hx : x + 4 ≤ a ∨ a + 4 ≤ x) : readWord (writeWord m a v) x = readWord m x := by
  simp only [readWord]
  rw [readByte_writeWord_of_ne h a v (by omega), readByte_writeWord_of_ne h a v (by omega),
    readByte_writeWord_of_ne h a v (by omega), readByte_writeWord_of_ne h a v (by omega)]

/-! ## Blocks -/

theorem writeBlock_wf {m : Memory} (j : Nat) (v : Block) (h : Memory.wf m) : Memory.wf (writeBlock m j v) :=
  writeWord_wf _ _ (writeWord_wf _ _ h)

theorem mem_writeBlock {m : Memory} {j : Nat} {v : Block} {c : Host.Cell} (h : c ∈ writeBlock m j v) :
    (blkAddr j ≤ c.1 ∧ c.1 < blkAddr (j + 1)) ∨ c ∈ m := by
  simp only [blkAddr]
  rcases mem_writeWord h with h | h
  · simp only [blkAddr] at h; exact .inl ⟨by omega, by omega⟩
  rcases mem_writeWord h with h | h
  · simp only [blkAddr] at h; exact .inl ⟨by omega, by omega⟩
  · exact .inr h

/-- A block write leaves every byte outside its eight alone. -/
theorem readByte_writeBlock_of_ne {m : Memory} (h : Memory.wf m) (j : Nat) (v : Block) {x : Nat}
    (hx : x < blkAddr j ∨ blkAddr j + 8 ≤ x) : readByte (writeBlock m j v) x = readByte m x := by
  rw [writeBlock, readByte_writeWord_of_ne (writeWord_wf _ _ h) _ _ (by omega),
    readByte_writeWord_of_ne h _ _ (by omega)]

/-- The two words of a block, put together again. -/
@[simp] theorem block_of_words (v : Block) : (hiWord v ++ loWord v : BitVec 64) = v := by
  apply BitVec.eq_of_getLsbD_eq
  intro i hi
  simp only [hiWord, loWord, BitVec.getLsbD_append, BitVec.getLsbD_extractLsb']
  by_cases h : i < 32
  · simp [h]
  · simp [h, show 32 + (i - 32) = i by omega, show i - 32 < 32 by omega]

theorem readBlock_writeBlock_same {m : Memory} (h : Memory.wf m) (j : Nat) (v : Block) :
    readBlock (writeBlock m j v) j = v := by
  rw [readBlock, writeBlock, readWord_writeWord_of_ne (writeWord_wf _ _ h) _ _ (by omega),
    readWord_writeWord_same h, readWord_writeWord_same (writeWord_wf _ _ h)]
  exact block_of_words v

theorem readBlock_writeBlock_of_ne {m : Memory} (h : Memory.wf m) {j k : Nat} (v : Block) (hjk : j ≠ k) :
    readBlock (writeBlock m j v) k = readBlock m k := by
  simp only [readBlock, writeBlock, blkAddr]
  rw [readWord_writeWord_of_ne (writeWord_wf _ _ h) _ _ (by omega), readWord_writeWord_of_ne h _ _ (by omega),
    readWord_writeWord_of_ne (writeWord_wf _ _ h) _ _ (by omega), readWord_writeWord_of_ne h _ _ (by omega)]

theorem readBlock_writeBlock {m : Memory} (h : Memory.wf m) (j : Nat) (v : Block) (k : Nat) :
    readBlock (writeBlock m j v) k = if j = k then v else readBlock m k := by
  by_cases hjk : j = k
  · rw [if_pos hjk, ← hjk, readBlock_writeBlock_same h]
  · rw [if_neg hjk, readBlock_writeBlock_of_ne h v hjk]

theorem writeBlocks_wf {m : Memory} (j : Nat) (bs : List Block) (h : Memory.wf m) :
    Memory.wf (writeBlocks m j bs) := by
  induction bs generalizing m j with
  | nil => exact h
  | cons b bs ih => exact ih (j + 1) (writeBlock_wf j b h)

theorem mem_writeBlocks {m : Memory} {j : Nat} {bs : List Block} {c : Host.Cell} (h : c ∈ writeBlocks m j bs) :
    (blkAddr j ≤ c.1 ∧ c.1 < blkAddr (j + bs.length)) ∨ c ∈ m := by
  induction bs generalizing m j with
  | nil => exact .inr h
  | cons b bs ih =>
    simp only [List.length_cons]
    rcases ih h with h' | h'
    · simp only [blkAddr] at *; exact .inl ⟨by omega, by omega⟩
    · rcases mem_writeBlock h' with h'' | h''
      · simp only [blkAddr] at *; exact .inl ⟨by omega, by omega⟩
      · exact .inr h''

theorem readBlock_writeBlocks {m : Memory} (h : Memory.wf m) (j : Nat) (bs : List Block) (k : Nat) :
    readBlock (writeBlocks m j bs) k = if j ≤ k ∧ k < j + bs.length then bs.getD (k - j) 0#64 else readBlock m k := by
  induction bs generalizing m j with
  | nil => simp only [writeBlocks, List.length_nil]; rw [if_neg (by omega)]
  | cons b bs ih =>
    simp only [writeBlocks, List.length_cons, ih (writeBlock_wf j b h), readBlock_writeBlock h]
    by_cases hjk : j = k
    · subst hjk; simp
    · by_cases hlt : j + 1 ≤ k ∧ k < j + 1 + bs.length
      · rw [if_pos hlt, if_pos (by omega)]
        obtain ⟨n, hn⟩ : ∃ n, k - j = n + 1 := ⟨k - j - 1, by omega⟩
        rw [hn, show k - (j + 1) = n by omega, List.getD_cons_succ]
      · rw [if_neg hlt, if_neg hjk, if_neg (by omega)]

/-! ## The handshake file -/

theorem writeSlots_wf {m : List (Nat × Slots)} (j : Nat) (t : Slots) (h : storeWf noSlots m) :
    storeWf noSlots (writeSlots m j t) :=
  storeSet_wf j t h

theorem readSlots_writeSlots {m : List (Nat × Slots)} (h : storeWf noSlots m) (j : Nat) (t : Slots) (k : Nat) :
    readSlots (writeSlots m j t) k = if j = k then t else readSlots m k :=
  storeGet_storeSet h j t k

theorem writeSlot_wf {m : List (Nat × Slots)} (j : Nat) (k : Stage) (b : Bool) (h : storeWf noSlots m) :
    storeWf noSlots (writeSlot m j k b) :=
  writeSlots_wf _ _ h

theorem readSlots_writeSlot {m : List (Nat × Slots)} (h : storeWf noSlots m) (j : Nat) (k : Stage) (b : Bool) (i : Nat) :
    readSlots (writeSlot m j k b) i = if j = i then (readSlots m j).set k b else readSlots m i :=
  readSlots_writeSlots h _ _ _

theorem freshSem_wf {m : List (Nat × Slots)} (n : Nat) (h : storeWf noSlots m) : storeWf noSlots (freshSem m n) := by
  induction n with
  | zero => exact h
  | succ n ih => exact writeSlots_wf _ _ ih

/-- Acceptance sets the triples of the run's blocks and leaves the others alone (43 R286). -/
theorem readSlots_freshSem {m : List (Nat × Slots)} (h : storeWf noSlots m) (n j : Nat) :
    readSlots (freshSem m n) j = if j < n then freshSlots else readSlots m j := by
  induction n with
  | zero => simp [freshSem]
  | succ n ih =>
    rw [freshSem, readSlots_writeSlots (freshSem_wf n h), ih]
    by_cases h1 : n = j
    · subst h1; simp
    · rw [if_neg h1]
      by_cases h2 : j < n
      · rw [if_pos h2, if_pos (by omega)]
      · rw [if_neg h2, if_neg (by omega)]

end Sys2Proof.Machine
end

