-- ==== Sys2Proof/Laws/Step.lean ====
section
/-! SUPPORT. What one step can do, said once: which event is taken, what a host access does, and which agent moves when
the core is left alone. -/

namespace Sys2Proof.Machine

theorem step_of_event {s : State} {e : Event} {rest : List Event} (h : s.events = e :: rest) :
    step s = takeEvent Config.params e { s with events := rest } := by
  simp [step, nextEvent, h]

theorem step_of_no_event {s : State} (h : s.events = []) : step s = .next (coreAlone Config.params s) := by
  simp [step, nextEvent, h]

theorem commandWrite_of_decode {w : Word} {i : Instr} (h : decode w = .ok i) (s : State) :
    commandWrite w s = exec i s := by
  simp [commandWrite, h]

theorem commandWrite_of_illegal {w : Word} {e : DecodeError} (h : decode w = .error e) (s : State) :
    commandWrite w s = issue (raiseError .illegal) s := by
  simp [commandWrite, h]

/-- A host write faults, is refused, is ignored, issues a command, or writes one word. -/
theorem hostWrite_cases (P : Params) (off size : Nat) (v : Word) (s : State) :
    (windowSize ≤ off ∧ hostWrite P off size v s = .fault .outsideWindow) ∨
    (off < windowSize ∧ accessRefused off size = true ∧ hostWrite P off size v s = .refused .undefinedAccess) ∨
    (off < windowSize ∧ accessRefused off size = false ∧
      ((s.status.busy = true ∧ hostWrite P off size v s = .next s) ∨
       (s.status.busy = false ∧ registerAt P off = .cmd ∧ hostWrite P off size v s = commandWrite v s) ∨
       (s.status.busy = false ∧ registerAt P off ≠ .cmd ∧
          hostWrite P off size v s = .next (writeReg (registerAt P off) v s)))) := by
  unfold hostWrite
  by_cases hw : windowSize ≤ off
  · exact .inl ⟨hw, by simp [hw]⟩
  · refine .inr ?_
    cases ha : accessRefused off size
    · refine .inr ⟨by omega, rfl, ?_⟩
      cases hb : s.status.busy
      · by_cases hr : registerAt P off = .cmd
        · exact .inr (.inl ⟨rfl, hr, by simp [hw, hr]⟩)
        · exact .inr (.inr ⟨rfl, hr, by simp [hw, hr]⟩)
      · exact .inl ⟨rfl, by simp [hw]⟩
    · exact .inl ⟨by omega, rfl, by simp [hw]⟩

/-- A host read faults, is refused, or returns a word. -/
theorem hostRead_cases (P : Params) (off size : Nat) (s : State) :
    (windowSize ≤ off ∧ hostRead P off size s = .fault .outsideWindow) ∨
    (off < windowSize ∧ accessRefused off size = true ∧ hostRead P off size s = .refused .undefinedAccess) ∨
    (off < windowSize ∧ accessRefused off size = false ∧
      hostRead P off size s = .next (readReg (registerAt P off) s)) := by
  unfold hostRead
  by_cases hw : windowSize ≤ off
  · exact .inl ⟨hw, by simp [hw]⟩
  · refine .inr ?_
    cases ha : accessRefused off size
    · exact .inr ⟨by omega, rfl, by simp [hw]⟩
    · exact .inl ⟨by omega, rfl, by simp [hw]⟩

theorem commandAt (P : Params) : registerAt P 0 = .cmd := rfl

/-- The command placed by `withFetchWord` is the next thing the core takes. -/
theorem step_withCommand {w : Word} {i : Instr} (h : decode w = .ok i) (s : State) :
    step (withCommand w s) = exec i s := by
  have hs : step (withCommand w s) = hostWrite Config.params 0 4 w s := rfl
  rw [hs]
  rcases hostWrite_cases Config.params 0 4 w s with ⟨h0, -⟩ | ⟨-, h0, -⟩ | ⟨-, -, ⟨hb, h0⟩ | ⟨-, -, h0⟩ | ⟨-, h1, -⟩⟩
  · exact absurd h0 (by decide)
  · exact absurd h0 (by decide)
  · rw [h0, exec_eq_issue, issue_of_busy hb]
  · rw [h0, commandWrite_of_decode h]
  · exact absurd (commandAt _) h1

/-- A read changes only what the model keeps about it (20 R82). -/
theorem readReg_cases (r : WinReg) (s : State) :
    (readIsDraw r s = true ∧ readReg r s = { s with rdata := Config.busyRead s.draws, draws := s.draws + 1 }) ∨
    (readIsDraw r s = false ∧ readReg r s = { s with rdata := currentWord r s }) := by
  unfold readReg
  cases h : readIsDraw r s
  · exact .inr ⟨rfl, rfl⟩
  · exact .inl ⟨rfl, rfl⟩

theorem enabled_draws (s : State) (n : Nat) (st : Stage) : enabled { s with draws := n } st = enabled s st := rfl

theorem mem_enabledStages {s : State} {st : Stage} : st ∈ enabledStages s ↔ enabled s st = true := by
  cases st <;> simp [enabledStages]

/-- The core left alone waits, or one enabled agent takes its step. -/
theorem coreAlone_cases (P : Params) (s : State) :
    ((∀ st, enabled s st = false) ∧ coreAlone P s = s) ∨
    ∃ st n, enabled s st = true ∧ coreAlone P s = coreStep P st { s with draws := n } := by
  unfold coreAlone
  split
  · rename_i h
    refine .inl ⟨fun st => ?_, rfl⟩
    cases he : enabled s st
    · rfl
    · have := mem_enabledStages.mpr he
      rw [h] at this
      exact absurd this List.not_mem_nil
  · rename_i st h
    exact .inr ⟨st, s.draws, mem_enabledStages.mp (by rw [h]; exact List.mem_singleton.mpr rfl), rfl⟩
  · rename_i st st' sts h
    refine .inr ⟨_, s.draws + 1, mem_enabledStages.mp ?_, rfl⟩
    rw [h]
    have hlt : Config.arbiter s.draws % (sts.length + 2) < (st :: st' :: sts).length :=
      Nat.mod_lt _ (by simp)
    rw [List.getD_eq_getElem?_getD, List.getElem?_eq_getElem hlt, Option.getD_some]
    exact List.getElem_mem hlt

theorem stageTurn_cases (P : Params) (st : Stage) (s : State) :
    (enabled s st = false ∧ stageTurn P st s = s) ∨ (enabled s st = true ∧ stageTurn P st s = coreStep P st s) := by
  unfold stageTurn
  cases h : enabled s st
  · exact .inl ⟨rfl, rfl⟩
  · exact .inr ⟨rfl, rfl⟩

/-- A poll reads `STATUS`; while it shows `BUSY = 1` one core step follows and the poll stays. -/
theorem hostPoll_eq (P : Params) (s : State) :
    hostPoll P s =
      if s.status.busy then coreAlone P { s with events := Event.poll :: s.events, rdata := s.status.toWord }
      else { s with rdata := s.status.toWord } := rfl

/-- Everything a step but a reset can do to a running machine: only the model's own fields change, or an enabled agent
takes its core step (20 R81, R82; 60 R345). -/
theorem step_of_busy_cases {s t : State} (hb : s.status.busy = true)
    (hr : ∀ d rest, s.events ≠ Event.reset d :: rest) (hs : step s = .next t) :
    (∃ ev r n, t = { s with events := ev, rdata := r, draws := n }) ∨
    (∃ st ev r n, enabled s st = true ∧
      t = coreStep Config.params st { s with events := ev, rdata := r, draws := n }) := by
  have alone : ∀ ev r, t = coreAlone Config.params { s with events := ev, rdata := r } →
      (∃ ev r n, t = { s with events := ev, rdata := r, draws := n }) ∨
      (∃ st ev r n, enabled s st = true ∧
        t = coreStep Config.params st { s with events := ev, rdata := r, draws := n }) := by
    rintro ev r rfl
    rcases coreAlone_cases Config.params { s with events := ev, rdata := r } with ⟨-, e⟩ | ⟨st, n, he, e⟩
    · exact .inl ⟨_, _, _, e⟩
    · exact .inr ⟨st, _, _, n, he, e⟩
  rw [step, nextEvent] at hs
  split at hs
  · cases hs
    exact alone s.events s.rdata rfl
  · rename_i e rest hev
    cases e with
    | write off size v =>
      rw [takeEvent] at hs
      rcases hostWrite_cases Config.params off size v { s with events := rest } with
        ⟨-, e⟩ | ⟨-, -, e⟩ | ⟨-, -, ⟨-, e⟩ | ⟨h, -, e⟩ | ⟨h, -, e⟩⟩
      · rw [e] at hs; cases hs
      · rw [e] at hs; cases hs
      · rw [e] at hs; cases hs; exact .inl ⟨_, _, _, rfl⟩
      · exact absurd (hb.symm.trans h) (by decide)
      · exact absurd (hb.symm.trans h) (by decide)
    | read off size =>
      rw [takeEvent] at hs
      rcases hostRead_cases Config.params off size { s with events := rest } with ⟨-, e⟩ | ⟨-, -, e⟩ | ⟨-, -, e⟩
      · rw [e] at hs; cases hs
      · rw [e] at hs; cases hs
      · rw [e] at hs
        cases hs
        rcases readReg_cases (registerAt Config.params off) { s with events := rest } with ⟨-, e⟩ | ⟨-, e⟩ <;>
          exact .inl ⟨_, _, _, e⟩
    | poll =>
      have e : takeEvent Config.params .poll { s with events := rest } =
          .next (coreAlone Config.params { s with events := Event.poll :: rest, rdata := s.status.toWord }) := by
        rw [takeEvent, hostPoll_eq]
        exact congrArg _ (if_pos hb)
      rw [e] at hs
      cases hs
      exact alone _ _ rfl
    | turn st =>
      cases hs
      rcases stageTurn_cases Config.params st { s with events := rest } with ⟨-, e⟩ | ⟨he, e⟩
      · exact .inl ⟨_, _, _, e⟩
      · exact .inr ⟨st, _, _, _, he, e⟩
    | reset d => exact absurd hev (hr d rest)

end Sys2Proof.Machine
end

