-- ==== Sys2Proof/Laws/Invariant.lean ====
section
/-! SUPPORT. How each operation keeps the invariant of the core, operation by operation. -/

namespace Sys2Proof.Machine

variable {P : Params} {s : State}

/-! ## Idle states -/

/-- What the invariant says of an idle state. -/
theorem Inv.of_idle (hb : s.status.busy = false) (ho : s.run.op = .none) (ht : TablesInv s) (hs : StoresInv P s) :
    Inv P s where
  status := ⟨by simp [hb], by simp [hb], by simp [hb, ho], by simp [hb]⟩
  tables := ht
  stores := hs
  desb := by simp [DesbInv, ho]
  pass := by simp [ho]
  triple := by simp [tripleRuns, ho]

theorem Inv.op_of_idle (h : Inv P s) (hb : s.status.busy = false) : s.run.op = .none := h.status.opIffBusy.mpr hb

theorem Inv.busy_of_op (h : Inv P s) (ho : s.run.op ≠ .none) : s.status.busy = true := by
  cases hb : s.status.busy
  · exact absurd (h.op_of_idle hb) ho
  · rfl

/-- The model's own fields are no part of the invariant. -/
theorem Inv.of_sameCore (h : Inv P s) (ev : List Event) (r : Word) (n : Nat) :
    Inv P { s with events := ev, rdata := r, draws := n } where
  status := ⟨h.status.1, h.status.2, h.status.3, h.status.4⟩
  tables := h.tables
  stores := ⟨h.stores.1, h.stores.2, h.stores.3, h.stores.4⟩
  desb := h.desb
  pass := fun ho => have p := h.pass ho; ⟨p.1, p.2, p.3, p.4, p.5⟩
  triple := fun ho => have p := h.triple ho; ⟨p.1, p.2, p.3, p.4, p.5, p.6, p.7, p.8, p.9, p.10⟩

/-! ## Acceptance and the bodies of the commands -/

theorem storesInv_of_same {t : State} (h : StoresInv P s) (hm : t.mem = s.mem) (hs : t.sem = s.sem) : StoresInv P t :=
  ⟨by rw [hm]; exact h.1, by rw [hm]; exact h.2, by rw [hs]; exact h.3, by rw [hs]; exact h.4⟩

theorem Inv.accepted (h : Inv P s) (hb : s.status.busy = false) : Inv P s.accepted :=
  .of_idle hb (h.op_of_idle hb) h.tables (storesInv_of_same h.stores rfl rfl)

theorem Inv.raiseError (h : Inv P s) (hb : s.status.busy = false) (c : ErrCode) : Inv P (raiseError c s) :=
  .of_idle hb (h.op_of_idle hb) h.tables (storesInv_of_same h.stores rfl rfl)

theorem Inv.finish (h : Inv P s) (hb : s.status.busy = false) : Inv P (finish s) :=
  .of_idle hb (h.op_of_idle hb) h.tables (storesInv_of_same h.stores rfl rfl)

theorem tblwBody_keeps (h : Inv P s) (hb : s.status.busy = false) (tid : BitVec 4) (idx : BitVec 9) (val : Entry) :
    Inv P (tblwBody tid idx val s) := by
  rcases tblwBody_cases tid idx val s with ⟨-, e⟩ | ⟨t, -, ⟨-, e⟩ | ⟨-, -, e⟩ | ⟨ho, -, e⟩⟩
  · rw [e]; exact h.raiseError hb _
  · rw [e]; exact h.raiseError hb _
  · rw [e]; exact h.raiseError hb _
  · rw [e]
    refine .of_idle hb (h.op_of_idle hb) (fun ht => ?_) (storesInv_of_same h.stores rfl rfl)
    rw [finish_status, status_finished_tblOk] at ht
    exact absurd (ho.symm.trans ht) (by decide)

theorem tblcBody_keeps (h : Inv P s) (hb : s.status.busy = false) : Inv P (tblcBody s) := by
  rcases tblcBody_cases s with ⟨-, e⟩ | ⟨-, hr, e⟩ | ⟨-, -, e⟩
  · rw [e]; exact h.finish hb
  · rw [e]
    exact .of_idle hb (h.op_of_idle hb) (fun _ => hr) (storesInv_of_same h.stores rfl rfl)
  · rw [e]; exact h.raiseError hb _

theorem desbBody_keeps (h : Inv P s) (hb : s.status.busy = false) (hd : s.status.done = false)
    (he : s.status.err = .noError) (dir : Dir) : Inv P (desbBody dir s) := by
  rcases desbBody_cases dir s with ⟨-, e⟩ | ⟨ho, e⟩
  · rw [e]; exact h.raiseError hb _
  · rw [e]
    exact {
      status := ⟨fun _ => hd, fun _ => he, by simp, fun _ => ho⟩
      tables := h.tables
      stores := storesInv_of_same h.stores rfl rfl
      desb := fun _ => ⟨rfl, rfl, rfl⟩
      pass := by simp
      triple := by simp [tripleRuns] }

theorem ivgenBody_keeps (h : Inv P s) (hb : s.status.busy = false) : Inv P (ivgenBody s) :=
  .of_idle hb (h.op_of_idle hb) h.tables (storesInv_of_same h.stores rfl rfl)

theorem passBody_keeps (h : Inv P s) (hb : s.status.busy = false) (hd : s.status.done = false)
    (he : s.status.err = .noError) (dir : Dir) (ksel : KeySel) (ivsel : BitVec 2) :
    Inv P (passBody P dir ksel ivsel s) := by
  rcases passBody_cases P dir ksel ivsel s with ⟨-, e⟩ | ⟨iv, -, ⟨-, e⟩ | ⟨-, -, e⟩ | ⟨ho, hn, e⟩⟩
  · rw [e]; exact h.raiseError hb _
  · rw [e]; exact h.raiseError hb _
  · rw [e]; exact h.raiseError hb _
  · have hr := nblkRefused_eq_false.mp hn
    rw [e]
    exact {
      status := ⟨fun _ => hd, fun _ => he, by simp, fun _ => ho⟩
      tables := h.tables
      stores := storesInv_of_same h.stores rfl rfl
      desb := by simp [DesbInv]
      pass := fun _ => ⟨hr, rfl, hr.1, rfl, rfl⟩
      triple := by simp [tripleRuns] }

theorem slotsAt_fresh (j : Nat) : slotsAt { s1 := 0, s2 := 0, s3 := 0 } j = freshSlots := by
  simp [slotsAt, freshSlots]

theorem tripleBody_keeps (h : Inv P s) (hb : s.status.busy = false) (hd : s.status.done = false)
    (he : s.status.err = .noError) (op : RunOp) (mode : Mode) (pp : PerStage PassParams)
    (hop : (op = .edee ∧ pp = edeePasses s) ∨ (op = .eded ∧ pp = ededPasses s)) :
    Inv P (tripleBody P op mode pp s) := by
  rcases tripleBody_cases P op mode pp s with ⟨-, e⟩ | ⟨-, -, e⟩ | ⟨ho, hn, e⟩
  · rw [e]; exact h.raiseError hb _
  · rw [e]; exact h.raiseError hb _
  · have hr := nblkRefused_eq_false.mp hn
    have hne : op ≠ .none := by rcases hop with ⟨h, -⟩ | ⟨h, -⟩ <;> simp [h]
    rw [e]
    exact {
      status := ⟨fun _ => hd, fun _ => he, by simp [hne], fun _ => ho⟩
      tables := h.tables
      stores := ⟨h.stores.1, h.stores.2, freshSem_wf _ h.stores.3, fun j => by
        rw [readSlots_freshSem h.stores.3]
        split
        · rfl
        · exact h.stores.4 j⟩
      desb := by rcases hop with ⟨h, -⟩ | ⟨h, -⟩ <;> simp [DesbInv, h]
      pass := by rcases hop with ⟨h, -⟩ | ⟨h, -⟩ <;> simp [h]
      triple := fun _ => {
        range := hr
        order32 := Nat.le_refl _
        order21 := Nat.le_refl _
        order1 := Nat.zero_le _
        unfinished := hr.1
        slots := fun j hj => by
          rw [readSlots_freshSem h.stores.3, if_pos hj]
          exact (slotsAt_fresh j).symm
        seqSecond := fun _ => .inl rfl
        seqThird := fun _ => .inl rfl
        edeeParams := fun hx => by
          rcases hop with ⟨-, h⟩ | ⟨h, -⟩
          · exact h
          · exact absurd (h.symm.trans hx) (by decide)
        ededParams := fun hx => by
          rcases hop with ⟨h, -⟩ | ⟨-, h⟩
          · exact absurd (h.symm.trans hx) (by decide)
          · exact h } }

/-! ## Host writes -/

theorem writeWord_inWindow {m : Memory} {v : Word} {a : Nat} (h : ∀ c ∈ m, blkAddr 0 ≤ c.1 ∧ c.1 < blkAddr P.nblkMax)
    (ha : blkAddr 0 ≤ a ∧ a + 4 ≤ blkAddr P.nblkMax) :
    ∀ c ∈ writeWord m a v, blkAddr 0 ≤ c.1 ∧ c.1 < blkAddr P.nblkMax := by
  intro c hc
  rcases mem_writeWord hc with h' | h'
  · omega
  · exact h c h'

theorem registerMap_lookup_blk {off : Nat} {r : WinReg} (h : registerMap.lookup off = some r) :
    (∀ j, r ≠ .blkHi j) ∧ (∀ j, r ≠ .blkLo j) := by
  have : r ∈ registerMap.map Prod.snd := by
    have hm := List.lookup_eq_some_iff.mp h
    obtain ⟨l₁, l₂, e, -⟩ := hm
    exact List.mem_map.mpr ⟨(off, r), by rw [e]; simp, rfl⟩
  constructor <;> intro j hj <;> subst hj <;> simp [registerMap] at this

/-- A block word of the map lies in the block window. -/
theorem registerAt_blk {off j : Nat} (h : registerAt P off = .blkHi j ∨ registerAt P off = .blkLo j) :
    j < P.nblkMax := by
  unfold registerAt at h
  split at h
  · rename_i r hr
    have := registerMap_lookup_blk hr
    rcases h with h | h
    · exact absurd h (this.1 j)
    · exact absurd h (this.2 j)
  · split at h
    · split at h <;> simp at h <;> omega
    · simp at h

theorem writeReg_keeps (h : Inv P s) (hb : s.status.busy = false) (off : Nat) (v : Word) :
    Inv P (writeReg (registerAt P off) v s) := by
  have ho := h.op_of_idle hb
  have hst : StoresInv P s := h.stores
  cases hr : registerAt P off with
  | blkHi j =>
    have hj := registerAt_blk (.inl hr)
    refine .of_idle hb ho h.tables ⟨writeWord_wf _ _ hst.1, writeWord_inWindow hst.2 ?_, hst.3, hst.4⟩
    simp only [blkAddr]; omega
  | blkLo j =>
    have hj := registerAt_blk (.inr hr)
    refine .of_idle hb ho h.tables ⟨writeWord_wf _ _ hst.1, writeWord_inWindow hst.2 ?_, hst.3, hst.4⟩
    simp only [blkAddr]; omega
  | _ => exact .of_idle hb ho h.tables (storesInv_of_same hst rfl rfl)

/-! ## Core steps -/

theorem desbStep_keeps (h : Inv P s) : Inv P (desbStep P s) :=
  .of_idle rfl rfl h.tables (storesInv_of_same h.stores rfl rfl)

theorem writeBlock_storesInv {t : State} (h : StoresInv P s) {j : Nat} (hj : j < P.nblkMax) (v : Block)
    (hm : t.mem = writeBlock s.mem j v) (hs : t.sem = s.sem) : StoresInv P t := by
  refine ⟨by rw [hm]; exact writeBlock_wf _ _ h.1, ?_, by rw [hs]; exact h.3, by rw [hs]; exact h.4⟩
  rw [hm]
  intro c hc
  rcases mem_writeBlock hc with h' | h'
  · simp only [blkAddr] at *; omega
  · exact h.2 c h'

theorem passStep_keeps (h : Inv P s) (ho : s.run.op = .pass) : Inv P (passStep P s) := by
  have hp := h.pass ho
  have hb := h.busy_of_op (by simp [ho])
  have hr := hp.range
  have h1 := hp.first
  have hj : s.idx.s1 < P.nblkMax := Nat.lt_of_lt_of_le h1 hr.2
  unfold passStep
  simp only
  split
  · exact .of_idle rfl rfl h.tables (writeBlock_storesInv h.stores hj _ rfl rfl)
  · rename_i hne
    exact {
      status := ⟨h.status.1, h.status.2, h.status.3, h.status.4⟩
      tables := h.tables
      stores := writeBlock_storesInv h.stores hj _ rfl rfl
      desb := by simp [DesbInv, ho]
      pass := fun _ => ⟨hr, hp.seqMode, Nat.lt_of_le_of_ne h1 hne, hp.second, hp.third⟩
      triple := by simp [tripleRuns, ho] }

/-- What a stage that is ready during a run knows (43 R287). -/
theorem stageReady_slots (h : TripleInv P s) {st : Stage} (hr : stageReady s st = true) :
    s.idx.get st < s.nblk.toNat ∧ (slotsAt s.idx (s.idx.get st)).get st = true ∧
    (s.run.mode = .seq → earlierDone s st = true) := by
  simp only [stageReady, Bool.and_eq_true, decide_eq_true_eq, Bool.or_eq_true] at hr
  refine ⟨hr.1.1, ?_, fun hm => ?_⟩
  · rw [← h.slots _ hr.1.1]; exact hr.1.2
  · rcases hr.2 with h' | h'
    · exact absurd (hm.symm.trans h') (by decide)
    · exact h'

theorem oneOwner_handOff {m : List (Nat × Slots)} (hw : storeWf noSlots m)
    (h : ∀ i, atMostOneSlot (readSlots m i) = true) {j : Nat} {st : Stage} (hj : (readSlots m j).get st = true)
    (i : Nat) : atMostOneSlot (readSlots (writeSlot (writeSlot m j st false) j (nextSlot st) true) i) = true := by
  rw [readSlots_writeSlot (writeSlot_wf _ _ _ hw), readSlots_writeSlot hw, if_pos rfl, readSlots_writeSlot hw]
  by_cases hij : j = i
  · subst hij
    rw [if_pos rfl]
    have hone := h j
    revert hone hj
    obtain ⟨a, b, c⟩ := readSlots m j
    cases st <;> cases a <;> cases b <;> cases c <;> decide
  · rw [if_neg hij, if_neg hij]; exact h i

theorem slotsAt_s1 (i : PerStage Nat) (j : Nat) : (slotsAt i j).s1 = true ↔ i.s1 ≤ j ∨ j < i.s3 := by simp [slotsAt]

theorem slotsAt_s2 (i : PerStage Nat) (j : Nat) : (slotsAt i j).s2 = true ↔ i.s2 ≤ j ∧ j < i.s1 := by simp [slotsAt]

theorem slotsAt_s3 (i : PerStage Nat) (j : Nat) : (slotsAt i j).s3 = true ↔ i.s3 ≤ j ∧ j < i.s2 := by simp [slotsAt]

theorem slots_ext {t u : Slots} (h1 : t.s1 = true ↔ u.s1 = true) (h2 : t.s2 = true ↔ u.s2 = true)
    (h3 : t.s3 = true ↔ u.s3 = true) : t = u := by
  obtain ⟨a, b, c⟩ := t
  obtain ⟨d, e, f⟩ := u
  rw [PerStage.mk.injEq]
  exact ⟨Bool.eq_iff_iff.mpr h1, Bool.eq_iff_iff.mpr h2, Bool.eq_iff_iff.mpr h3⟩

/-- The triples after a stage hands its block on are those of the new indices. -/
theorem slots_handOff {m : List (Nat × Slots)} (hw : storeWf noSlots m) {n : Nat} {idx : PerStage Nat}
    (h : ∀ j, j < n → readSlots m j = slotsAt idx j) (h32 : idx.s3 ≤ idx.s2) (h21 : idx.s2 ≤ idx.s1) {st : Stage}
    (hlt : idx.get st < n) (hown : (slotsAt idx (idx.get st)).get st = true) (i : Nat) (hi : i < n) :
    readSlots (writeSlot (writeSlot m (idx.get st) st false) (idx.get st) (nextSlot st) true) i =
      slotsAt (idx.set st (idx.get st + 1)) i := by
  rw [readSlots_writeSlot (writeSlot_wf _ _ _ hw), readSlots_writeSlot hw, if_pos rfl, readSlots_writeSlot hw,
    h _ hlt, h _ hi]
  by_cases hij : idx.get st = i
  · subst hij
    rw [if_pos rfl]
    cases st <;> simp only [PerStage.get, PerStage.set, nextSlot, slotsAt_s1, slotsAt_s2, slotsAt_s3] at hown ⊢ <;>
      refine slots_ext ?_ ?_ ?_ <;>
      simp only [slotsAt_s1, slotsAt_s2, slotsAt_s3, Bool.false_eq_true, true_iff, false_iff] <;> omega
  · rw [if_neg hij, if_neg hij]
    cases st <;> simp only [PerStage.get, PerStage.set] at hij ⊢ <;> refine slots_ext ?_ ?_ ?_ <;>
      simp only [slotsAt_s1, slotsAt_s2, slotsAt_s3] <;> omega

theorem stageStep_keeps (h : Inv P s) (hrun : tripleRuns s) {st : Stage} (hready : stageReady s st = true) :
    Inv P (stageStep P st s) := by
  have ht := h.triple hrun
  have hne : s.run.op ≠ .none := by rcases hrun with h | h <;> simp [h]
  have hb := h.busy_of_op hne
  have hr := ht.range
  obtain ⟨hlt, hown, hseq⟩ := stageReady_slots ht hready
  have hj : s.idx.get st < P.nblkMax := Nat.lt_of_lt_of_le hlt hr.2
  have hslots := slots_handOff h.stores.semWf ht.slots ht.order32 ht.order21 hlt hown
  have hstores : ∀ t : State, t.mem = writeBlock s.mem (s.idx.get st)
        (chainStep P s.tbl (s.pp.get st) (s.vec.get st) (readBlock s.mem (s.idx.get st)) (s.idx.get st)).block →
      t.sem = writeSlot (writeSlot s.sem (s.idx.get st) st false) (s.idx.get st) (nextSlot st) true →
      StoresInv P t := by
    intro t hm hs
    have hst := h.stores
    refine ⟨by rw [hm]; exact writeBlock_wf _ _ hst.1, ?_, by rw [hs]; exact writeSlot_wf _ _ _ (writeSlot_wf _ _ _ hst.3), ?_⟩
    · rw [hm]
      intro c hc
      rcases mem_writeBlock hc with h' | h'
      · simp only [blkAddr] at *; omega
      · exact hst.2 c h'
    · rw [hs]
      exact oneOwner_handOff hst.3 hst.4 (by rw [ht.slots _ hlt]; exact hown)
  unfold stageStep
  simp only
  split
  · exact .of_idle rfl rfl h.tables (hstores _ rfl rfl)
  · rename_i hnot
    exact {
      status := ⟨h.status.1, h.status.2, h.status.3, h.status.4⟩
      tables := h.tables
      stores := hstores _ rfl rfl
      desb := by rcases hrun with h | h <;> simp [DesbInv, h]
      pass := by rcases hrun with h | h <;> simp [h]
      triple := fun _ => by
        have := ht.order32; have := ht.order21; have := ht.order1; have := ht.unfinished
        have hs2 := ht.seqSecond; have hs3 := ht.seqThird
        have hmode : s.run.mode = .seq →
            (s.idx.s2 = 0 ∨ s.idx.s1 = s.nblk.toNat) ∧ (s.idx.s3 = 0 ∨ s.idx.s2 = s.nblk.toNat) ∧
              earlierDone s st = true := fun hm => ⟨hs2 hm, hs3 hm, hseq hm⟩
        refine ⟨hr, ?_, ?_, ?_, ?_, hslots, fun hm => ?_, fun hm => ?_, ht.edeeParams, ht.ededParams⟩
        case' refine_5 | refine_6 => obtain ⟨h1, h2, h3⟩ := hmode hm
        all_goals
          cases st <;>
            simp only [PerStage.get, PerStage.set, slotsAt_s1, slotsAt_s2, slotsAt_s3, earlierDone, decide_eq_true_eq]
              at * <;> omega }

theorem coreStep_keeps (h : Inv P s) {st : Stage} (he : enabled s st = true) : Inv P (coreStep P st s) := by
  cases ho : s.run.op with
  | none => rw [enabled, ho] at he; exact absurd he (by simp)
  | desb => rw [coreStep, ho]; exact desbStep_keeps h
  | pass => rw [coreStep, ho]; exact passStep_keeps h ho
  | edee =>
    rw [coreStep, ho]
    rw [enabled, ho] at he
    exact stageStep_keeps h (.inl ho) he
  | eded =>
    rw [coreStep, ho]
    rw [enabled, ho] at he
    exact stageStep_keeps h (.inr ho) he

/-! ## Reset -/

theorem afterReset_inv (P : Params) (d : ResetDraw) (s : State) : Inv P (afterReset P d s) := by
  refine .of_idle rfl rfl (fun h => absurd h (by simp [afterReset])) ⟨writeBlocks_wf _ _ (storeWf_nil _), ?_, storeWf_nil _, fun _ => rfl⟩
  intro c hc
  rcases mem_writeBlocks hc with h | h
  · have : (d.blk.take P.nblkMax).length ≤ P.nblkMax := by simp
    simp only [blkAddr] at *; omega
  · exact absurd h List.not_mem_nil

end Sys2Proof.Machine
end

