-- ==== Sys2Proof/Laws/Passes.lean ====
section
/-! SUPPORT. Whole passes, block by block: what a chaining step finds and leaves when its stage has come to a block, for
one pass and for the three passes of a run. -/

namespace Sys2Proof.Machine

variable {P : Params} {tb : TableStore Entry}

/-! ## One pass -/

theorem passFrom_length (pp : PassParams) (bs : List Block) (j : Nat) (v : Block) :
    (passFrom P tb pp j v bs).length = bs.length := by
  induction bs generalizing j v with
  | nil => rfl
  | cons b bs ih => simp only [passFrom, List.length_cons, ih]

@[simp] theorem passBlocks_length (pp : PassParams) (bs : List Block) : (passBlocks P tb pp bs).length = bs.length :=
  passFrom_length pp bs 0 pp.iv

/-- An encrypting step hands on the block it wrote. -/
theorem chainStep_vector_enc {pp : PassParams} (h : pp.dir = .enc) (v b : Block) (j : Nat) :
    (chainStep P tb pp v b j).vector = (chainStep P tb pp v b j).block := by
  simp only [chainStep, h, chainEncrypt]

/-- A decrypting step hands on the block it read. -/
theorem chainStep_vector_dec {pp : PassParams} (h : pp.dir = .dec) (v b : Block) (j : Nat) :
    (chainStep P tb pp v b j).vector = b := by
  simp only [chainStep, h, chainDecrypt]

/-- The vector a pass from block `j` on has after `n` blocks. -/
def vectorFrom (P : Params) (tb : TableStore Entry) (pp : PassParams) : Nat → Block → List Block → Nat → Block
  | _, v, [], _ => v
  | _, v, _ :: _, 0 => v
  | j, v, b :: bs, n + 1 => vectorFrom P tb pp (j + 1) (chainStep P tb pp v b j).vector bs n

theorem passFrom_getD (pp : PassParams) (bs : List Block) (j : Nat) (v : Block) (n : Nat) (h : n < bs.length) :
    (passFrom P tb pp j v bs).getD n 0#64 =
      (chainStep P tb pp (vectorFrom P tb pp j v bs n) (bs.getD n 0#64) (j + n)).block := by
  induction bs generalizing j v n with
  | nil => exact absurd h (Nat.not_lt_zero _)
  | cons b bs ih =>
    cases n with
    | zero => rfl
    | succ n =>
      simp only [passFrom, vectorFrom, List.getD_cons_succ]
      rw [ih _ _ _ (Nat.lt_of_succ_lt_succ h), Nat.add_right_comm, Nat.add_assoc]

theorem vectorFrom_succ (pp : PassParams) (bs : List Block) (j : Nat) (v : Block) (n : Nat) (h : n < bs.length) :
    vectorFrom P tb pp j v bs (n + 1) =
      (chainStep P tb pp (vectorFrom P tb pp j v bs n) (bs.getD n 0#64) (j + n)).vector := by
  induction bs generalizing j v n with
  | nil => exact absurd h (Nat.not_lt_zero _)
  | cons b bs ih =>
    cases n with
    | zero => cases bs <;> rfl
    | succ n =>
      rw [vectorFrom, ih _ _ _ (Nat.lt_of_succ_lt_succ h)]
      simp only [vectorFrom, List.getD_cons_succ]
      rw [Nat.add_right_comm, Nat.add_assoc]

/-- `vectorAfter`, which reads the vector off the blocks, is the vector the steps hand on (42 R243). -/
theorem vectorAfter_eq_vectorFrom (pp : PassParams) (bs : List Block) (n : Nat) (h : n ≤ bs.length) :
    vectorAfter P tb pp bs n = vectorFrom P tb pp 0 pp.iv bs n := by
  cases n with
  | zero => cases bs <;> rfl
  | succ n =>
    rw [vectorFrom_succ _ _ _ _ _ h, vectorAfter]
    cases hd : pp.dir
    · rw [chainStep_vector_enc hd, ← passFrom_getD _ _ _ _ _ h]; rfl
    · rw [chainStep_vector_dec hd]

/-- The chaining step on block `n` leaves the pass's output block `n`. -/
theorem chainStep_block_of_pass (pp : PassParams) (bs : List Block) (n : Nat) (h : n < bs.length) :
    (chainStep P tb pp (vectorAfter P tb pp bs n) (bs.getD n 0#64) n).block = (passBlocks P tb pp bs).getD n 0#64 := by
  rw [vectorAfter_eq_vectorFrom _ _ _ (Nat.le_of_lt h), passBlocks, passFrom_getD _ _ _ _ _ h, Nat.zero_add]

/-- The chaining step on block `n` hands on the vector for block `n + 1`. -/
theorem chainStep_vector_of_pass (pp : PassParams) (bs : List Block) (n : Nat) (h : n < bs.length) :
    (chainStep P tb pp (vectorAfter P tb pp bs n) (bs.getD n 0#64) n).vector = vectorAfter P tb pp bs (n + 1) := by
  rw [vectorAfter_eq_vectorFrom _ _ _ (Nat.le_of_lt h), vectorAfter_eq_vectorFrom _ _ _ h,
    vectorFrom_succ _ _ _ _ _ h, Nat.zero_add]

/-! ## The three passes of a run -/

variable {pp : PerStage PassParams} {bs : List Block} {i : PerStage Nat} {j : Nat}

/-- What the stage reads: the run's blocks, or the output of the pass before it. -/
def stageInput (P : Params) (tb : TableStore Entry) (pp : PerStage PassParams) (bs : List Block) : Stage → List Block
  | .s1 => bs
  | .s2 => passBlocks P tb pp.s1 bs
  | .s3 => passBlocks P tb pp.s2 (passBlocks P tb pp.s1 bs)

theorem stageInput_length (st : Stage) : (stageInput P tb pp bs st).length = bs.length := by
  cases st <;> simp only [stageInput, passBlocks_length]

theorem blockAt_of_untouched (h3 : i.s3 ≤ j) (h2 : i.s2 ≤ j) (h1 : i.s1 ≤ j) :
    blockAt P tb pp bs i j = bs.getD j 0#64 := by
  rw [blockAt, if_neg (by omega), if_neg (by omega), if_neg (by omega)]

theorem blockAt_of_one_pass (h3 : i.s3 ≤ j) (h2 : i.s2 ≤ j) (h1 : j < i.s1) :
    blockAt P tb pp bs i j = (passBlocks P tb pp.s1 bs).getD j 0#64 := by
  rw [blockAt, if_neg (by omega), if_neg (by omega), if_pos h1]

theorem blockAt_of_two_passes (h3 : i.s3 ≤ j) (h2 : j < i.s2) :
    blockAt P tb pp bs i j = (passBlocks P tb pp.s2 (passBlocks P tb pp.s1 bs)).getD j 0#64 := by
  rw [blockAt, if_neg (by omega), if_pos h2]

theorem blockAt_of_three_passes (h3 : j < i.s3) : blockAt P tb pp bs i j = (triplePass P tb pp bs).getD j 0#64 := by
  rw [blockAt, if_pos h3]

/-- A stage's turn changes no block but the one at its index. -/
theorem blockAt_set_of_ne (st : Stage) (h : i.get st ≠ j) :
    blockAt P tb pp bs (i.set st (i.get st + 1)) j = blockAt P tb pp bs i j := by
  cases st
  · exact if_congr Iff.rfl rfl (if_congr Iff.rfl rfl
      (if_congr (by have : i.s1 ≠ j := h; show j < i.s1 + 1 ↔ j < i.s1; omega) rfl rfl))
  · exact if_congr Iff.rfl rfl (if_congr (by have : i.s2 ≠ j := h; show j < i.s2 + 1 ↔ j < i.s2; omega) rfl rfl)
  · exact if_congr (by have : i.s3 ≠ j := h; show j < i.s3 + 1 ↔ j < i.s3; omega) rfl rfl

/-- What a stage that owns the block at its index finds there, and what that block is after its turn. -/
theorem blockAt_turn (st : Stage) (h32 : i.s3 ≤ i.s2) (h21 : i.s2 ≤ i.s1)
    (hown : (slotsAt i (i.get st)).get st = true) :
    blockAt P tb pp bs i (i.get st) = (stageInput P tb pp bs st).getD (i.get st) 0#64 ∧
    blockAt P tb pp bs (i.set st (i.get st + 1)) (i.get st) =
      (passBlocks P tb (pp.get st) (stageInput P tb pp bs st)).getD (i.get st) 0#64 := by
  cases st
  · exact ⟨blockAt_of_untouched (j := i.s1) (by omega) (by omega) (by omega),
      blockAt_of_one_pass (j := i.s1) (i := { i with s1 := i.s1 + 1 }) (show i.s3 ≤ i.s1 by omega) h21
        (Nat.lt_succ_self _)⟩
  · have h : i.s2 < i.s1 := ((slotsAt_s2 _ _).mp hown).2
    exact ⟨blockAt_of_one_pass (j := i.s2) (by omega) (by omega) h,
      blockAt_of_two_passes (j := i.s2) (i := { i with s2 := i.s2 + 1 }) h32 (Nat.lt_succ_self _)⟩
  · have h : i.s3 < i.s2 := ((slotsAt_s3 _ _).mp hown).2
    exact ⟨blockAt_of_two_passes (j := i.s3) (by omega) h,
      blockAt_of_three_passes (j := i.s3) (i := { i with s3 := i.s3 + 1 }) (Nat.lt_succ_self _)⟩

theorem runOver_vector {s : State} (h : RunOver P bs s) (st : Stage) :
    s.vec.get st = vectorAfter P s.tbl (s.pp.get st) (stageInput P s.tbl s.pp bs st) (s.idx.get st) := by
  cases st
  · exact h.vec1
  · exact h.vec2
  · exact h.vec3

/-! ## When a stage of a run is ready (43 R287, R288) -/

theorem stageReady_iff {s : State} (h : TripleInv P s) (st : Stage) :
    stageReady s st = true ↔
      s.idx.get st < s.nblk.toNat ∧ (slotsAt s.idx (s.idx.get st)).get st = true ∧
        (s.run.mode = .conc ∨ earlierDone s st = true) := by
  simp only [stageReady, Bool.and_eq_true, decide_eq_true_eq, Bool.or_eq_true]
  constructor
  · rintro ⟨⟨a, b⟩, c⟩; exact ⟨a, by rw [← h.slots _ a]; exact b, c⟩
  · rintro ⟨a, b, c⟩; exact ⟨⟨a, by rw [h.slots _ a]; exact b⟩, c⟩

theorem stageReady_s1 {s : State} (h : TripleInv P s) : stageReady s .s1 = true ↔ s.idx.s1 < s.nblk.toNat := by
  rw [stageReady_iff h]
  show s.idx.s1 < _ ∧ (slotsAt s.idx s.idx.s1).s1 = true ∧ _ ↔ _
  rw [slotsAt_s1]
  simp [earlierDone]

theorem stageReady_s2 {s : State} (h : TripleInv P s) :
    stageReady s .s2 = true ↔ s.idx.s2 < s.idx.s1 ∧ (s.run.mode = .conc ∨ s.idx.s1 = s.nblk.toNat) := by
  have := h.order1
  rw [stageReady_iff h]
  show s.idx.s2 < _ ∧ (slotsAt s.idx s.idx.s2).s2 = true ∧ _ ↔ _
  rw [slotsAt_s2]
  simp only [earlierDone, decide_eq_true_eq, Nat.le_refl, true_and]
  exact ⟨fun x => x.2, fun x => ⟨by omega, x⟩⟩

theorem stageReady_s3 {s : State} (h : TripleInv P s) :
    stageReady s .s3 = true ↔ s.idx.s3 < s.idx.s2 ∧ (s.run.mode = .conc ∨ s.idx.s2 = s.nblk.toNat) := by
  have := h.unfinished
  rw [stageReady_iff h]
  show s.idx.s3 < _ ∧ (slotsAt s.idx s.idx.s3).s3 = true ∧ _ ↔ _
  rw [slotsAt_s3]
  simp only [earlierDone, decide_eq_true_eq, Nat.le_refl, true_and]
  exact ⟨fun x => x.2, fun x => ⟨by omega, x⟩⟩

end Sys2Proof.Machine
end

