-- ==== Sys2Proof/Laws/PerInstr.lean ====
section
/-! SUPPORT. Family `OpcodeRow`: the word of a well-formed command carries the opcode map's row of its mnemonic
(30 R118): masked with the row's mask it is the row's match. -/

namespace Sys2Proof.Laws.OpcodeRow

/-- The word of a well-formed command matches the row of its mnemonic (30 R118). -/
def Statement (i : Instr) : Prop := i.wellFormed = true → encode i &&& maskOf i = matchOf i

/-- A `TID` below 8 has its top bit clear. -/
theorem tid_top_bit {tid : BitVec 4} (h : tid.toNat < 8) : tid[3] = false := by
  rw [← BitVec.getLsbD_eq_getElem, BitVec.getLsbD, Nat.testBit_eq_decide_div_mod_eq]
  simp
  omega

theorem tblw (tid : BitVec 4) (idx : BitVec 9) (val : Entry) : Statement (.tblw tid idx val) := by
  intro h
  have ht := tid_top_bit (of_decide_eq_true h)
  apply BitVec.eq_of_getLsbD_eq
  intro k hk
  simp only [encode, maskOf, matchOf, BitVec.getLsbD_and, BitVec.getLsbD_append]
  interval_cases k <;> simp [ht]

theorem tblc : Statement .tblc := fun _ => by decide

theorem desb (dir : Dir) : Statement (.desb dir) := fun _ => by cases dir <;> decide

theorem ivgen : Statement .ivgen := fun _ => by decide

theorem pass (dir : Dir) (ksel : KeySel) (ivsel : BitVec 2) : Statement (.pass dir ksel ivsel) := fun _ => by
  cases dir <;> cases ksel <;> revert ivsel <;> decide

theorem edee (mode : Mode) : Statement (.edee mode) := fun _ => by cases mode <;> decide

theorem eded (mode : Mode) : Statement (.eded mode) := fun _ => by cases mode <;> decide

end Sys2Proof.Laws.OpcodeRow
end

