-- ==== Sys2Proof/Laws/Run.lean ====
section
/-! SUPPORT. Runs of several steps: one step at a time, two runs joined, and the host's own `core.run`. -/

namespace Sys2Proof.Machine

@[simp] theorem runSteps_zero (s : State) : runSteps 0 s = .next s := rfl

theorem runSteps_succ {s t : State} (h : step s = .next t) (k : Nat) : runSteps (k + 1) s = runSteps k t := by
  rw [runSteps, h]

/-- A run of `a + b` steps is `a` steps and then `b`. -/
theorem runSteps_add {a : Nat} : ∀ {s t : State}, runSteps a s = .next t → ∀ b, runSteps (a + b) s = runSteps b t := by
  induction a with
  | zero =>
    intro s t h b
    rw [runSteps_zero, Host.Outcome.next.injEq] at h
    rw [Nat.zero_add, h]
  | succ a ih =>
    intro s t h b
    cases hs : step s with
    | next u =>
      rw [runSteps_succ hs] at h
      rw [Nat.add_right_comm, runSteps_succ hs]
      exact ih h b
    | fault r => rw [runSteps, hs] at h; exact absurd h (by simp)
    | refused r => rw [runSteps, hs] at h; exact absurd h (by simp)

/-- It is the host's run of the core. -/
theorem runSteps_eq_core_run (k : Nat) (s : State) : runSteps k s = core.run k s := by
  induction k generalizing s with
  | zero => simp only [runSteps, Host.Core.run]; rfl
  | succ k ih =>
    have e : core.step s = step s := rfl
    cases hs : step s with
    | next u =>
      rw [runSteps_succ hs, ih]
      simp only [Host.Core.run, e, hs]
      rfl
    | fault r => simp only [runSteps, Host.Core.run, e, hs]; rfl
    | refused r => simp only [runSteps, Host.Core.run, e, hs]; rfl

theorem step_single {s : State} {st : Stage} (he : s.events = []) (h : enabledStages s = [st]) :
    step s = .next (coreStep Config.params st s) := by
  rw [step_of_no_event he, coreAlone, h]

end Sys2Proof.Machine
end

