-- ==== Sys2Proof/Tests/Slice0.lean ====
section
/-! SUPPORT. Checks of the model against the words, vectors and error tables of spec 95, and, for every statement with
hypotheses, a concrete state and operands that meet them. -/

namespace Sys2Proof.Tests

open Sys2Proof.Machine

set_option Elab.async false

/-! ## Well-formedness -/

theorem test_illformed_tblw_refused : Instr.wellFormed (.tblw 8#4 0#9 1#7) = false := by decide

theorem test_illformed_pass_refused : Instr.wellFormed (.pass .enc .k1 0#2) = false := by decide

theorem test_wellformed_boundaries :
    Instr.wellFormed (.tblw 7#4 511#9 127#7) = true ∧ Instr.wellFormed (.pass .dec .k2 3#2) = true := by decide

/-! ## Decoding: the words of 95 V19 -/

theorem test_decode_tblw :
    decode 0x07400001#32 = .ok (.tblw 0#4 0#9 58#7) ∧ decode 0x017FF701#32 = .ok (.tblw 7#4 511#9 11#7) ∧
    decode 0x00000801#32 = .error .reservedTid ∧ decode 0x10000001#32 = .error .reservedBit := by decide

/-- `VAL` 1010101, `IDX` 110011001, `TID` 101, written out bit by bit from 30 R113. -/
theorem test_decode_tblw_bits : decode 0b00001010101110011001010100000001#32 = .ok (.tblw 5#4 409#9 85#7) := by decide

theorem test_decode_tblc : decode 0x00000002#32 = .ok .tblc ∧ decode 0x00000102#32 = .error .reservedBit := by decide

theorem test_decode_desb :
    decode 0x00000003#32 = .ok (.desb .enc) ∧ decode 0x00000103#32 = .ok (.desb .dec) ∧
    decode 0x00000203#32 = .error .reservedBit := by decide

theorem test_decode_ivgen : decode 0x00000004#32 = .ok .ivgen ∧ decode 0x80000004#32 = .error .reservedBit := by decide

theorem test_decode_pass :
    decode 0x00000405#32 = .ok (.pass .enc .k1 1#2) ∧ decode 0x00000505#32 = .ok (.pass .dec .k1 1#2) ∧
    decode 0x00000A05#32 = .ok (.pass .enc .k2 2#2) ∧ decode 0x00000F05#32 = .ok (.pass .dec .k2 3#2) ∧
    decode 0x00000005#32 = .error .reservedIvsel ∧ decode 0x00001405#32 = .error .reservedBit := by decide

theorem test_decode_edee :
    decode 0x00000006#32 = .ok (.edee .seq) ∧ decode 0x00000106#32 = .ok (.edee .conc) ∧
    decode 0x00000206#32 = .error .reservedBit := by decide

theorem test_decode_eded : decode 0x00000007#32 = .ok (.eded .seq) ∧ decode 0x00000107#32 = .ok (.eded .conc) := by
  decide

theorem test_decode_undefined_opcodes :
    decode 0x00000000#32 = .error .undefinedOpcode ∧ decode 0x00000008#32 = .error .undefinedOpcode ∧
    decode 0x000000FF#32 = .error .undefinedOpcode := by decide

theorem test_decodeTableWord :
    decodeTableWord 32 0x00000F05 = some (.pass .dec .k2 3#2) ∧ decodeTableWord 32 0x00000005 = none := by decide

/-! ## States to start from -/

/-- The state an outcome gives, if it gives one. -/
def nextOf (o : Host.Outcome State Fault Refusal) : Option State :=
  match o with
  | .next s => some s
  | .fault _ => none
  | .refused _ => none

/-- The parameters of the vectors of 95: `NBLK_MAX = 4`. -/
def vectorParams : Params := { nblkMax := 4, sboxOrder := .msbFirst, decVectorInit := .iv }

/-- Idle, with the default tables committed and `NBLK = n`. -/
def readyWith (n : BitVec 16) : State :=
  { State.reset with
    tbl := defaultTables, wr := TableStore.filled true, nblk := n
    status := { State.reset.status with tblOk := true } }

/-- The key, the IVs and the blocks of 95 V20, with `NBLK = n`. -/
def v20With (n : BitVec 16) : State :=
  { readyWith n with
    key := 0x0123456789ABCDEFFEDCBA9876543210#128
    iv1 := 0x1111111111111111#64, iv2 := 0x2222222222222222#64, iv3 := 0x3333333333333333#64
    mem := writeBlocks [] 0 [0x48656C6C6F2C2044#64, 0x45533320636F7265#64, 0x2100000000000000#64] }

/-- The status word after a command. -/
def statusAfter (i : Instr) (s : State) : Option Word := (nextOf (exec i s)).map fun t => t.status.toWord

/-! ## One-step tests of the commands -/

/-- 95 V17, first row. -/
theorem test_tblw_writes :
    (nextOf (exec (.tblw 0#4 0#9 58#7) State.reset)).map
      (fun t => (t.status.toWord, tableGet t.tbl .ip 0, tableGet t.wr .ip 0, tableGet t.wr .ip 1)) =
      some (0x02#32, some 58#7, some true, some false) := by decide +kernel

/-- 95 V17, the rows that report an error. -/
theorem test_tblw_errors :
    statusAfter (.tblw 5#4 16#9 1#7) State.reset = some 0x20#32 ∧
    statusAfter (.tblw 6#4 0#9 0#7) (readyWith 0#16) = some 0x44#32 ∧
    statusAfter (.tblw 0#4 64#9 1#7) (readyWith 0#16) = some 0x44#32 ∧
    (nextOf (commandWrite 0x00000801#32 (readyWith 0#16))).map (fun t => t.status.toWord) = some 0x34#32 := by
  decide +kernel

/-- 95 V18: nothing written; the defaults; the defaults again. -/
theorem test_tblc_commits :
    statusAfter .tblc State.reset = some 0x10#32 ∧
    statusAfter .tblc { readyWith 0 with status := State.reset.status } = some 0x06#32 ∧
    statusAfter .tblc (readyWith 0#16) = some 0x06#32 := by decide +kernel

/-- 95 V18: `LS` entry 1 is 28; a duplicate in `IP`. -/
theorem test_tblc_checks_ranges_only :
    statusAfter .tblc
      { readyWith 0 with status := State.reset.status, tbl := tableSet defaultTables .ls 0 28#7 } = some 0x10#32 ∧
    statusAfter .tblc
      { readyWith 0 with status := State.reset.status, tbl := tableSet defaultTables .ip 1 58#7 } = some 0x06#32 := by
  decide +kernel

/-- 95 V5, encryption: `DOUT` and `STATUS` after the core step. -/
theorem test_desb_encrypts :
    (nextOf (exec (.desb .enc)
      { readyWith 0 with din := 0x0123456789ABCDEF#64, dkey := 0x133457799BBCDFF1#64 })).map
      (fun t => (t.status.toWord, (desbStep vectorParams t).dout, (desbStep vectorParams t).status.toWord)) =
      some (0x05#32, 0x20F4B1741185418A#64, 0x06#32) := by decide +kernel

/-- 95 V5, decryption of the same block (95 V16: `STATUS`). -/
theorem test_desb_decrypts :
    (nextOf (exec (.desb .dec)
      { readyWith 0 with din := 0x0123456789ABCDEF#64, dkey := 0x133457799BBCDFF1#64 })).map
      (fun t => (desbStep vectorParams t).dout) = some 0x1D99A0EFE9A464FD#64 ∧
    statusAfter (.desb .enc) State.reset = some 0x10#32 := by decide +kernel

/-- 95 V25. The draws are free values: the test says only which three they are. -/
theorem test_ivgen_draws :
    (nextOf (exec .ivgen State.reset)).map (fun t => (t.status.toWord, t.iv1, t.iv3, t.draws)) =
      some (0x02#32, Config.ivSource 0, Config.ivSource 2, 3) ∧
    statusAfter .ivgen (readyWith 0#16) = some 0x06#32 := ⟨rfl, by decide +kernel⟩

/-- 95 V21: the first block of `PASS ENC, K1, IV1` and the vector it hands on. -/
theorem test_pass_first_block :
    (fun t => (t.status.toWord, readBlock (passStep vectorParams t).mem 0, (passStep vectorParams t).vec.s1,
        (passStep vectorParams t).idx.s1))
      (passBody vectorParams .enc .k1 1#2 (v20With 3)) =
      (0x05#32, 0xFC8677A20DFF4830#64, 0xFC8677A20DFF4830#64, 1) := by decide +kernel

/-- 95 V24. -/
theorem test_pass_errors :
    (passBody vectorParams .enc .k1 1#2 (readyWith 0#16)).status.toWord = 0x24#32 ∧
    (passBody vectorParams .enc .k1 1#2 (readyWith 5)).status.toWord = 0x24#32 ∧
    (passBody vectorParams .enc .k1 1#2 State.reset).status.toWord = 0x10#32 ∧
    (passBody vectorParams .enc .k1 0#2 (readyWith 3)).status.toWord = 0x34#32 := by decide +kernel

/-- 95 V29, the acceptance of EDEE and stage 1's step on block 0. -/
theorem test_edee_first_step :
    (fun t => (t.status.toWord, readBlock (stageStep vectorParams .s1 t).mem 0, (stageStep vectorParams .s1 t).vec.s1,
        readSlots (stageStep vectorParams .s1 t).sem 0, readSlots (stageStep vectorParams .s1 t).sem 1,
        enabledStages (stageStep vectorParams .s1 t)))
      (tripleBody vectorParams .edee .conc (edeePasses (v20With 2)) (v20With 2)) =
      (0x05#32, 0xFC8677A20DFF4830#64, 0xFC8677A20DFF4830#64, { s1 := false, s2 := true, s3 := false },
        { s1 := true, s2 := false, s3 := false }, [.s1, .s2]) := by decide +kernel

/-- 95 V33, and 95 V29: in sequential mode only stage 1 is enabled after the first step. -/
theorem test_edee_errors_and_mode :
    statusAfter (.edee .seq) State.reset = some 0x10#32 ∧ statusAfter (.edee .conc) (readyWith 0#16) = some 0x24#32 ∧
    enabledStages (stageStep vectorParams .s1
      (tripleBody vectorParams .edee .seq (edeePasses (v20With 2)) (v20With 2))) = [.s1] := by decide +kernel

/-- 95 V29, stage 1's step of EDED on the first block of the ciphertext. -/
theorem test_eded_first_step :
    (fun s => readBlock (stageStep vectorParams .s1
        (tripleBody vectorParams .eded .conc (ededPasses s) s)).mem 0)
      { v20With 2 with mem := writeBlocks [] 0 [0x877D22250D57F180#64, 0x310813472E990E2E#64] } =
      0x2D636564289B6AC3#64 := by decide +kernel

/-- 95 V33. -/
theorem test_eded_errors :
    statusAfter (.eded .seq) State.reset = some 0x10#32 ∧
    (tripleBody vectorParams .eded .seq (ededPasses (readyWith 5)) (readyWith 5)).status.toWord = 0x24#32 := by
  decide +kernel

/-! ## The cipher core and the window -/

/-- 95 V11: the whole S-layer by either reading, and 95 V14, V13. -/
theorem test_sbox_layer :
    sboxLayer .msbFirst defaultTables.sb 0x6117BA866527#48 = 0x5C82B597#32 ∧
    sboxLayer .lsbFirst defaultTables.sb 0x6117BA866527#48 = 0x1E8CB003#32 := by decide +kernel

theorem test_key_path :
    reduceKey 0x133457799BBCDFF1#64 = 0x12695BC9B7B7F8#56 ∧ reduceKey 0x0000000000000002#64 = 1#56 ∧
    rotl28 0xF0CCAAF#28 1 = 0xE19955F#28 ∧ rotr28 0x8000001#28 1 = 0xC000000#28 := by decide +kernel

/-- 95 V15: the last subkey of an encryption and the first of the decryption. -/
theorem test_key_schedule :
    (keySchedule defaultTables 0x133457799BBCDFF1#64 false)[15]? = some 0x3039B6C9BE6F#48 ∧
    (keySchedule defaultTables 0x133457799BBCDFF1#64 true)[0]? = some 0x3039B6C9BE6F#48 := by decide +kernel

/-- 95 V1 and V12, the zero key and block by either reading. -/
theorem test_transform_zero :
    transform .msbFirst defaultTables 0#64 0#64 false = 0x8CA64DE9C1B123A7#64 ∧
    transform .lsbFirst defaultTables 0#64 0#64 false = 0x92C6E04E7EF6CE21#64 := by decide +kernel

/-- 95 P2: `LDBLK 0` and a read of each half; byte 0 of the block is its most significant (20 R77). -/
theorem test_window_block_words :
    (fun s => (readBlock s.mem 0, currentWord (registerAt vectorParams 0x80004) s, readByte s.mem 0x80000,
        registerAt vectorParams 0x80020))
      (writeReg (registerAt vectorParams 0x80004) 0x6F2C2044#32
        (writeReg (registerAt vectorParams 0x80000) 0x48656C6C#32 State.reset)) =
      (0x48656C6C6F2C2044#64, 0x6F2C2044#32, 0x48#8, .reserved) := by decide +kernel

/-- 95 E3 and V20: the message of V20 framed and put together again. -/
theorem test_framing :
    frame [0x48, 0x65, 0x6C, 0x6C, 0x6F, 0x2C, 0x20, 0x44, 0x45, 0x53, 0x33, 0x20, 0x63, 0x6F, 0x72, 0x65, 0x21] =
      [0x48656C6C6F2C2044#64, 0x45533320636F7265#64, 0x2100000000000000#64] ∧
    reassemble 3 [0x48656C6C6F2C2044#64] = [0x48#8, 0x65#8, 0x6C#8] := by decide +kernel

/-! ## Witnesses: states and operands that meet the hypotheses of the statements

`readyState` is idle with one block; `runState` runs EDEE over it, `lastState` is before its last step, and `passState`
and `desbState` run PASS and DESB. -/

theorem nblkMax_pos : 1 ≤ Config.params.nblkMax := Nat.le_add_left 1 _

/-- Idle, the default tables committed, one block. -/
def readyState : State := readyWith 1#16

theorem readyState_tables : tablesReady readyState.tbl readyState.wr = true := by decide +kernel

theorem readyState_inv : Inv Config.params readyState :=
  .of_idle rfl rfl (fun _ => readyState_tables)
    ⟨storeWf_nil _, fun _ h => absurd h List.not_mem_nil, storeWf_nil _, fun _ => rfl⟩

theorem readyState_ready : ReadyToRun Config.params readyState := ⟨rfl, rfl, Nat.le_refl _, nblkMax_pos⟩

/-- EDEE or EDED accepted in `s`, as 43 R286 writes it. -/
def started (op : RunOp) (mode : Mode) (pp : PerStage PassParams) (s : State) : State :=
  { s with
    pp := pp, vec := { s1 := pp.s1.iv, s2 := pp.s2.iv, s3 := pp.s3.iv }, idx := { s1 := 0, s2 := 0, s3 := 0 }
    sem := freshSem s.sem s.nblk.toNat, run := { s.run with op := op, mode := mode }
    status := { busy := true, done := false, tblOk := true, err := .noError } }

theorem tripleBody_started {s : State} (h : ReadyToRun Config.params s) (op : RunOp) (mode : Mode)
    (pp : PerStage PassParams) : tripleBody Config.params op mode pp s.accepted = started op mode pp s := by
  have hn : nblkRefused Config.params s.accepted.nblk = false := nblkRefused_eq_false.mpr h.range
  rcases tripleBody_cases Config.params op mode pp s.accepted with ⟨ho, -⟩ | ⟨-, h1, -⟩ | ⟨-, -, e⟩
  · exact absurd (h.tablesOk.symm.trans ho) (by decide)
  · exact absurd (hn.symm.trans h1) (by decide)
  · rw [e]
    have hs : s.accepted.status.started = { busy := true, done := false, tblOk := true, err := .noError } := by
      have := h.tablesOk
      simp [State.accepted, Status.accepted, Status.started, this]
    rw [hs]
    rfl

theorem exec_edee_started {s : State} (h : ReadyToRun Config.params s) (mode : Mode) :
    exec (.edee mode) s = .next (started .edee mode (edeePasses s) s) := by
  rw [exec_eq_issue, issue_of_idle h.idle]
  exact congrArg _ (tripleBody_started h .edee mode _)

theorem exec_eded_started {s : State} (h : ReadyToRun Config.params s) (mode : Mode) :
    exec (.eded mode) s = .next (started .eded mode (ededPasses s) s) := by
  rw [exec_eq_issue, issue_of_idle h.idle]
  exact congrArg _ (tripleBody_started h .eded mode _)

theorem started_inv {s : State} (hi : Inv Config.params s) (h : ReadyToRun Config.params s) (mode : Mode) :
    Inv Config.params (started .edee mode (edeePasses s) s) ∧ Inv Config.params (started .eded mode (ededPasses s) s) := by
  rw [← tripleBody_started h, ← tripleBody_started h]
  exact ⟨tripleBody_keeps (hi.accepted h.idle) h.idle rfl rfl _ _ _ (.inl ⟨rfl, rfl⟩),
    tripleBody_keeps (hi.accepted h.idle) h.idle rfl rfl _ _ _ (.inr ⟨rfl, rfl⟩)⟩

/-- EDEE SEQ over one block, just accepted. -/
def runState : State := started .edee .seq (edeePasses readyState) readyState

theorem runState_inv : Inv Config.params runState := (started_inv readyState_inv readyState_ready _).1

theorem runState_runs : tripleRuns runState := .inl rfl

/-- The same run with only stage 3's step left. -/
def lastState : State := coreStep Config.params .s2 (coreStep Config.params .s1 runState)

theorem lastState_inv : Inv Config.params lastState :=
  coreStep_keeps (coreStep_keeps runState_inv (by decide +kernel)) (by decide +kernel)

/-- PASS over one block, just accepted. -/
def passState (dir : Dir) : State :=
  { readyState with
    pp := { readyState.pp with s1 := { dir := dir, k := 0#64, iv := 0#64 } }
    idx := { s1 := 0, s2 := 1, s3 := 1 }, run := { readyState.run with op := .pass, mode := .seq }
    status := { busy := true, done := false, tblOk := true, err := .noError } }

theorem passState_inv (dir : Dir) : Inv Config.params (passState dir) where
  status := ⟨fun _ => rfl, fun _ => rfl, by simp [passState], fun _ => rfl⟩
  tables := fun _ => readyState_tables
  stores := storesInv_of_same readyState_inv.stores rfl rfl
  desb := by simp [DesbInv, passState]
  pass := fun _ => ⟨readyState_ready.range, rfl, Nat.zero_lt_one, rfl, rfl⟩
  triple := by simp [tripleRuns, passState]

/-- DESB on zero operands, just accepted. -/
def desbState : State :=
  { readyState with
    idx := { s1 := 1, s2 := 1, s3 := 1 }
    run := { readyState.run with op := .desb }
    status := { busy := true, done := false, tblOk := true, err := .noError } }

theorem defaultTables_legal : tablesLegal defaultTables := by
  intro t
  cases t <;> decide +kernel

theorem defaultTables_shifts : rsMatchesLs defaultTables.ls.toList defaultTables.rs.toList := by
  unfold rsMatchesLs
  decide +kernel

theorem defaultTables_inverse : fpInvertsIp defaultTables := by
  have h : ∀ i, i < 65 → 1 ≤ i →
      (defaultTables.ip.toList.getD ((defaultTables.fp.toList.getD (i - 1) 0#7).toNat - 1) 0#7).toNat = i ∧
      (defaultTables.fp.toList.getD ((defaultTables.ip.toList.getD (i - 1) 0#7).toNat - 1) 0#7).toNat = i := by
    decide +kernel
  exact fun i h1 h2 => h i (by omega) h1

/-- The default tables are invertible (40 R156). -/
theorem defaultTables_invertible : InvertibleTables defaultTables :=
  ⟨defaultTables_legal, defaultTables_inverse, defaultTables_shifts⟩

/-! ### Encoding and issuing -/

theorem witness_DecodeOfEncodeIsTheCommand :
    Instr.wellFormed (.tblw 7#4 511#9 127#7) = true ∧ decode (encode (.tblw 7#4 511#9 127#7)) = .ok (.tblw 7#4 511#9 127#7) := by
  decide

theorem witness_EncodeOfDecodeIsTheWord :
    decode 0x00000F05#32 = .ok (.pass .dec .k2 3#2) ∧ encode (.pass .dec .k2 3#2) = 0x00000F05#32 := by decide

/-- One word for each clause of `illegalWord`, at the boundary of its range. -/
theorem witness_illegalWord :
    illegalWord 0x00000000#32 ∧ illegalWord 0x00000008#32 ∧ illegalWord 0xFFFFFFFF#32 ∧ illegalWord 0x00000801#32 ∧
    illegalWord 0x10000001#32 ∧ illegalWord 0x00000102#32 ∧ illegalWord 0x80000004#32 ∧ illegalWord 0x00000203#32 ∧
    illegalWord 0x00000206#32 ∧ illegalWord 0x80000007#32 ∧ illegalWord 0x00001405#32 ∧ illegalWord 0x00000005#32 ∧
    ¬ illegalWord 0x0FFFF701#32 ∧ ¬ illegalWord 0x00000405#32 := by
  refine ⟨?_, ?_, ?_, ?_, ?_, ?_, ?_, ?_, ?_, ?_, ?_, ?_, ?_, ?_⟩ <;> unfold illegalWord <;> decide

theorem witness_StepRunsTheDecodedCommand :
    decode 0x07400001#32 = .ok (.tblw 0#4 0#9 58#7) ∧ BitVec.ofNat 32 0x07400001 = 0x07400001#32 ∧
    0x07400001 < 2 ^ 32 ∧
    { State.reset with events := [Event.write 0 4 0x07400001#32] }.events = [Event.write 0x00000 4 0x07400001#32] := by
  decide

theorem witness_IllegalWordRaisesIllegal :
    State.reset.status.busy = false ∧ illegalWord 0x00000008#32 := ⟨rfl, witness_illegalWord.2.1⟩

theorem witness_WritesWhileBusyChangeNothing :
    runState.status.busy = true ∧ (0 < windowSize ∧ 0 % 4 = 0) ∧ (0xFFFFC < windowSize ∧ 0xFFFFC % 4 = 0) := by decide

theorem witness_AcceptanceForgetsThePreviousOutcome :
    State.reset.status.busy = false ∧ (∃ t, step State.reset = .next t) ∧
    (∀ size v rest, State.reset.events ≠ Event.write 0x00000 size v :: rest) ∧
    (∀ d rest, State.reset.events ≠ Event.reset d :: rest) :=
  ⟨rfl, ⟨_, step_of_no_event rfl⟩, by simp [State.reset], by simp [State.reset]⟩

/-! ### Errors and tables -/

/-- Every outcome is met: each error, and none; and a busy state. -/
theorem witness_ErrorsByPriorityAndNothingElse :
    State.reset.status.busy = false ∧ readyState.status.busy = false ∧ runState.status.busy = true ∧
    expectedError readyState (.tblw 8#4 0#9 0#7) = .illegal ∧ expectedError readyState (.tblw 7#4 511#9 0#7) = .locked ∧
    expectedError State.reset (.tblw 5#4 16#9 0#7) = .struct ∧ expectedError State.reset (.tblw 5#4 15#9 0#7) = .noError ∧
    expectedError State.reset (.edee .seq) = .cfg ∧ expectedError { readyState with nblk := 0#16 } (.eded .conc) = .struct ∧
    expectedError readyState (.pass .enc .k1 0#2) = .illegal ∧ expectedError readyState .tblc = .noError := by
  decide +kernel

theorem witness_ErrorsNoneOfRun : expectedError readyState (.edee .seq) = .noError := by
  have : badCount readyState = false := by
    have h : ¬ Config.nblkMax < 1 := Nat.not_lt.mpr nblkMax_pos
    simp only [badCount, Bool.or_eq_false_iff, decide_eq_false_iff_not]
    exact ⟨by decide, h⟩
  simp only [expectedError, runError, this]
  decide

theorem witness_RetryFailsAgain :
    ∃ t, State.reset.status.busy = false ∧ exec (.desb .enc) State.reset = .next t ∧ t.status.err ≠ .noError :=
  ⟨errorState .cfg State.reset, rfl, rfl, by decide⟩

theorem witness_CommandsChangeOnlyTheirState : ∀ i, ∃ t, exec i readyState = .next t := by
  intro i
  rcases exec_cases i readyState with ⟨-, h⟩ | ⟨-, h⟩ <;> exact ⟨_, h⟩

theorem witness_TblwWritesOneEntry :
    (State.reset.status.busy = false ∧ State.reset.status.tblOk = false) ∧
    (readyState.status.busy = false ∧ readyState.status.tblOk = true) ∧
    (8 ≤ (8#4).toNat ∧ 8 ≤ (15#4).toNat) ∧
    (0#4 = tidOfTable .ip ∧ (0#9).toNat < TableId.size .ip ∧ (63#9).toNat < TableId.size .ip ∧
      TableId.size .ip ≤ (64#9).toNat) ∧
    (7#4 = tidOfTable .sb ∧ (511#9).toNat < TableId.size .sb) ∧
    ((0x10000001#32).extractLsb' 0 8 = 0x01#8 ∧ (0x10000001#32).extractLsb' 28 4 ≠ 0#4) := by decide

theorem witness_TblcCommitsCompleteTables :
    (readyState.status.busy = false ∧ readyState.status.tblOk = true) ∧
    (State.reset.status.busy = false ∧ State.reset.status.tblOk = false ∧ 0 < TableId.size .ip ∧
      tableGet State.reset.wr .ip 0 = some false) ∧
    (tableGet (tableSet defaultTables .ls 15 28#7) .ls 15 = some 28#7 ∧ legalEntry .ls 28#7 = false ∧
      15 < TableId.size .ls) ∧
    ((0x00000102#32).extractLsb' 0 8 = 0x02#8 ∧ (0x00000102#32).extractLsb' 8 24 ≠ 0#24) := by decide +kernel

/-- The complete set of the second clause. -/
theorem witness_TblcCompleteTables :
    { readyState with status := State.reset.status }.status.tblOk = false ∧ ∀ t i, i < TableId.size t →
      tableGet readyState.wr t i = some true ∧ ∃ v, tableGet readyState.tbl t i = some v ∧ legalEntry t v = true :=
  ⟨rfl, (tablesReady_iff _ _).mp readyState_tables⟩

theorem witness_CommittedTablesAreImmutable :
    readyState.status.tblOk = true ∧ readyState.status.busy = false ∧ (7#4).toNat < 8 ∧
    (∀ d rest, readyState.events ≠ Event.reset d :: rest) ∧ ∃ t, step readyState = .next t :=
  ⟨rfl, rfl, by decide, by simp [readyState, readyWith, State.reset], ⟨_, step_of_no_event rfl⟩⟩

/-! ### The cipher core -/

theorem witness_ReducedKeyKeepsSevenBitsOfEight :
    (∀ i, i = 1 ∨ i = 7 ∨ i = 8 ∨ i = 56 → 1 ≤ i ∧ i ≤ 56) ∧
    dbit (reduceKey 0x0000000000000002#64) 56 = dbit 0x0000000000000002#64 63 := ⟨by omega, by decide +kernel⟩

theorem witness_RotationsAreThoseOfRule13 : (27 ≤ 27 ∧ 1 ≤ 1 ∧ 1 + 27 ≤ 28) ∧ (0 ≤ 27 ∧ 1 ≤ 28 ∧ 28 + 0 ≤ 28) := by decide

theorem witness_SboxLanesSelectTheirCells : (1 ≤ 1 ∧ 1 ≤ 8) ∧ (1 ≤ 8 ∧ 8 ≤ 8) := by decide

theorem witness_KeyScheduleIsSymmetric :
    rsMatchesLs defaultTables.ls.toList defaultTables.rs.toList ∧ 0 < 16 ∧ 15 < 16 :=
  ⟨defaultTables_shifts, by decide, by decide⟩

theorem witness_DecryptingUndoesEncrypting : InvertibleTables defaultTables := defaultTables_invertible

theorem witness_DroppedKeyBitsDoNotMatter :
    (∀ i, i < 65 → 1 ≤ i → i % 8 ≠ 0 → dbit 0x0000000000000000#64 i = dbit 0x0101010101010101#64 i) ∧
    (halfC (reduceKey 0#64) = 0#28 ∧ halfD (reduceKey 0#64) = 0#28) ∧
    (halfC (reduceKey 0xFEFEFEFEFEFEFEFE#64) = BitVec.allOnes 28 ∧
      halfD (reduceKey 0xFEFEFEFEFEFEFEFE#64) = BitVec.allOnes 28) := by decide +kernel

theorem witness_ComplementedInputsComplementTheOutput : tablesLegal defaultTables := defaultTables_legal

theorem witness_DefaultRightShiftsAreTheOnlyMatch :
    ∃ rs : List Entry, rs.length = 16 ∧ (∀ v ∈ rs, v.toNat ≤ 27) ∧
      rs.map BitVec.toNat = [0, 1, 2, 2, 2, 2, 2, 2, 1, 2, 2, 2, 2, 2, 2, 1] :=
  ⟨defaultTables.rs.toList, by decide +kernel, by decide +kernel, by decide +kernel⟩

theorem witness_DesbTransformsOneBlock :
    (State.reset.status.busy = false ∧ State.reset.status.tblOk = false) ∧
    (readyState.status.busy = false ∧ readyState.status.tblOk = true ∧ readyState.events = []) ∧
    ((0x00000203#32).extractLsb' 0 8 = 0x03#8 ∧ (0x00000203#32).extractLsb' 9 23 ≠ 0#23) := by decide

/-! ### Chaining -/

theorem witness_IvgenDrawsThreeIvs :
    State.reset.status.busy = false ∧ (0x80000004#32).extractLsb' 0 8 = 0x04#8 ∧
    (0x80000004#32).extractLsb' 8 24 ≠ 0#24 := by decide

theorem witness_PassStartsOneChainingPass :
    ReadyToRun Config.params readyState ∧ 1#2 ≠ 0#2 ∧ 2#2 ≠ 0#2 ∧ 3#2 ≠ 0#2 :=
  ⟨readyState_ready, by decide, by decide, by decide⟩

/-- Both directions, on the last block. -/
theorem witness_PassStepRewritesOneBlock (dir : Dir) :
    Inv Config.params (passState dir) ∧ (passState dir).run.op = .pass ∧ (passState dir).pp.s1.dir = dir ∧
    (passState dir).idx.s1 + 1 = (passState dir).nblk.toNat :=
  ⟨passState_inv dir, rfl, rfl, rfl⟩

/-- A pass with a block left after this one, where the hardware has a second block cell. -/
theorem witness_PassStepBeforeTheLast (h : 2 ≤ Config.params.nblkMax) :
    Inv Config.params { passState .enc with nblk := 2#16, idx := { s1 := 0, s2 := 2, s3 := 2 } } where
  status := ⟨fun _ => rfl, fun _ => rfl, by simp [passState], fun _ => rfl⟩
  tables := fun _ => readyState_tables
  stores := storesInv_of_same readyState_inv.stores rfl rfl
  desb := by simp [DesbInv, passState]
  pass := fun _ => ⟨⟨by decide, h⟩, rfl, by decide, rfl, rfl⟩
  triple := by simp [tripleRuns, passState]

theorem witness_PassRunsOverEveryBlock :
    Inv Config.params readyState ∧ ReadyToRun Config.params readyState ∧ 3#2 ≠ 0#2 ∧ readyState.events = [] ∧
    ∃ u, exec (.pass .enc .k1 3#2) readyState = .next u :=
  ⟨readyState_inv, readyState_ready, by decide, rfl, witness_CommandsChangeOnlyTheirState _⟩

theorem witness_DecryptingPassUndoesEncryptingPass :
    InvertibleTables defaultTables ∧ Config.params.decVectorInit = .iv := ⟨defaultTables_invertible, rfl⟩

/-- Lists that agree at `j` and `j - 1` and differ elsewhere; and at `j = 0`. -/
theorem witness_OutputsDependOnFewBlocks :
    ([1#64, 2#64, 3#64].length = [9#64, 2#64, 3#64].length ∧ [1#64, 2#64, 3#64][2]? = [9#64, 2#64, 3#64][2]? ∧
      [1#64, 2#64, 3#64][1]? = [9#64, 2#64, 3#64][1]?) ∧
    ([1#64, 2#64].length = [1#64, 5#64].length ∧ [1#64, 2#64][0]? = [1#64, 5#64][0]? ∧
      ∀ m, m ≤ 0 → [1#64, 2#64][m]? = [1#64, 5#64][m]?) := by decide

/-! ### The pipeline -/

theorem witness_EdeeStartsThreeStages : ReadyToRun Config.params readyState ∧ storeWf noSlots readyState.sem :=
  ⟨readyState_ready, storeWf_nil _⟩

theorem witness_EdedStartsThreeStages :
    ReadyToRun Config.params { readyState with sem := [(3, freshSlots)] } ∧
    storeWf noSlots [(3, freshSlots)] := ⟨⟨rfl, rfl, Nat.le_refl _, nblkMax_pos⟩, by decide⟩

/-- Stage 1 steps and stage 2 does not; EDEE's stage 1 encrypts and EDED's decrypts; and the last step of a run, stage
3's, completes it. -/
theorem witness_StageStepHandsOneBlockOn :
    (Inv Config.params runState ∧ tripleRuns runState ∧ stageReady runState .s1 = true ∧
      stageReady runState .s2 = false ∧ (runState.pp.get .s1).dir = .enc) ∧
    (Inv Config.params (started .eded .conc (ededPasses readyState) readyState) ∧
      tripleRuns (started .eded .conc (ededPasses readyState) readyState) ∧
      ((started .eded .conc (ededPasses readyState) readyState).pp.get .s1).dir = .dec) ∧
    (Inv Config.params lastState ∧ tripleRuns lastState ∧ stageReady lastState .s3 = true ∧
      (stageTurn Config.params .s3 lastState).idx = { s1 := 1, s2 := 1, s3 := 1 } ∧ lastState.nblk.toNat = 1) :=
  ⟨⟨runState_inv, runState_runs, by decide +kernel, by decide +kernel, rfl⟩,
    ⟨(started_inv readyState_inv readyState_ready _).2, .inr rfl, rfl⟩,
    lastState_inv, .inl rfl, by decide +kernel, by decide +kernel, rfl⟩

/-- The two clauses on the later stages are met before stage 3's step: stage 3 is enabled. -/
theorem witness_SequentialModeEnablesOneStage :
    (Inv Config.params runState ∧ tripleRuns runState ∧ runState.run.mode = .seq) ∧
    enabled (coreStep Config.params .s1 runState) .s2 = true ∧ enabled lastState .s3 = true :=
  ⟨⟨runState_inv, runState_runs, rfl⟩, by decide +kernel, by decide +kernel⟩

theorem witness_TripleRunNeverDeadlocks :
    Inv Config.params runState ∧ tripleRuns runState ∧ runState.events = [] := ⟨runState_inv, runState_runs, rfl⟩

theorem lastState_completes : ∃ t, step lastState = .next t ∧ t.run.op = .none :=
  ⟨_, step_of_no_event rfl, by decide +kernel⟩

theorem witness_OneSlotAvailableThenSlotOne :
    Inv Config.params lastState ∧ tripleRuns lastState ∧ (∀ d rest, lastState.events ≠ Event.reset d :: rest) ∧
    0 < lastState.nblk.toNat ∧ ∃ t, step lastState = .next t ∧ t.run.op = .none :=
  ⟨lastState_inv, .inl rfl, fun d rest h => absurd (show [] = Event.reset d :: rest from h) (by simp), by decide,
    lastState_completes⟩

theorem witness_CompletionIsTheLastStepOfStageThree :
    (Inv Config.params lastState ∧ tripleRuns lastState ∧ enabled lastState .s3 = true ∧
      (coreStep Config.params .s3 lastState).run.op = .none) ∧
    (Inv Config.params runState ∧ tripleRuns runState ∧ enabled runState .s1 = true ∧
      (coreStep Config.params .s1 runState).run.op ≠ .none) :=
  ⟨⟨lastState_inv, .inl rfl, by decide +kernel, by decide +kernel⟩, runState_inv, runState_runs, by decide +kernel,
    by decide +kernel⟩

theorem witness_AcceptedRunStartsOnTheBlocks :
    Inv Config.params readyState ∧ ReadyToRun Config.params readyState ∧
    exec (.edee .seq) readyState = .next runState := ⟨readyState_inv, readyState_ready, exec_edee_started readyState_ready _⟩

theorem witness_EveryStepKeepsTheRunOnItsPasses :
    Inv Config.params runState ∧ tripleRuns runState ∧ RunOver Config.params [0#64] runState ∧
    (∀ d rest, runState.events ≠ Event.reset d :: rest) ∧ ∃ t, step runState = .next t := by
  refine ⟨runState_inv, runState_runs, ⟨rfl, fun j hj => ?_, rfl, rfl, rfl⟩, fun d rest h => ?_, _, step_of_no_event rfl⟩
  · have : j = 0 := by
      have : j < 1 := hj
      omega
    subst this
    decide +kernel
  · exact absurd (show [] = Event.reset d :: rest from h) (by simp)

/-- `u` is busy for three steps, and then idle. -/
theorem runs_three {u : State} (h0 : u.status.busy = true)
    (h1 : ((nextOf (runSteps 1 u)).map fun t => t.status.busy) = some true)
    (h2 : ((nextOf (runSteps 2 u)).map fun t => t.status.busy) = some true)
    (h3 : ((nextOf (runSteps 3 u)).map fun t => t.status.busy) = some false) :
    busyBefore 3 u ∧ ∃ t, runSteps 3 u = .next t ∧ t.status.busy = false := by
  have key : ∀ k b, ((nextOf (runSteps k u)).map fun t => t.status.busy) = some b →
      ∃ t, runSteps k u = .next t ∧ t.status.busy = b := by
    intro k b h
    cases hr : runSteps k u with
    | next t => rw [hr] at h; exact ⟨t, rfl, Option.some.inj h⟩
    | fault r => rw [hr] at h; exact absurd h (by simp [nextOf])
    | refused r => rw [hr] at h; exact absurd h (by simp [nextOf])
  refine ⟨fun m hm => ?_, key 3 _ h3⟩
  match m, hm with
  | 0, _ => exact ⟨u, rfl, h0⟩
  | 1, _ => exact key 1 _ h1
  | 2, _ => exact key 2 _ h2

theorem witness_TripleRunResultIsScheduleFree :
    Inv Config.params readyState ∧ ReadyToRun Config.params readyState ∧ exec (.edee .seq) readyState = .next runState ∧
    (∀ e ∈ runState.events, e.noReset = true) ∧ busyBefore 3 runState ∧
    ∃ t, runSteps 3 runState = .next t ∧ t.status.busy = false :=
  ⟨readyState_inv, readyState_ready, exec_edee_started readyState_ready _,
    fun e h => absurd (show e ∈ [] from h) List.not_mem_nil,
    runs_three rfl (by decide +kernel) (by decide +kernel) (by decide +kernel)⟩

/-- The same with a schedule and host accesses: turns of every stage, a read and an ignored command. -/
theorem witness_TripleRunUnderASchedule :
    (∀ e ∈ [Event.turn .s2, .read 0x04 4, .turn .s1, .write 0 4 7#32, .turn .s2, .turn .s3], e.noReset = true) ∧
    ((nextOf (runSteps 6 { runState with
      events := [.turn .s2, .read 0x04 4, .turn .s1, .write 0 4 7#32, .turn .s2, .turn .s3] })).map
        fun t => t.status.busy) = some false := by decide +kernel

theorem witness_TripleRunTakesThreeStepsPerBlock :
    Inv Config.params readyState ∧ ReadyToRun Config.params readyState ∧ readyState.events = [] ∧
    exec (.eded .conc) readyState = .next (started .eded .conc (ededPasses readyState) readyState) :=
  ⟨readyState_inv, readyState_ready, rfl, exec_eded_started readyState_ready _⟩

/-- The state after the run of `witness_TripleRunResultIsScheduleFree`. -/
def afterState : State := coreStep Config.params .s3 lastState

theorem runState_run : runSteps 3 runState = .next afterState := by
  rw [runSteps_succ (step_single (st := .s1) rfl (by decide +kernel)),
    runSteps_succ (step_single (st := .s2) rfl (by decide +kernel)),
    runSteps_succ (step_single (st := .s3) rfl (by decide +kernel))]
  rfl

theorem witness_EdedAfterEdeeRestoresTheBlocks :
    Inv Config.params readyState ∧ ReadyToRun Config.params readyState ∧ InvertibleTables readyState.tbl ∧
    exec (.edee .seq) readyState = .next runState ∧ busyBefore 3 runState ∧ runSteps 3 runState = .next afterState ∧
    afterState.status.busy = false ∧
    ∃ v w, exec (.eded .conc) afterState = .next v ∧ busyBefore 3 v ∧ runSteps 3 v = .next w ∧ w.status.busy = false := by
  have hr : ReadyToRun Config.params afterState := ⟨by decide +kernel, by decide +kernel, by decide +kernel, nblkMax_pos⟩
  obtain ⟨hb, w, hw, hwb⟩ := runs_three (u := started .eded .conc (ededPasses afterState) afterState) rfl
    (by decide +kernel) (by decide +kernel) (by decide +kernel)
  exact ⟨readyState_inv, readyState_ready, defaultTables_invertible, exec_edee_started readyState_ready _,
    witness_TripleRunResultIsScheduleFree.2.2.2.2.1, runState_run, by decide +kernel,
    _, w, exec_eded_started hr _, hb, hw, hwb⟩

theorem witness_EqualKeysMakeOnePass :
    InvertibleTables readyState.tbl ∧ Config.params.decVectorInit = .iv ∧
    leftKey readyState.key = rightKey readyState.key ∧ readyState.iv1 = readyState.iv2 :=
  ⟨defaultTables_invertible, rfl, by decide, rfl⟩

theorem witness_RunningCommandKeepsItsOperands :
    Inv Config.params runState ∧ runState.status.busy = true ∧ (∀ d rest, runState.events ≠ Event.reset d :: rest) ∧
    (∃ t, step runState = .next t ∧ t.status.busy = true) ∧
    (Inv Config.params lastState ∧ ∃ t, step lastState = .next t ∧ t.status.busy = false) :=
  ⟨runState_inv, rfl, fun d rest h => absurd (show [] = Event.reset d :: rest from h) (by simp),
    ⟨_, step_of_no_event rfl, by decide +kernel⟩, lastState_inv, _, step_of_no_event rfl, by decide +kernel⟩

/-! ### The window, reset and framing -/

theorem nblkMax_range : 0 < Config.nblkMax ∧ Config.nblkMax ≤ 65535 :=
  ⟨nblkMax_pos, Config.nblkMaxLessOne.isLt⟩

theorem witness_ReadsReturnTheRegisterMap :
    State.reset.run.op = .none ∧ (0x00, 0#32) ∈ windowValues State.reset ∧ (0x54, 0#32) ∈ windowValues State.reset ∧
    0 < Config.nblkMax ∧ Config.nblkMax - 1 < Config.nblkMax :=
  ⟨rfl, by decide, by decide, nblkMax_pos, Nat.sub_lt nblkMax_pos (by decide)⟩

theorem witness_WritesChangeExactlyTheirWord :
    readyState.status.busy = false ∧ Memory.wf readyState.mem ∧ 0 < Config.nblkMax ∧
    (windowWrites readyState 5#32).length = 18 := ⟨rfl, storeWf_nil _, nblkMax_pos, rfl⟩

/-- Reserved offsets on both sides of the block cells: 0x0C, 0x7FFFC, the first and the last one beyond the cells. -/
theorem witness_ReservedOffsetsReadZeroAndIgnoreWrites :
    reservedOffset 0x0C ∧ reservedOffset 0x58 ∧ reservedOffset 0x7FFFC ∧
    reservedOffset (0x80000 + 8 * Config.nblkMax) ∧ reservedOffset 0xFFFFC ∧ State.reset.status.busy = false := by
  have h := nblkMax_range
  have hw : windowSize = 0x100000 := rfl
  refine ⟨⟨by decide, by decide, by decide, by omega⟩, ⟨by decide, by decide, by decide, by omega⟩,
    ⟨by decide, by decide, by decide, by omega⟩, ⟨by omega, by omega, fun hm => ?_, by omega⟩,
    ⟨by decide, by decide, by decide, by omega⟩, rfl⟩
  simp only [namedOffsets, List.mem_cons, List.not_mem_nil, or_false] at hm
  omega

theorem witness_ReadsHaveNoSideEffect :
    ∃ t, step { State.reset with events := [Event.read 0x04 4] } = .next t ∧ t.run.op = .none ∧ t.rdata = 0#32 :=
  ⟨{ State.reset with events := [] }, rfl, rfl, rfl⟩

theorem witness_BusyReadsOfResultsAreDraws :
    ((passState .enc).run.op = .pass ∧ tripleRuns runState) ∧
    (0x80000 ≤ 0x80000 ∧ 0x80000 < 0x80000 + 8 * Config.nblkMax ∧ 0x80000 % 4 = 0) ∧
    (0x80000 ≤ 0x80000 + 8 * Config.nblkMax - 4 ∧
      0x80000 + 8 * Config.nblkMax - 4 < 0x80000 + 8 * Config.nblkMax ∧ (0x80000 + 8 * Config.nblkMax - 4) % 4 = 0) ∧
    desbState.run.op = .desb ∧ (0x04, desbState.status.toWord) ∈ windowValues desbState ∧
    ¬ (desbState.run.op = .pass ∨ tripleRuns desbState) ∧ 0 < Config.nblkMax ∧ Config.nblkMax - 1 < Config.nblkMax := by
  have h := nblkMax_range
  exact ⟨⟨rfl, runState_runs⟩, by omega, by omega, rfl, List.mem_cons_of_mem _ List.mem_cons_self,
    by simp [desbState, tripleRuns], by omega, by omega⟩

theorem witness_UndefinedAccessesHaveNoStep :
    (0x01 < windowSize ∧ (4 ≠ 4 ∨ 0x01 % 4 ≠ 0)) ∧ (0xFFFFE < windowSize ∧ (2 ≠ 4 ∨ 0xFFFFE % 4 ≠ 0)) := by decide

theorem witness_DefinedEventsAlwaysStep :
    ∀ e rest, { State.reset with events := [Event.write 0xFFFFC 4 1#32] }.events = e :: rest → e.isDefined = true := by
  intro e rest h
  obtain ⟨rfl, -⟩ := List.cons.inj h
  decide

theorem witness_EveryStepKeepsTheInvariant :
    (Inv Config.params readyState ∧ ∃ t, step readyState = .next t) ∧
    (Inv Config.params runState ∧ ∃ t, step runState = .next t) :=
  ⟨⟨readyState_inv, _, step_of_no_event rfl⟩, runState_inv, _, step_of_no_event rfl⟩

theorem witness_ReassemblyUndoesFraming :
    (0 < (frame [0x21#8]).length ∧ 7 < 8) ∧ (frame []).length = 0 ∧ (1 < (frame (List.replicate 9 0x21#8)).length ∧ 0 < 8) := by
  decide

/-! ## The step on a placed command word -/

/-- The word `DESB ENC` right after reset: CFG (95 P4, row 1); and an illegal word (95 P4, row 2). -/
theorem test_step_withFetchWord :
    (nextOf (step (State.reset.withFetchWord 32 0x00000003))).map (fun t => t.status.toWord) = some 0x10#32 ∧
    (nextOf (step (State.reset.withFetchWord 32 0x00000008))).map (fun t => t.status.toWord) = some 0x30#32 ∧
    (nextOf (step (State.reset.withFetchWord 32 0x07400001))).map (fun t => tableGet t.tbl .ip 0) =
      some (some 58#7) := by decide +kernel

end Sys2Proof.Tests
end

