-- ==== Sys2Proof/Proofs/Scope.lean ====
section
/-! PROOFS. The statement of 00_scope.md: the 28-bit rotations. The formulas come from the rotation's definition, whose
count is taken modulo 28; the movement of DES bits comes from the law of a rotation's bits, `getLsbD_rotl28`. -/

namespace Sys2Proof.Machine

/-! ## Rotations in DES bit numbers and as shifts (00 R11, R13) -/

theorem rotl28_eq_shifts (c : BitVec 28) (s : Nat) (h : s < 28) :
    rotl28 c s = ((c <<< s) ||| (c >>> (28 - s))) := by
  rw [rotl28, BitVec.rotateLeft_def, Nat.mod_eq_of_lt h]

theorem rotr28_eq_shifts (c : BitVec 28) (s : Nat) (h : s < 28) :
    rotr28 c s = ((c >>> s) ||| (c <<< (28 - s))) := by
  rw [rotr28, BitVec.rotateRight_def, Nat.mod_eq_of_lt h]

/-- A DES bit of a 28-bit value as a bit counted from the least significant one. -/
theorem dbit_eq_getLsbD (c : BitVec 28) (i : Nat) (h1 : 1 ≤ i) (h28 : i ≤ 28) : dbit c i = c.getLsbD (28 - i) := by
  rw [dbit, BitVec.getMsbD, decide_eq_true (by omega), Bool.true_and]
  congr 1; omega

/-- A left rotation moves DES bit `i + s` to DES bit `i`. -/
theorem dbit_rotl28 (c : BitVec 28) (s i : Nat) (h1 : 1 ≤ i) (h : i + s ≤ 28) :
    dbit (rotl28 c s) i = dbit c (i + s) := by
  rw [dbit_eq_getLsbD _ _ h1 (by omega), dbit_eq_getLsbD _ _ (by omega) h, getLsbD_rotl28 _ _ _ (by omega)]
  congr 1; omega

theorem rotl28_zero (c : BitVec 28) : rotl28 c 0 = c :=
  eq_of_dbit fun i h1 h28 => dbit_rotl28 c 0 i h1 h28

theorem rotr28_zero (c : BitVec 28) : rotr28 c 0 = c := by
  rw [← rotl28_eq_rotr28 c 0 0 rfl, rotl28_zero]

/-- Settles O16: the formulas are the rotation's definition at a count below 28, a left rotation's DES bits are those of
`dbit_rotl28`, and the identity is its case of count 0. -/
theorem rotationsAreThoseOfRule13 : Obligations.RotationsAreThoseOfRule13 := by
  intro c s hs
  have hlt : s < 28 := Nat.lt_succ_of_le hs
  exact ⟨rotl28_eq_shifts c s hlt, rotr28_eq_shifts c s hlt, dbit_rotl28 c s, rotl28_zero c, rotr28_zero c⟩

end Sys2Proof.Machine
end

