-- ==== Sys2Proof/Proofs/State.lean ====
section
/-! PROOFS. The statements of 10_state.md: the word of `STATUS`, the reset values, and the invariant of the core. The
laws of the invariant treat the operations one by one; here they are put together along the agents of 60 R345 to one
statement about `step`. -/

namespace Sys2Proof.Machine

/-! ## The word of STATUS (10 R31) -/

theorem toWord_done (f : Status) : f.toWord.getLsbD 1 = f.done := by
  simp only [Status.toWord, BitVec.getLsbD_append]
  simp

theorem toWord_tblOk (f : Status) : f.toWord.getLsbD 2 = f.tblOk := by
  simp only [Status.toWord, BitVec.getLsbD_append]
  simp

theorem toWord_bit3 (f : Status) : f.toWord.getLsbD 3 = false := by
  simp only [Status.toWord, BitVec.getLsbD_append]
  simp

/-- Bits 7 to 4 are the code of the error. -/
theorem toWord_err (f : Status) : f.toWord.extractLsb' 4 4 = f.err.code := by
  apply BitVec.eq_of_getLsbD_eq
  intro i hi
  simp only [Status.toWord, BitVec.getLsbD_extractLsb', BitVec.getLsbD_append]
  simp [hi]

theorem toWord_high (f : Status) : f.toWord.extractLsb' 8 24 = 0#24 := by
  apply BitVec.eq_of_getLsbD_eq
  intro i hi
  simp only [Status.toWord, BitVec.getLsbD_extractLsb', BitVec.getLsbD_append]
  simp [hi]

/-- Settles O45: the fields one by one, the error through its code (60 R332). -/
theorem statusWordHasItsFields : Obligations.StatusWordHasItsFields := by
  intro f
  have code : ∀ c, f.err = c → f.toWord.extractLsb' 4 4 = c.code := fun c h => h ▸ toWord_err f
  exact ⟨toWord_busy f, toWord_done f, toWord_tblOk f, toWord_bit3 f, toWord_high f,
    code .noError, code .cfg, code .struct, code .illegal, code .locked⟩

/-! ## The reset values (10 R49) -/

theorem tableGet_filled {α : Type} (v : α) (t : TableId) (i : Nat) (h : i < t.size) :
    tableGet (TableStore.filled v) t i = some v := by
  cases t <;> simp only [TableId.size] at h <;> simp [tableGet, TableStore.filled, h]

theorem readBlock_nil (j : Nat) : readBlock [] j = 0#64 := by
  simp [readBlock, readWord, readByte, unlistedByte]

/-- The blocks after reset are the drawn ones (10 R50). -/
theorem readBlock_afterReset (P : Params) (d : ResetDraw) (s : State) {j : Nat} (hj : j < P.nblkMax) :
    readBlock (afterReset P d s).mem j = d.blk.getD j 0#64 := by
  show readBlock (writeBlocks [] 0 (d.blk.take P.nblkMax)) j = _
  rw [readBlock_writeBlocks (storeWf_nil _)]
  by_cases hl : j < d.blk.length
  · rw [if_pos (by simp; omega)]
    simp [List.getD_eq_getElem?_getD, hj]
  · rw [if_neg (by simp; omega), List.getD_eq_default _ _ (by omega), readBlock_nil]

/-- Settles O53: the step is `afterReset`, whose every field but `WR` and `BLK` is the table's value as it stands. -/
theorem resetSetsEveryControlRegister : Obligations.ResetSetsEveryControlRegister := by
  intro s d rest
  exact ⟨afterReset Config.params d { s with events := rest }, rfl, rfl, rfl, tableGet_filled false,
    rfl, rfl, rfl, fun _ => rfl, rfl, rfl, rfl, rfl, rfl, rfl, rfl, rfl, rfl, rfl, rfl,
    fun _ hj => readBlock_afterReset Config.params d _ hj⟩

/-! ## The invariant -/

/-- Settles O54: the state is idle, its tables are not committed, and its stores are empty. -/
theorem invariantHoldsAfterReset : Obligations.InvariantHoldsAfterReset :=
  .of_idle rfl rfl (fun h => absurd h (by decide))
    ⟨storeWf_nil _, fun _ h => absurd h List.not_mem_nil, storeWf_nil _, fun _ => rfl⟩

section

variable {P : Params} {s t : State}

/-- The model's own `events` is no part of the invariant. -/
theorem Inv.withEvents (h : Inv P s) (ev : List Event) : Inv P { s with events := ev } :=
  h.of_sameCore ev s.rdata s.draws

/-- Issuing a command keeps the invariant when its rule does in an accepted state (30 R110, 60 R340). -/
theorem issue_keeps {cmd : State → State} (h : Inv P s)
    (hcmd : ∀ u, Inv P u → u.status.busy = false → u.status.done = false → u.status.err = .noError → Inv P (cmd u))
    (hs : issue cmd s = .next t) : Inv P t := by
  cases hb : s.status.busy
  · rw [issue_of_idle hb] at hs
    cases hs
    exact hcmd _ (h.accepted hb) hb rfl rfl
  · rw [issue_of_busy hb] at hs
    cases hs
    exact h

theorem commandBody_keeps (i : Instr) (h : Inv Config.params s) (hb : s.status.busy = false)
    (hd : s.status.done = false) (he : s.status.err = .noError) : Inv Config.params (commandBody i s) := by
  cases i with
  | tblw tid idx val => exact tblwBody_keeps h hb tid idx val
  | tblc => exact tblcBody_keeps h hb
  | desb dir => exact desbBody_keeps h hb hd he dir
  | ivgen => exact ivgenBody_keeps h hb
  | pass dir ksel ivsel => exact passBody_keeps h hb hd he dir ksel ivsel
  | edee mode => exact tripleBody_keeps h hb hd he .edee mode (edeePasses s) (.inl ⟨rfl, rfl⟩)
  | eded mode => exact tripleBody_keeps h hb hd he .eded mode (ededPasses s) (.inr ⟨rfl, rfl⟩)

theorem commandWrite_keeps {w : Word} (h : Inv Config.params s) (hs : commandWrite w s = .next t) :
    Inv Config.params t := by
  cases hw : decode w with
  | ok i =>
    rw [commandWrite_of_decode hw, exec_eq_issue] at hs
    exact issue_keeps h (fun _ => commandBody_keeps i) hs
  | error e =>
    rw [commandWrite_of_illegal hw] at hs
    exact issue_keeps h (fun _ hu hb _ _ => hu.raiseError hb _) hs

theorem hostWrite_keeps {off size : Nat} {v : Word} (h : Inv Config.params s)
    (hs : hostWrite Config.params off size v s = .next t) : Inv Config.params t := by
  rcases hostWrite_cases Config.params off size v s with
    ⟨-, e⟩ | ⟨-, -, e⟩ | ⟨-, -, ⟨-, e⟩ | ⟨-, -, e⟩ | ⟨hb, -, e⟩⟩ <;> rw [e] at hs
  · cases hs
  · cases hs
  · cases hs; exact h
  · exact commandWrite_keeps h hs
  · cases hs; exact writeReg_keeps h hb off v

theorem readReg_keeps (r : WinReg) (h : Inv P s) : Inv P (readReg r s) := by
  rcases readReg_cases r s with ⟨-, e⟩ | ⟨-, e⟩ <;> rw [e]
  · exact h.of_sameCore s.events _ _
  · exact h.of_sameCore s.events _ s.draws

theorem hostRead_keeps {off size : Nat} (h : Inv P s) (hs : hostRead P off size s = .next t) : Inv P t := by
  rcases hostRead_cases P off size s with ⟨-, e⟩ | ⟨-, -, e⟩ | ⟨-, -, e⟩ <;> rw [e] at hs <;> cases hs
  exact readReg_keeps _ h

theorem stageTurn_keeps (st : Stage) (h : Inv P s) : Inv P (stageTurn P st s) := by
  rcases stageTurn_cases P st s with ⟨-, e⟩ | ⟨he, e⟩ <;> rw [e]
  · exact h
  · exact coreStep_keeps h he

theorem coreAlone_keeps (h : Inv P s) : Inv P (coreAlone P s) := by
  rcases coreAlone_cases P s with ⟨-, e⟩ | ⟨st, n, he, e⟩ <;> rw [e]
  · exact h
  · exact coreStep_keeps (h.of_sameCore s.events s.rdata n) he

theorem hostPoll_keeps (h : Inv P s) : Inv P (hostPoll P s) := by
  rw [hostPoll_eq]
  split
  · exact coreAlone_keeps (h.of_sameCore _ _ s.draws)
  · exact h.of_sameCore s.events _ s.draws

/-- Whatever the environment does next keeps the invariant (60 R345). -/
theorem takeEvent_keeps (e : Event) (h : Inv Config.params s) (hs : takeEvent Config.params e s = .next t) :
    Inv Config.params t := by
  cases e with
  | write off size v => exact hostWrite_keeps h hs
  | read off size => exact hostRead_keeps h hs
  | poll => cases hs; exact hostPoll_keeps h
  | turn st => cases hs; exact stageTurn_keeps st h
  | reset d => cases hs; exact afterReset_inv Config.params d s

end

/-- Settles O55: a step is the core left alone or one event of the environment, and each keeps the invariant. -/
theorem everyStepKeepsTheInvariant : Obligations.EveryStepKeepsTheInvariant := by
  intro s t h hs
  cases he : s.events with
  | nil =>
    rw [step_of_no_event he] at hs
    cases hs
    exact coreAlone_keeps h
  | cons e rest =>
    rw [step_of_event he] at hs
    exact takeEvent_keeps e (h.withEvents rest) hs

end Sys2Proof.Machine
end

