-- ==== Sys2Proof/Proofs/Memory.lean ====
section
/-! PROOFS. The statements of 20_memory.md. First the core steps of a running command, each as the move it makes and the
completion after its last one; from them, what a run keeps. Then the accesses of the host: which word of the window an
offset names, and what a defined access does with it. -/

namespace Sys2Proof.Machine

/-! ## The core steps of a running command -/

/-- A stage's step without the completion (43 R287). -/
def stageMove (P : Params) (st : Stage) (s : State) : State :=
  { s with
    sem := writeSlot (writeSlot s.sem (s.idx.get st) st false) (s.idx.get st) (nextSlot st) true
    mem := writeBlock s.mem (s.idx.get st)
      (chainStep P s.tbl (s.pp.get st) (s.vec.get st) (readBlock s.mem (s.idx.get st)) (s.idx.get st)).block
    vec := s.vec.set st
      (chainStep P s.tbl (s.pp.get st) (s.vec.get st) (readBlock s.mem (s.idx.get st)) (s.idx.get st)).vector
    idx := s.idx.set st (s.idx.get st + 1) }

/-- The core step of PASS without the completion (42 R244). -/
def passMove (P : Params) (s : State) : State :=
  { s with
    mem := writeBlock s.mem s.idx.s1
      (chainStep P s.tbl s.pp.s1 s.vec.s1 (readBlock s.mem s.idx.s1) s.idx.s1).block
    vec := { s.vec with s1 := (chainStep P s.tbl s.pp.s1 s.vec.s1 (readBlock s.mem s.idx.s1) s.idx.s1).vector }
    idx := { s.idx with s1 := s.idx.s1 + 1 } }

/-- A stage's step is its move, completed where it was the last of the run (43 R290). -/
theorem stageStep_eq (P : Params) (st : Stage) (s : State) :
    stageStep P st s =
      if (stageMove P st s).idx.s1 = s.nblk.toNat ∧ (stageMove P st s).idx.s2 = s.nblk.toNat ∧
          (stageMove P st s).idx.s3 = s.nblk.toNat then complete (stageMove P st s)
      else stageMove P st s := rfl

/-- The core step of PASS is its move, completed at the last block. -/
theorem passStep_eq (P : Params) (s : State) :
    passStep P s = if s.idx.s1 + 1 = s.nblk.toNat then complete (passMove P s) else passMove P s := rfl

/-- An enabled agent completes DESB, moves PASS, or moves its stage of a Triple-DES run (60 R345). -/
theorem coreStep_cases (P : Params) {st : Stage} {s : State} (he : enabled s st = true) :
    (s.run.op = .desb ∧ coreStep P st s = desbStep P s) ∨
    (s.run.op = .pass ∧ coreStep P st s = passStep P s) ∨
    (tripleRuns s ∧ stageReady s st = true ∧ coreStep P st s = stageStep P st s) := by
  unfold enabled at he
  unfold coreStep tripleRuns
  cases ho : s.run.op <;> rw [ho] at he
  case none => cases he
  case desb => exact .inl ⟨rfl, rfl⟩
  case pass => exact .inr (.inl ⟨rfl, rfl⟩)
  case edee => exact .inr (.inr ⟨.inl rfl, he, rfl⟩)
  case eded => exact .inr (.inr ⟨.inr rfl, he, rfl⟩)

/-! ## A Triple-DES run stays on its passes (43 R287, R291) -/

section

variable {P : Params} {bs : List Block} {s : State}

/-- `RunOver` from one equation for all three vectors, the converse of `runOver_vector`. -/
theorem RunOver.of_vectors (hcount : bs.length = s.nblk.toNat)
    (hblocks : ∀ j, j < s.nblk.toNat → readBlock s.mem j = blockAt P s.tbl s.pp bs s.idx j)
    (hvec : ∀ st, s.vec.get st = vectorAfter P s.tbl (s.pp.get st) (stageInput P s.tbl s.pp bs st) (s.idx.get st)) :
    RunOver P bs s :=
  ⟨hcount, hblocks, hvec .s1, hvec .s2, hvec .s3⟩

/-- The model's own fields are no part of `RunOver`. -/
theorem RunOver.of_sameCore (h : RunOver P bs s) (ev : List Event) (r : Word) (n : Nat) :
    RunOver P bs { s with events := ev, rdata := r, draws := n } :=
  ⟨h.count, h.blocks, h.vec1, h.vec2, h.vec3⟩

theorem RunOver.complete (h : RunOver P bs s) : RunOver P bs (complete s) :=
  ⟨h.count, h.blocks, h.vec1, h.vec2, h.vec3⟩

/-- The move of a stage that is ready writes its pass's next output block and hands on its pass's next vector. -/
theorem RunOver.stageMove (h : RunOver P bs s) (hwf : Memory.wf s.mem) (hi : TripleInv P s) {st : Stage}
    (hr : stageReady s st = true) : RunOver P bs (stageMove P st s) := by
  obtain ⟨hlt, hown, -⟩ := stageReady_slots hi hr
  obtain ⟨hfound, hleft⟩ := blockAt_turn (P := P) (tb := s.tbl) (pp := s.pp) (bs := bs) st hi.order32 hi.order21 hown
  have hread : readBlock s.mem (s.idx.get st) = (stageInput P s.tbl s.pp bs st).getD (s.idx.get st) 0#64 :=
    (h.blocks _ hlt).trans hfound
  have hin : s.idx.get st < (stageInput P s.tbl s.pp bs st).length := by
    rw [stageInput_length, h.count]; exact hlt
  refine .of_vectors h.count (fun j hj => ?_) (fun st' => ?_)
  · simp only [Machine.stageMove]
    rw [readBlock_writeBlock hwf]
    split
    · next hij => rw [← hij, hleft, hread, runOver_vector h, chainStep_block_of_pass _ _ _ hin]
    · next hij => rw [blockAt_set_of_ne st hij, h.blocks j hj]
  · simp only [Machine.stageMove]
    by_cases hst : st = st'
    · subst hst
      rw [perStage_get_set_same, perStage_get_set_same, hread, runOver_vector h,
        chainStep_vector_of_pass _ _ _ hin]
    · rw [perStage_get_set_of_ne _ _ hst, perStage_get_set_of_ne _ _ hst, runOver_vector h]

theorem RunOver.coreStep (h : RunOver P bs s) (hinv : Inv P s) (hrun : tripleRuns s) {st : Stage}
    (he : enabled s st = true) : RunOver P bs (coreStep P st s) := by
  rcases coreStep_cases P he with ⟨ho, -⟩ | ⟨ho, -⟩ | ⟨-, hr, e⟩
  · simp [tripleRuns, ho] at hrun
  · simp [tripleRuns, ho] at hrun
  · have hmove := h.stageMove hinv.stores.memWf (hinv.triple hrun) hr
    rw [e, stageStep_eq]
    split
    · exact hmove.complete
    · exact hmove

end

theorem busy_of_tripleRuns {P : Params} {s : State} (h : Inv P s) (hrun : tripleRuns s) : s.status.busy = true :=
  h.busy_of_op (by rcases hrun with ho | ho <;> simp [ho])

/-- Settles O39: in a running machine a step changes the model's own fields only, or a ready stage makes its move. -/
theorem everyStepKeepsTheRunOnItsPasses : Obligations.EveryStepKeepsTheRunOnItsPasses := by
  intro bs s t hinv hrun h hreset hs
  rcases step_of_busy_cases (busy_of_tripleRuns hinv hrun) hreset hs with
    ⟨ev, r, n, rfl⟩ | ⟨st, ev, r, n, he, rfl⟩
  · exact h.of_sameCore ev r n
  · exact (h.of_sameCore ev r n).coreStep (hinv.of_sameCore ev r n) hrun he

/-! ## A running command keeps its operands (20 R82, R89) -/

/-- What a running command may not change: its operands, the tables and the pass parameters. -/
def operandsOf (s : State) :=
  (s.nblk, s.key, s.iv1, s.iv2, s.iv3, s.din, s.dkey, s.tbl, s.wr, s.pp)

/-- A core step keeps the operands, and `STATUS` unless it completes the command. -/
theorem coreStep_keepsOperands (P : Params) {st : Stage} {s : State} (he : enabled s st = true) :
    operandsOf (coreStep P st s) = operandsOf s ∧
    ((coreStep P st s).status = s.status ∨ (coreStep P st s).status = s.status.completed) := by
  rcases coreStep_cases P he with ⟨-, e⟩ | ⟨-, e⟩ | ⟨-, -, e⟩ <;> rw [e]
  · exact ⟨rfl, .inr rfl⟩
  · rw [passStep_eq]
    split
    · exact ⟨rfl, .inr rfl⟩
    · exact ⟨rfl, .inl rfl⟩
  · rw [stageStep_eq]
    split
    · exact ⟨rfl, .inr rfl⟩
    · exact ⟨rfl, .inl rfl⟩

theorem step_of_busy_keepsOperands {s t : State} (hb : s.status.busy = true)
    (hr : ∀ d rest, s.events ≠ Event.reset d :: rest) (hs : step s = .next t) :
    operandsOf t = operandsOf s ∧ (t.status = s.status ∨ t.status = s.status.completed) := by
  rcases step_of_busy_cases hb hr hs with ⟨ev, r, n, rfl⟩ | ⟨st, ev, r, n, he, rfl⟩
  · exact ⟨rfl, .inl rfl⟩
  · exact coreStep_keepsOperands Config.params (s := { s with events := ev, rdata := r, draws := n }) he

/-- Settles O44: a step of a busy state keeps the operands, and `BUSY` tells which of its two `STATUS` values it left. -/
theorem runningCommandKeepsItsOperands : Obligations.RunningCommandKeepsItsOperands := by
  intro s t _ hb hr hs
  obtain ⟨hop, hst⟩ := step_of_busy_keepsOperands hb hr hs
  simp only [operandsOf, Prod.mk.injEq] at hop
  obtain ⟨hnblk, hkey, hiv1, hiv2, hiv3, hdin, hdkey, htbl, hwr, hpp⟩ := hop
  refine ⟨hnblk, hkey, hiv1, hiv2, hiv3, hdin, hdkey, htbl, hwr, hpp, fun hbt => ?_, fun hbt => ?_⟩
  · rcases hst with e | e
    · exact e
    · rw [e] at hbt; cases hbt
  · rcases hst with e | e
    · rw [e, hb] at hbt; cases hbt
    · exact e

/-! ## Defined accesses (20 R70, R75) -/

theorem accessRefused_iff {off size : Nat} : accessRefused off size = true ↔ size ≠ 4 ∨ off % 4 ≠ 0 :=
  decide_eq_true_iff

theorem definedAccess_iff {off size : Nat} :
    definedAccess off size = true ↔ off < windowSize ∧ size = 4 ∧ off % 4 = 0 :=
  decide_eq_true_iff

theorem definedAccess_word {off : Nat} (hw : off < windowSize) (ha : off % 4 = 0) : definedAccess off 4 = true :=
  definedAccess_iff.mpr ⟨hw, rfl, ha⟩

/-- A defined access lies in the window and is not refused. -/
theorem not_refused_of_defined {off size : Nat} (h : definedAccess off size = true) :
    ¬ windowSize ≤ off ∧ ¬ accessRefused off size = true := by
  obtain ⟨hw, hsize, ha⟩ := definedAccess_iff.mp h
  rw [accessRefused_iff]
  exact ⟨Nat.not_le.mpr hw, by omega⟩

section

variable {s : State} {off size : Nat} {v : Word} {rest : List Event}

theorem hostRead_of_defined (P : Params) (h : definedAccess off size = true) :
    hostRead P off size s = .next (readReg (registerAt P off) s) := by
  obtain ⟨hw, hr⟩ := not_refused_of_defined h
  rw [hostRead, if_neg hw, if_neg hr]

theorem hostWrite_of_defined (P : Params) (h : definedAccess off size = true) :
    hostWrite P off size v s =
      if s.status.busy then .next s
      else if registerAt P off = .cmd then commandWrite v s
      else .next (writeReg (registerAt P off) v s) := by
  obtain ⟨hw, hr⟩ := not_refused_of_defined h
  rw [hostWrite, if_neg hw, if_neg hr]

theorem step_read_of_defined (h : definedAccess off size = true) :
    step { s with events := Event.read off size :: rest } =
      .next (readReg (registerAt Config.params off) { s with events := rest }) :=
  hostRead_of_defined Config.params h

theorem step_write_of_busy (h : definedAccess off size = true) (hb : s.status.busy = true) :
    step { s with events := Event.write off size v :: rest } = .next { s with events := rest } :=
  (hostWrite_of_defined Config.params h).trans (if_pos hb)

theorem step_write_of_idle (h : definedAccess off size = true) (hb : s.status.busy = false)
    (hr : registerAt Config.params off ≠ .cmd) :
    step { s with events := Event.write off size v :: rest } =
      .next (writeReg (registerAt Config.params off) v { s with events := rest }) := by
  have hb' : ¬ s.status.busy = true := by rw [hb]; decide
  exact (hostWrite_of_defined Config.params h).trans ((if_neg hb').trans (if_neg hr))

end

/-- Settles O51: inside the window both kinds of access come to the check of 20 R75, which refuses them. -/
theorem undefinedAccessesHaveNoStep : Obligations.UndefinedAccessesHaveNoStep := by
  intro s off size v rest hw hundef
  have hin : ¬ windowSize ≤ off := Nat.not_le.mpr hw
  have href : accessRefused off size = true := accessRefused_iff.mpr hundef
  exact ⟨(if_neg hin).trans (if_pos href), (if_neg hin).trans (if_pos href)⟩

/-- Settles O7: the host's write and the issue of a command both check `BUSY` first (20 R81, 30 R110). -/
theorem writesWhileBusyChangeNothing : Obligations.WritesWhileBusyChangeNothing := by
  intro s off v rest hb hw ha
  exact ⟨step_write_of_busy (definedAccess_word hw ha) hb, fun i => (exec_eq_issue i s).trans (issue_of_busy hb)⟩

/-! ## Every defined event has a step -/

theorem issue_steps (cmd : State → State) (s : State) : ∃ t, issue cmd s = .next t := by
  cases hb : s.status.busy
  · exact ⟨_, issue_of_idle hb⟩
  · exact ⟨_, issue_of_busy hb⟩

theorem commandWrite_steps (w : Word) (s : State) : ∃ t, commandWrite w s = .next t := by
  cases hw : decode w with
  | ok i => rw [commandWrite_of_decode hw, exec_eq_issue]; exact issue_steps _ s
  | error e => rw [commandWrite_of_illegal hw]; exact issue_steps _ s

theorem takeEvent_steps (P : Params) {e : Event} (h : e.isDefined = true) (s : State) :
    ∃ t, takeEvent P e s = .next t := by
  cases e with
  | write off size v =>
    rw [takeEvent, hostWrite_of_defined P h]
    split
    · exact ⟨_, rfl⟩
    · split
      · exact commandWrite_steps v s
      · exact ⟨_, rfl⟩
  | read off size => exact ⟨_, hostRead_of_defined P h⟩
  | poll => exact ⟨_, rfl⟩
  | turn st => exact ⟨_, rfl⟩
  | reset d => exact ⟨_, rfl⟩

/-- Settles O52: with no event the core is left alone, and a defined event is always taken. -/
theorem definedEventsAlwaysStep : Obligations.DefinedEventsAlwaysStep := by
  intro s hdef
  cases he : s.events with
  | nil => exact ⟨_, step_of_no_event he⟩
  | cons e rest =>
    rw [step_of_event he]
    exact takeEvent_steps _ (hdef e rest he) _

/-! ## The register map (20 R72 to R74) -/

theorem namedOffsets_eq : namedOffsets = registerMap.map Prod.fst := rfl

/-- Every named word stands at its offset. -/
theorem registerAt_named (P : Params) {p : Nat × WinReg} (h : p ∈ registerMap) : registerAt P p.1 = p.2 := by
  fin_cases h <;> rfl

/-- An offset the map does not name is a block word, or reserved. -/
theorem registerAt_unnamed (P : Params) {off : Nat} (h : off ∉ namedOffsets) :
    registerAt P off =
      if 0x80000 ≤ off ∧ off < 0x80000 + 8 * P.nblkMax then
        if off % 8 = 0 then .blkHi ((off - 0x80000) / 8) else .blkLo ((off - 0x80000) / 8)
      else .reserved := by
  have hnone : registerMap.lookup off = none := by
    rw [List.lookup_eq_none_iff]
    intro p hp
    refine bne_iff_ne.mpr fun he => h ?_
    rw [namedOffsets_eq, he]
    exact List.mem_map_of_mem hp
  rw [registerAt, hnone]

theorem not_named_of_window {off : Nat} (h : 0x80000 ≤ off) : off ∉ namedOffsets := fun hm =>
  absurd h (Nat.not_le.mpr ((by decide : ∀ x ∈ namedOffsets, x < 0x80000) off hm))

theorem registerAt_blkHi (P : Params) {j : Nat} (hj : j < P.nblkMax) :
    registerAt P (0x80000 + 8 * j) = .blkHi j := by
  rw [registerAt_unnamed P (not_named_of_window (by omega)), if_pos (by omega), if_pos (by omega)]
  congr 1; omega

theorem registerAt_blkLo (P : Params) {j : Nat} (hj : j < P.nblkMax) :
    registerAt P (0x80000 + 8 * j + 4) = .blkLo j := by
  rw [registerAt_unnamed P (not_named_of_window (by omega)), if_pos (by omega), if_neg (by omega)]
  congr 1; omega

/-- Every offset of the block cells is one of the two words of a block. -/
theorem registerAt_blockWindow (P : Params) {off : Nat} (h1 : 0x80000 ≤ off) (h2 : off < 0x80000 + 8 * P.nblkMax) :
    ∃ j, registerAt P off = .blkHi j ∨ registerAt P off = .blkLo j := by
  rw [registerAt_unnamed P (not_named_of_window h1), if_pos ⟨h1, h2⟩]
  split
  · exact ⟨_, .inl rfl⟩
  · exact ⟨_, .inr rfl⟩

theorem registerAt_reserved {off : Nat} (h : reservedOffset off) : registerAt Config.params off = .reserved := by
  obtain ⟨-, -, hnamed, hcells⟩ := h
  rw [registerAt_unnamed _ hnamed]
  exact if_neg hcells

theorem definedAccess_named {off : Nat} (h : off ∈ namedOffsets) : definedAccess off 4 = true :=
  (by decide : ∀ x ∈ namedOffsets, definedAccess x 4 = true) off h

/-- The block cells lie in the window (20 R73: `NBLK_MAX` is at most 65535). -/
theorem definedAccess_block {off : Nat} (h : off < 0x80000 + 8 * Config.nblkMax) (ha : off % 4 = 0) :
    definedAccess off 4 = true := by
  have hmax : Config.nblkMax ≤ 65535 := Config.nblkMaxLessOne.isLt
  exact definedAccess_word (show off < 0x100000 by omega) ha

/-! ## Reads (20 R82) -/

section

variable {s : State} {rest : List Event}

theorem readReg_of_draw {r : WinReg} (h : readIsDraw r s = true) :
    readReg r s = { s with rdata := Config.busyRead s.draws, draws := s.draws + 1 } := if_pos h

/-- No word depends on the model's own fields. -/
theorem currentWord_of_sameCore (r : WinReg) (ev : List Event) (x : Word) :
    currentWord r { s with events := ev, rdata := x } = currentWord r s := by
  cases r <;> rfl

/-- A read that is no draw returns the word, whatever is next and whatever was read before. -/
theorem readReg_of_value {r : WinReg} (h : readIsDraw r s = false) (ev : List Event) (x : Word) :
    readReg r { s with events := ev, rdata := x } = { s with events := ev, rdata := currentWord r s } := by
  have hval : ¬ readIsDraw r { s with events := ev, rdata := x } = true := Bool.eq_false_iff.mp h
  rw [readReg, if_neg hval, currentWord_of_sameCore]

theorem readIsDraw_of_no_command (h : s.run.op = .none) (r : WinReg) : readIsDraw r s = false := by
  cases r <;> simp [readIsDraw, h]

/-- Of the named words only the two of `DOUT` are ever a draw. -/
theorem readIsDraw_named {p : Nat × WinReg} (h : p ∈ registerMap) :
    readIsDraw p.2 s = decide (s.run.op = .desb ∧ (p.1 = 0x50 ∨ p.1 = 0x54)) := by
  fin_cases h <;> simp [readIsDraw]

/-- A block word is a draw while PASS, EDEE or EDED runs. -/
theorem readIsDraw_block {r : WinReg} {j : Nat} (h : r = .blkHi j ∨ r = .blkLo j) :
    readIsDraw r s = true ↔ s.run.op = .pass ∨ tripleRuns s := by
  rcases h with rfl | rfl <;> exact decide_eq_true_iff

/-- The step of a read that is a draw. -/
theorem step_read_draw {off : Nat} (h : definedAccess off 4 = true)
    (hd : readIsDraw (registerAt Config.params off) s = true) :
    step { s with events := Event.read off 4 :: rest } =
      .next { s with events := rest, rdata := Config.busyRead s.draws, draws := s.draws + 1 } := by
  rw [step_read_of_defined h, readReg_of_draw (s := { s with events := rest }) hd]

/-- The step of a read that is no draw. -/
theorem step_read_value {off : Nat} (h : definedAccess off 4 = true)
    (hd : readIsDraw (registerAt Config.params off) s = false) :
    step { s with events := Event.read off 4 :: rest } =
      .next { s with events := rest, rdata := currentWord (registerAt Config.params off) s } := by
  rw [step_read_of_defined h, readReg_of_value hd rest s.rdata]

end

/-! ## The bit ranges of the words (20 R72, R76) -/

/-- A bit range of a bit range. -/
theorem extract_extract {n : Nat} (x : BitVec n) {a b len len' : Nat} (h : b + len ≤ len') :
    (x.extractLsb' a len').extractLsb' b len = x.extractLsb' (a + b) len := by
  apply BitVec.eq_of_getLsbD_eq
  intro i hi
  simp only [BitVec.getLsbD_extractLsb', hi, decide_true, Bool.true_and, show b + i < len' by omega, Nat.add_assoc]

theorem hiWord_leftKey (k : BitVec 128) : hiWord (leftKey k) = k.extractLsb' 96 32 := extract_extract k (by decide)

theorem loWord_leftKey (k : BitVec 128) : loWord (leftKey k) = k.extractLsb' 64 32 := extract_extract k (by decide)

theorem hiWord_rightKey (k : BitVec 128) : hiWord (rightKey k) = k.extractLsb' 32 32 := extract_extract k (by decide)

theorem loWord_rightKey (k : BitVec 128) : loWord (rightKey k) = k.extractLsb' 0 32 := extract_extract k (by decide)

theorem setLeftKey_setHiWord (k : BitVec 128) (v : Word) :
    setLeftKey k (setHiWord (leftKey k) v) = v ++ k.extractLsb' 0 96 := by
  have h : k.extractLsb' 64 32 ++ k.extractLsb' 0 64 = k.extractLsb' 0 96 :=
    BitVec.extractLsb'_append_extractLsb'_eq_extractLsb' rfl
  rw [setLeftKey, setHiWord, loWord_leftKey, rightKey, ← h, BitVec.append_assoc, BitVec.cast_eq]

theorem setLeftKey_setLoWord (k : BitVec 128) (v : Word) :
    setLeftKey k (setLoWord (leftKey k) v) = k.extractLsb' 96 32 ++ v ++ k.extractLsb' 0 64 := by
  rw [setLeftKey, setLoWord, hiWord_leftKey, rightKey]

theorem setRightKey_setHiWord (k : BitVec 128) (v : Word) :
    setRightKey k (setHiWord (rightKey k) v) = k.extractLsb' 64 64 ++ v ++ k.extractLsb' 0 32 := by
  rw [setRightKey, setHiWord, loWord_rightKey, leftKey, BitVec.append_assoc, BitVec.cast_eq]

theorem setRightKey_setLoWord (k : BitVec 128) (v : Word) :
    setRightKey k (setLoWord (rightKey k) v) = k.extractLsb' 32 96 ++ v := by
  have h : k.extractLsb' 64 64 ++ k.extractLsb' 32 32 = k.extractLsb' 32 96 :=
    BitVec.extractLsb'_append_extractLsb'_eq_extractLsb' rfl
  rw [setRightKey, setLoWord, hiWord_rightKey, leftKey, ← h, BitVec.append_assoc, BitVec.cast_eq]

theorem nblk_word (n : BitVec 16) : 0#16 ++ n = n.setWidth 32 :=
  (BitVec.setWidth_eq_append (by decide)).symm

/-- The register map as values is the register map and the word at each of its places. -/
theorem windowValues_eq (s : State) : windowValues s = registerMap.map fun p => (p.1, currentWord p.2 s) := by
  simp only [registerMap, List.map_cons, List.map_nil, currentWord, nblk_word, hiWord_leftKey,
    loWord_leftKey, hiWord_rightKey, loWord_rightKey]
  rfl

/-- The register map as writes, `CMD` left out, is what `writeReg` does at each of its places. -/
theorem windowWrites_eq (s : State) (v : Word) :
    windowWrites s v = registerMap.tail.map fun p => (p.1, writeReg p.2 v s) := by
  simp only [registerMap, List.tail_cons, List.map_cons, List.map_nil, writeReg, setLeftKey_setHiWord,
    setLeftKey_setLoWord, setRightKey_setHiWord, setRightKey_setLoWord]
  rfl

/-! ## What reads return -/

section

variable {s : State} {rest : List Event}

/-- A read of a named word returns its value, but for `DOUT` while DESB runs. -/
theorem step_read_named {p : Nat × Word} (hp : p ∈ windowValues s)
    (hd : s.run.op = .desb → p.1 ≠ 0x50 ∧ p.1 ≠ 0x54) :
    step { s with events := Event.read p.1 4 :: rest } = .next { s with events := rest, rdata := p.2 } := by
  rw [windowValues_eq] at hp
  obtain ⟨q, hq, rfl⟩ := List.mem_map.mp hp
  have hr : registerAt Config.params q.1 = q.2 := registerAt_named _ hq
  have hval : readIsDraw q.2 s = false := by
    rw [readIsDraw_named hq, decide_eq_false_iff_not]
    rintro ⟨hop, h | h⟩
    · exact (hd hop).1 h
    · exact (hd hop).2 h
  have hdef : definedAccess q.1 4 = true := definedAccess_named (List.mem_map_of_mem hq)
  rw [step_read_value hdef (by rw [hr]; exact hval), hr]

/-- A read of a block word returns that half of the block while neither PASS nor EDEE nor EDED runs. -/
theorem step_read_blockWords (hn : ¬ (s.run.op = .pass ∨ tripleRuns s)) {j : Nat} (hj : j < Config.nblkMax) :
    step { s with events := Event.read (0x80000 + 8 * j) 4 :: rest } =
      .next { s with events := rest, rdata := (readBlock s.mem j).extractLsb' 32 32 } ∧
    step { s with events := Event.read (0x80000 + 8 * j + 4) 4 :: rest } =
      .next { s with events := rest, rdata := (readBlock s.mem j).extractLsb' 0 32 } := by
  have hval : ∀ {r : WinReg}, r = .blkHi j ∨ r = .blkLo j → readIsDraw r s = false := fun h =>
    Bool.eq_false_iff.mpr (mt (readIsDraw_block h).mp hn)
  have hHi := registerAt_blkHi Config.params hj
  have hLo := registerAt_blkLo Config.params hj
  constructor
  · rw [step_read_value (definedAccess_block (by omega) (by omega)) (hval (.inl hHi)), hHi, readBlock,
      extract_append_high, currentWord]
  · rw [step_read_value (definedAccess_block (by omega) (by omega)) (hval (.inr hLo)), hLo, readBlock,
      extract_append_low, currentWord]

end

/-- Settles O46: with no command running every named word and every block word is read as it stands. -/
theorem readsReturnTheRegisterMap : Obligations.ReadsReturnTheRegisterMap := by
  intro s rest hop
  have hn : ¬ (s.run.op = .pass ∨ tripleRuns s) := by simp [tripleRuns, hop]
  exact ⟨fun p hp => step_read_named hp (by simp [hop]), fun j hj => step_read_blockWords hn hj⟩

/-- Settles O50: the words a running command writes are draws, and the others are read as they stand. -/
theorem busyReadsOfResultsAreDraws : Obligations.BusyReadsOfResultsAreDraws := by
  intro s rest
  refine ⟨fun hrun off h1 h2 ha => ?_, fun hop off hoff => ?_, fun p hp hd => step_read_named hp hd,
    fun hn j hj => step_read_blockWords hn hj⟩
  · obtain ⟨j, hj⟩ := registerAt_blockWindow Config.params h1 h2
    exact step_read_draw (definedAccess_block h2 ha) ((readIsDraw_block hj).mpr hrun)
  · have hdraw : readIsDraw (registerAt Config.params off) s = true := by
      rcases hoff with rfl | rfl <;> exact decide_eq_true hop
    have hdef : definedAccess off 4 = true := by rcases hoff with rfl | rfl <;> decide
    exact step_read_draw hdef hdraw

/-- Settles O49: a read is a draw or returns a word, which no field of the model's own enters. -/
theorem readsHaveNoSideEffect : Obligations.ReadsHaveNoSideEffect := by
  intro s t off size rest he hs
  rw [step_of_event he, takeEvent] at hs
  rcases hostRead_cases Config.params off size { s with events := rest } with ⟨-, e⟩ | ⟨-, -, e⟩ | ⟨hw, ha, e⟩ <;>
    rw [e] at hs <;> cases hs
  have hdef : definedAccess off size = true := by
    rw [accessRefused, decide_eq_false_iff_not] at ha
    exact definedAccess_iff.mpr ⟨hw, by omega, by omega⟩
  constructor
  · rcases readReg_cases (registerAt Config.params off) { s with events := rest } with ⟨-, e⟩ | ⟨-, e⟩ <;> rw [e]
  · intro hop
    have hread := readReg_of_value (readIsDraw_of_no_command hop (registerAt Config.params off))
    rw [hread rest s.rdata]
    refine ⟨rfl, fun u hu => ?_⟩
    rw [step_read_of_defined hdef] at hu
    cases hu
    rw [hread]

/-! ## What writes change -/

section

variable {s : State} {v : Word} {rest : List Event}

/-- A write of a named word but `CMD` does to the state what the register map says. -/
theorem step_write_named (hb : s.status.busy = false) {p : Nat × State}
    (hp : p ∈ windowWrites { s with events := rest } v) :
    step { s with events := Event.write p.1 4 v :: rest } = .next p.2 := by
  rw [windowWrites_eq] at hp
  obtain ⟨q, hq, rfl⟩ := List.mem_map.mp hp
  have hmem : q ∈ registerMap := List.mem_of_mem_tail hq
  have hr : registerAt Config.params q.1 = q.2 := registerAt_named _ hmem
  have hne : q.2 ≠ .cmd := (by decide : ∀ x ∈ registerMap.tail, x.2 ≠ .cmd) q hq
  have hdef : definedAccess q.1 4 = true := definedAccess_named (List.mem_map_of_mem hmem)
  rw [step_write_of_idle hdef hb (by rw [hr]; exact hne), hr]

/-- A write of a block word writes that word of the block store. -/
theorem step_write_blockWords (hb : s.status.busy = false) {j : Nat} (hj : j < Config.nblkMax) :
    step { s with events := Event.write (0x80000 + 8 * j) 4 v :: rest } =
      .next { s with events := rest, mem := writeWord s.mem (blkAddr j) v } ∧
    step { s with events := Event.write (0x80000 + 8 * j + 4) 4 v :: rest } =
      .next { s with events := rest, mem := writeWord s.mem (blkAddr j + 4) v } := by
  have hHi := registerAt_blkHi Config.params hj
  have hLo := registerAt_blkLo Config.params hj
  constructor
  · rw [step_write_of_idle (definedAccess_block (by omega) (by omega)) hb (by simp [hHi]), hHi,
      writeReg]
  · rw [step_write_of_idle (definedAccess_block (by omega) (by omega)) hb (by simp [hLo]), hLo,
      writeReg]

end

theorem readBlock_writeWord_hi {m : Memory} (h : Memory.wf m) (j : Nat) (v : Word) :
    readBlock (writeWord m (blkAddr j) v) j = v ++ (readBlock m j).extractLsb' 0 32 := by
  rw [readBlock, readBlock, extract_append_low, readWord_writeWord_same h,
    readWord_writeWord_of_ne h _ _ (.inr (Nat.le_refl _))]

theorem readBlock_writeWord_lo {m : Memory} (h : Memory.wf m) (j : Nat) (v : Word) :
    readBlock (writeWord m (blkAddr j + 4) v) j = (readBlock m j).extractLsb' 32 32 ++ v := by
  rw [readBlock, readBlock, extract_append_high, readWord_writeWord_same h,
    readWord_writeWord_of_ne h _ _ (.inl (Nat.le_refl _))]

/-- Settles O47: the named words by the register map, the block words by the laws of the block store. -/
theorem writesChangeExactlyTheirWord : Obligations.WritesChangeExactlyTheirWord := by
  intro s v rest hb
  refine ⟨fun p hp => step_write_named hb hp, fun hwf j hj => ?_⟩
  obtain ⟨hHi, hLo⟩ := step_write_blockWords (v := v) (rest := rest) hb hj
  exact ⟨_, _, hHi, hLo, readBlock_writeWord_hi hwf j v, readBlock_writeWord_lo hwf j v,
    fun a ha => readByte_writeWord_of_ne hwf _ _ ha, fun a ha => readByte_writeWord_of_ne hwf _ _ ha, rfl, rfl⟩

/-- Settles O48: a reserved offset names the reserved word, which reads 0 and which no write changes; `NBLK` keeps the
low half of what is written to it. -/
theorem reservedOffsetsReadZeroAndIgnoreWrites : Obligations.ReservedOffsetsReadZeroAndIgnoreWrites := by
  intro s rest v
  refine ⟨fun off h => ?_, step_read_value (off := 0x08) (by decide) rfl, fun hb => ?_⟩
  · have hr := registerAt_reserved h
    obtain ⟨hin, haligned, -, -⟩ := h
    have hdef : definedAccess off 4 = true := definedAccess_word hin haligned
    constructor
    · rw [step_read_value hdef (by rw [hr]; rfl), hr, currentWord]
    · cases hb : s.status.busy
      · rw [step_write_of_idle hdef hb (by simp [hr]), hr, writeReg]
      · exact step_write_of_busy hdef hb
  · have hr : registerAt Config.params 0x08 = .nblk := rfl
    have hw : ∀ w, step { s with events := Event.write 0x08 4 w :: rest } =
        .next (writeReg .nblk w { s with events := rest }) := fun w =>
      step_write_of_idle (off := 0x08) (by decide) hb (by simp [hr])
    rw [hw, hw, writeReg, writeReg, extract_append_low]

end Sys2Proof.Machine
end

