-- ==== Sys2Proof/Proofs/Encoding.lean ====
section
/-! PROOFS. The statements of 30_encoding.md. A word is the concatenation of the fields of its format (30 R112). So one
law, `extract_eq_append`, gives, format by format, the fields of a known word, the word of known fields, and when a
masked word is a match. The decoder is one equation for each opcode (30 R125). -/

namespace Sys2Proof.Machine

/-! ## A word and its fields (30 R112) -/

/-- A bit range is a concatenation exactly when its two parts are. -/
theorem extract_eq_append {k n m : Nat} (w : BitVec k) (i : Nat) (a : BitVec n) (b : BitVec m) :
    w.extractLsb' i (n + m) = a ++ b ↔ w.extractLsb' (i + m) n = a ∧ w.extractLsb' i m = b := by
  rw [← BitVec.extractLsb'_append_extractLsb'_eq_extractLsb' rfl]
  constructor
  · intro h
    constructor
    · simpa only [extract_append_high] using congrArg (·.extractLsb' m n) h
    · simpa only [extract_append_low] using congrArg (·.extractLsb' 0 m) h
  · rintro ⟨rfl, rfl⟩
    rfl

section

variable (w : Word) (opc : BitVec 8)

/-- Format N: no operand. -/
theorem eq_formatN (z : BitVec 24) : w = z ++ opc ↔ w.extractLsb' 8 24 = z ∧ w.extractLsb' 0 8 = opc := by
  rw [← extract_eq_append w 0 z opc, BitVec.extractLsb'_eq_self]

/-- Formats B and X: one selector bit. -/
theorem eq_formatB (z : BitVec 23) (d : BitVec 1) :
    w = z ++ d ++ opc ↔ w.extractLsb' 9 23 = z ∧ w.extractLsb' 8 1 = d ∧ w.extractLsb' 0 8 = opc := by
  rw [eq_formatN w opc (z ++ d), extract_eq_append w 8 z d, and_assoc]

/-- Format P: `IVSEL`, `KSEL` and `DIR`. -/
theorem eq_formatP (z : BitVec 20) (iv : BitVec 2) (k d : BitVec 1) :
    w = z ++ iv ++ k ++ d ++ opc ↔ w.extractLsb' 12 20 = z ∧ w.extractLsb' 10 2 = iv ∧
      w.extractLsb' 9 1 = k ∧ w.extractLsb' 8 1 = d ∧ w.extractLsb' 0 8 = opc := by
  rw [eq_formatB w opc (z ++ iv ++ k) d, extract_eq_append w 9 (z ++ iv) k, extract_eq_append w 10 z iv, and_assoc,
    and_assoc]

/-- Format T: `VAL`, `IDX` and `TID`. -/
theorem eq_formatT (z : BitVec 4) (val : BitVec 7) (idx : BitVec 9) (tid : BitVec 4) :
    w = z ++ val ++ idx ++ tid ++ opc ↔ w.extractLsb' 28 4 = z ∧ w.extractLsb' 21 7 = val ∧
      w.extractLsb' 12 9 = idx ∧ w.extractLsb' 8 4 = tid ∧ w.extractLsb' 0 8 = opc := by
  rw [eq_formatN w opc (z ++ val ++ idx ++ tid), extract_eq_append w 8 (z ++ val ++ idx) tid,
    extract_eq_append w 12 (z ++ val) idx, extract_eq_append w 21 z val, and_assoc, and_assoc, and_assoc]

end

/-! ## Selector bits (30 R114 to R116) -/

theorem extract_bit (w : Word) (i : Nat) : w.extractLsb' i 1 = BitVec.ofBool (w.getLsbD i) := by
  apply BitVec.eq_of_getLsbD_eq
  intro j hj
  obtain rfl : j = 0 := by omega
  simp

theorem extract_eq_dirBit (w : Word) (i : Nat) : w.extractLsb' i 1 = dirBit (dirOfBit (w.getLsbD i)) := by
  rw [extract_bit]
  cases w.getLsbD i <;> rfl

theorem extract_eq_keySelBit (w : Word) (i : Nat) : w.extractLsb' i 1 = keySelBit (keySelOfBit (w.getLsbD i)) := by
  rw [extract_bit]
  cases w.getLsbD i <;> rfl

theorem extract_eq_modeBit (w : Word) (i : Nat) : w.extractLsb' i 1 = modeBit (modeOfBit (w.getLsbD i)) := by
  rw [extract_bit]
  cases w.getLsbD i <;> rfl

theorem getLsbD_of_extract {w : Word} {i : Nat} {b : BitVec 1} (h : w.extractLsb' i 1 = b) :
    w.getLsbD i = b.getLsbD 0 := by
  subst h
  simp

theorem dirOfBit_of_extract {w : Word} {i : Nat} {d : Dir} (h : w.extractLsb' i 1 = dirBit d) :
    dirOfBit (w.getLsbD i) = d := by
  rw [getLsbD_of_extract h]
  cases d <;> rfl

theorem keySelOfBit_of_extract {w : Word} {i : Nat} {k : KeySel} (h : w.extractLsb' i 1 = keySelBit k) :
    keySelOfBit (w.getLsbD i) = k := by
  rw [getLsbD_of_extract h]
  cases k <;> rfl

theorem modeOfBit_of_extract {w : Word} {i : Nat} {m : Mode} (h : w.extractLsb' i 1 = modeBit m) :
    modeOfBit (w.getLsbD i) = m := by
  rw [getLsbD_of_extract h]
  cases m <;> rfl

/-! ## The decoder, opcode by opcode (30 R125) -/

section

variable {n : Nat} {x z : BitVec n} {i : Instr}

theorem unlessReserved_eq_ok {j : Instr} : unlessReserved (decide (x ≠ z)) i = .ok j ↔ x = z ∧ i = j := by
  by_cases h : x = z <;> simp [unlessReserved, h]

theorem unlessReserved_eq_error : (∃ e, unlessReserved (decide (x ≠ z)) i = .error e) ↔ x ≠ z := by
  by_cases h : x = z <;> simp [unlessReserved, h]

/-- Two checks in a row, as the decoder makes them on TBLW and PASS. -/
theorem twoChecks_eq_ok {p q : Prop} [Decidable p] [Decidable q] {a b : DecodeError} {j : Instr} :
    (if p then .error a else if q then .error b else .ok i) = Except.ok j ↔ ¬ p ∧ ¬ q ∧ i = j := by
  by_cases hp : p <;> by_cases hq : q <;> simp [hp, hq]

theorem twoChecks_eq_error {p q : Prop} [Decidable p] [Decidable q] {a b : DecodeError} :
    (∃ e, (if p then .error a else if q then .error b else .ok i) = Except.error e) ↔ p ∨ q := by
  by_cases hp : p <;> by_cases hq : q <;> simp [hp, hq]

end

/-- The opcode is one of the seven of the opcode map, or undefined (30 R118, R119). -/
theorem opcode_cases (n : Nat) :
    n = 1 ∨ n = 2 ∨ n = 3 ∨ n = 4 ∨ n = 5 ∨ n = 6 ∨ n = 7 ∨ (n = 0 ∨ 8 ≤ n) := by omega

section

variable {w : Word}

theorem decode_tblw (h : (w.extractLsb' 0 8).toNat = 1) :
    decode w =
      if w.extractLsb' 28 4 ≠ 0#4 then .error .reservedBit
      else if 8 ≤ (w.extractLsb' 8 4).toNat then .error .reservedTid
      else .ok (.tblw (w.extractLsb' 8 4) (w.extractLsb' 12 9) (w.extractLsb' 21 7)) := by
  rw [decode, h]
  rfl

theorem decode_tblc (h : (w.extractLsb' 0 8).toNat = 2) :
    decode w = unlessReserved (decide (w.extractLsb' 8 24 ≠ 0#24)) .tblc := by
  rw [decode, h]
  rfl

theorem decode_desb (h : (w.extractLsb' 0 8).toNat = 3) :
    decode w = unlessReserved (decide (w.extractLsb' 9 23 ≠ 0#23)) (.desb (dirOfBit (w.getLsbD 8))) := by
  rw [decode, h]
  rfl

theorem decode_ivgen (h : (w.extractLsb' 0 8).toNat = 4) :
    decode w = unlessReserved (decide (w.extractLsb' 8 24 ≠ 0#24)) .ivgen := by
  rw [decode, h]
  rfl

theorem decode_pass (h : (w.extractLsb' 0 8).toNat = 5) :
    decode w =
      if w.extractLsb' 12 20 ≠ 0#20 then .error .reservedBit
      else if w.extractLsb' 10 2 = 0#2 then .error .reservedIvsel
      else .ok (.pass (dirOfBit (w.getLsbD 8)) (keySelOfBit (w.getLsbD 9)) (w.extractLsb' 10 2)) := by
  rw [decode, h]
  rfl

theorem decode_edee (h : (w.extractLsb' 0 8).toNat = 6) :
    decode w = unlessReserved (decide (w.extractLsb' 9 23 ≠ 0#23)) (.edee (modeOfBit (w.getLsbD 8))) := by
  rw [decode, h]
  rfl

theorem decode_eded (h : (w.extractLsb' 0 8).toNat = 7) :
    decode w = unlessReserved (decide (w.extractLsb' 9 23 ≠ 0#23)) (.eded (modeOfBit (w.getLsbD 8))) := by
  rw [decode, h]
  rfl

theorem decode_undefined (h : (w.extractLsb' 0 8).toNat = 0 ∨ 8 ≤ (w.extractLsb' 0 8).toNat) :
    decode w = .error .undefinedOpcode := by
  unfold decode
  split
  case h_8 => rfl
  all_goals omega

end

/-! ## Decoding an encoded command -/

/-- A word whose fields are those of a well-formed command decodes to it. -/
theorem decode_of_eq_encode {w : Word} {i : Instr} (hi : i.wellFormed = true) (hw : w = encode i) : decode w = .ok i := by
  cases i with
  | tblw tid idx val =>
    obtain ⟨hz, hval, hidx, htid, hopc⟩ := (eq_formatT w _ _ _ _ _).mp hw
    have htid8 : ¬ 8 ≤ tid.toNat := Nat.not_le.mpr (of_decide_eq_true hi)
    rw [decode_tblw (congrArg BitVec.toNat hopc), hz, hval, hidx, htid, if_neg (not_not.mpr rfl), if_neg htid8]
  | tblc =>
    obtain ⟨hz, hopc⟩ := (eq_formatN w _ _).mp hw
    rw [decode_tblc (congrArg BitVec.toNat hopc), hz]
    rfl
  | desb dir =>
    obtain ⟨hz, hdir, hopc⟩ := (eq_formatB w _ _ _).mp hw
    rw [decode_desb (congrArg BitVec.toNat hopc), hz, dirOfBit_of_extract hdir]
    rfl
  | ivgen =>
    obtain ⟨hz, hopc⟩ := (eq_formatN w _ _).mp hw
    rw [decode_ivgen (congrArg BitVec.toNat hopc), hz]
    rfl
  | pass dir ksel ivsel =>
    obtain ⟨hz, hivsel, hksel, hdir, hopc⟩ := (eq_formatP w _ _ _ _ _).mp hw
    have hivsel0 : ¬ ivsel = 0#2 := of_decide_eq_true hi
    rw [decode_pass (congrArg BitVec.toNat hopc), hz, hivsel, keySelOfBit_of_extract hksel, dirOfBit_of_extract hdir,
      if_neg (not_not.mpr rfl), if_neg hivsel0]
  | edee mode =>
    obtain ⟨hz, hmode, hopc⟩ := (eq_formatB w _ _ _).mp hw
    rw [decode_edee (congrArg BitVec.toNat hopc), hz, modeOfBit_of_extract hmode]
    rfl
  | eded mode =>
    obtain ⟨hz, hmode, hopc⟩ := (eq_formatB w _ _ _).mp hw
    rw [decode_eded (congrArg BitVec.toNat hopc), hz, modeOfBit_of_extract hmode]
    rfl

/-- Settles O1: the fields of the encoder's word, read off format by format, are those the decoder asks for. -/
theorem decodeOfEncodeIsTheCommand : Obligations.DecodeOfEncodeIsTheCommand :=
  fun _ hi => decode_of_eq_encode hi rfl

/-! ## Encoding a decoded word -/

/-- What the decoder accepts is a well-formed command, and the word is its encoding. -/
theorem eq_encode_of_decode {w : Word} {i : Instr} (h : decode w = .ok i) : i.wellFormed = true ∧ w = encode i := by
  have opc : ∀ k : BitVec 8, (w.extractLsb' 0 8).toNat = k.toNat → w.extractLsb' 0 8 = k :=
    fun _ => BitVec.eq_of_toNat_eq
  rcases opcode_cases (w.extractLsb' 0 8).toNat with ho | ho | ho | ho | ho | ho | ho | ho
  · obtain ⟨hz, htid, rfl⟩ := twoChecks_eq_ok.mp (decode_tblw ho ▸ h)
    exact ⟨decide_eq_true (Nat.lt_of_not_le htid),
      (eq_formatT w _ _ _ _ _).mpr ⟨not_not.mp hz, rfl, rfl, rfl, opc 1#8 ho⟩⟩
  · obtain ⟨hz, rfl⟩ := unlessReserved_eq_ok.mp (decode_tblc ho ▸ h)
    exact ⟨rfl, (eq_formatN w _ _).mpr ⟨hz, opc 2#8 ho⟩⟩
  · obtain ⟨hz, rfl⟩ := unlessReserved_eq_ok.mp (decode_desb ho ▸ h)
    exact ⟨rfl, (eq_formatB w _ _ _).mpr ⟨hz, extract_eq_dirBit w 8, opc 3#8 ho⟩⟩
  · obtain ⟨hz, rfl⟩ := unlessReserved_eq_ok.mp (decode_ivgen ho ▸ h)
    exact ⟨rfl, (eq_formatN w _ _).mpr ⟨hz, opc 4#8 ho⟩⟩
  · obtain ⟨hz, hivsel, rfl⟩ := twoChecks_eq_ok.mp (decode_pass ho ▸ h)
    exact ⟨decide_eq_true hivsel, (eq_formatP w _ _ _ _ _).mpr
      ⟨not_not.mp hz, rfl, extract_eq_keySelBit w 9, extract_eq_dirBit w 8, opc 5#8 ho⟩⟩
  · obtain ⟨hz, rfl⟩ := unlessReserved_eq_ok.mp (decode_edee ho ▸ h)
    exact ⟨rfl, (eq_formatB w _ _ _).mpr ⟨hz, extract_eq_modeBit w 8, opc 6#8 ho⟩⟩
  · obtain ⟨hz, rfl⟩ := unlessReserved_eq_ok.mp (decode_eded ho ▸ h)
    exact ⟨rfl, (eq_formatB w _ _ _).mpr ⟨hz, extract_eq_modeBit w 8, opc 7#8 ho⟩⟩
  · cases decode_undefined ho ▸ h

/-- Settles O2: `eq_encode_of_decode`, which reads the fields the decoder took as the word's concatenation. -/
theorem encodeOfDecodeIsTheWord : Obligations.EncodeOfDecodeIsTheWord :=
  fun _ _ h => (eq_encode_of_decode h).imp_right Eq.symm

/-! ## Illegal words (30 R119, R120) and the opcode map (30 R118) -/

/-- The decoder's checks are the clauses of `illegalWord`, opcode by opcode. -/
theorem decode_rejects_iff_illegalWord {w : Word} : (∃ e, decode w = .error e) ↔ illegalWord w := by
  unfold illegalWord
  rcases opcode_cases (w.extractLsb' 0 8).toNat with ho | ho | ho | ho | ho | ho | ho | ho
  · rw [decode_tblw ho, twoChecks_eq_error]
    simp [ho]
  · rw [decode_tblc ho, unlessReserved_eq_error]
    simp [ho]
  · rw [decode_desb ho, unlessReserved_eq_error]
    simp [ho]
  · rw [decode_ivgen ho, unlessReserved_eq_error]
    simp [ho]
  · rw [decode_pass ho, twoChecks_eq_error]
    simp [ho]
  · rw [decode_edee ho, unlessReserved_eq_error]
    simp [ho]
  · rw [decode_eded ho, unlessReserved_eq_error]
    simp [ho]
  · rw [decode_undefined ho]
    exact ⟨fun _ => ho.imp_right .inl, fun _ => ⟨_, rfl⟩⟩

section

variable (w : Word)

/-- A bit range that the mask keeps whole. -/
theorem extract_masked {m : Word} {i n : Nat} (h : m.extractLsb' i n = BitVec.allOnes n) :
    (w &&& m).extractLsb' i n = w.extractLsb' i n := by
  rw [BitVec.extractLsb'_and, h, BitVec.and_allOnes]

/-- A bit range that the mask clears. -/
theorem extract_cleared {m : Word} {i n : Nat} (h : m.extractLsb' i n = 0#n) : (w &&& m).extractLsb' i n = 0#n := by
  rw [BitVec.extractLsb'_and, h, BitVec.and_zero]

/-! The masks of the map keep the opcode and the reserved-zero bits of the format, and for TBLW the top bit of `TID`. -/

theorem row_formatN (k : BitVec 8) :
    w &&& 0xFFFFFFFF#32 = 0#24 ++ k ↔ (w.extractLsb' 0 8).toNat = k.toNat ∧ w.extractLsb' 8 24 = 0#24 := by
  rw [eq_formatN, extract_masked w (by decide), extract_masked w (by decide), BitVec.toNat_inj, and_comm]

theorem row_formatB (k : BitVec 8) :
    w &&& 0xFFFFFEFF#32 = 0#23 ++ 0#1 ++ k ↔ (w.extractLsb' 0 8).toNat = k.toNat ∧ w.extractLsb' 9 23 = 0#23 := by
  rw [eq_formatB, extract_masked w (by decide), extract_cleared w (by decide), extract_masked w (by decide),
    BitVec.toNat_inj]
  tauto

theorem row_formatP (k : BitVec 8) :
    w &&& 0xFFFFF0FF#32 = 0#20 ++ 0#2 ++ 0#1 ++ 0#1 ++ k ↔
      (w.extractLsb' 0 8).toNat = k.toNat ∧ w.extractLsb' 12 20 = 0#20 := by
  rw [eq_formatP, extract_masked w (by decide), extract_cleared w (by decide), extract_cleared w (by decide),
    extract_cleared w (by decide), extract_masked w (by decide), BitVec.toNat_inj]
  tauto

/-- The mask of TBLW keeps the top bit of `TID`, which is clear when `TID` is below 8. -/
theorem tid_mask_iff (tid : BitVec 4) : tid &&& 8#4 = 0#4 ↔ tid.toNat < 8 := by
  revert tid
  decide

theorem row_formatT (k : BitVec 8) :
    w &&& 0xF00008FF#32 = 0#4 ++ 0#7 ++ 0#9 ++ 0#4 ++ k ↔
      (w.extractLsb' 0 8).toNat = k.toNat ∧ w.extractLsb' 28 4 = 0#4 ∧ (w.extractLsb' 8 4).toNat < 8 := by
  have htid : (w &&& 0xF00008FF#32).extractLsb' 8 4 = w.extractLsb' 8 4 &&& 8#4 := BitVec.extractLsb'_and
  rw [eq_formatT, htid, tid_mask_iff, extract_masked w (by decide), extract_cleared w (by decide),
    extract_cleared w (by decide), extract_masked w (by decide), BitVec.toNat_inj]
  tauto

theorem row_pass :
    w &&& 0xFFFFF0FF#32 = 0x00000005#32 ↔ (w.extractLsb' 0 8).toNat = 5 ∧ w.extractLsb' 12 20 = 0#20 :=
  row_formatP w 5#8

/-- A word matches no row of the opcode map, row by row. -/
theorem no_row_iff : (∀ r ∈ opcodeRows, w &&& r.2 ≠ r.1) ↔
    ¬ ((w.extractLsb' 0 8).toNat = 1 ∧ w.extractLsb' 28 4 = 0#4 ∧ (w.extractLsb' 8 4).toNat < 8) ∧
    ¬ ((w.extractLsb' 0 8).toNat = 2 ∧ w.extractLsb' 8 24 = 0#24) ∧
    ¬ ((w.extractLsb' 0 8).toNat = 3 ∧ w.extractLsb' 9 23 = 0#23) ∧
    ¬ ((w.extractLsb' 0 8).toNat = 4 ∧ w.extractLsb' 8 24 = 0#24) ∧
    ¬ ((w.extractLsb' 0 8).toNat = 5 ∧ w.extractLsb' 12 20 = 0#20) ∧
    ¬ ((w.extractLsb' 0 8).toNat = 6 ∧ w.extractLsb' 9 23 = 0#23) ∧
    ¬ ((w.extractLsb' 0 8).toNat = 7 ∧ w.extractLsb' 9 23 = 0#23) := by
  simp only [opcodeRows, List.forall_mem_cons, List.not_mem_nil, false_implies, implies_true, and_true]
  exact and_congr (not_congr (row_formatT w 1#8)) <| and_congr (not_congr (row_formatN w 2#8)) <|
    and_congr (not_congr (row_formatB w 3#8)) <| and_congr (not_congr (row_formatN w 4#8)) <|
    and_congr (not_congr (row_pass w)) <| and_congr (not_congr (row_formatB w 6#8)) (not_congr (row_formatB w 7#8))

/-- An illegal word matches no row; a reserved `IVSEL` is the one clause that no row states (30 R118). -/
theorem illegalWord_iff_rows : illegalWord w ↔
    (∀ r ∈ opcodeRows, w &&& r.2 ≠ r.1) ∨ (w &&& 0xFFFFF0FF#32 = 0x00000005#32 ∧ w.extractLsb' 10 2 = 0#2) := by
  rw [no_row_iff, row_pass, illegalWord]
  rcases opcode_cases (w.extractLsb' 0 8).toNat with ho | ho | ho | ho | ho | ho | ho | ho
  · simp [ho, imp_iff_not_or]
  · simp [ho]
  · simp [ho]
  · simp [ho]
  · by_cases hz : w.extractLsb' 12 20 = 0#20 <;> simp [ho, hz]
  · simp [ho]
  · simp [ho]
  · generalize (w.extractLsb' 0 8).toNat = n at ho
    obtain ⟨h1, h2, h3, h4, h5, h6, h7⟩ : n ≠ 1 ∧ n ≠ 2 ∧ n ≠ 3 ∧ n ≠ 4 ∧ n ≠ 5 ∧ n ≠ 6 ∧ n ≠ 7 := by omega
    simp [h1, h2, h3, h4, h5, h6, h7, ho]

end

/-- Settles O3: the decoder's checks against the clauses of `illegalWord`, and these against the rows of the map. -/
theorem decoderRejectsExactlyIllegalWords : Obligations.DecoderRejectsExactlyIllegalWords :=
  fun w => ⟨decode_rejects_iff_illegalWord, illegalWord_iff_rows w⟩

/-- Settles O4: each word is the encoder's word of the well-formed command it stands for. -/
theorem wordsOfEveryCommandDecode : Obligations.WordsOfEveryCommandDecode :=
  ⟨decode_of_eq_encode (i := .tblw 0#4 0#9 58#7) rfl rfl, decode_of_eq_encode (i := .tblw 7#4 511#9 11#7) rfl rfl,
    decode_of_eq_encode (i := .tblc) rfl rfl, decode_of_eq_encode (i := .desb .dec) rfl rfl,
    decode_of_eq_encode (i := .ivgen) rfl rfl, decode_of_eq_encode (i := .pass .enc .k2 2#2) rfl rfl,
    decode_of_eq_encode (i := .edee .conc) rfl rfl, decode_of_eq_encode (i := .eded .seq) rfl rfl⟩

/-! ## Issuing a command word (30 R110, R119) -/

/-- A step that takes a command word is the step of the state with that word placed in front. -/
theorem step_of_command {s : State} {w : Word} {rest : List Event} (h : s.events = Event.write 0x00000 4 w :: rest) :
    step s = step (withCommand w { s with events := rest }) :=
  step_of_event h

/-- Settles O5: both ways of placing the event come to `withCommand`. -/
theorem stepRunsTheDecodedCommand : Obligations.StepRunsTheDecodedCommand := by
  intro s w i hw
  refine ⟨fun rest h => (step_of_command h).trans (step_withCommand hw _), fun n hn hlt => ?_⟩
  rw [State.withFetchWord, Nat.mod_eq_of_lt hlt, hn, step_withCommand hw]

/-- An idle core decodes the command word it takes. -/
theorem step_withCommand_of_idle {s : State} (hb : s.status.busy = false) (w : Word) :
    step (withCommand w s) = commandWrite w s := by
  have hwrite : step (withCommand w s) = hostWrite Config.params 0x00000 4 w s := rfl
  have hdef : definedAccess 0x00000 4 = true := by decide
  have hidle : ¬ s.status.busy = true := by rw [hb]; decide
  rw [hwrite, hostWrite_of_defined _ hdef, if_neg hidle, if_pos (commandAt _)]

/-- In an idle state an illegal word is accepted and raises ILLEGAL (30 R119). -/
theorem commandWrite_of_illegalWord {s : State} {w : Word} (hb : s.status.busy = false) (hw : illegalWord w) :
    commandWrite w s = .next (errorState .illegal s) := by
  obtain ⟨e, he⟩ := decode_rejects_iff_illegalWord.mpr hw
  rw [commandWrite_of_illegal he, issue_of_idle hb]
  rfl

/-- Settles O6: the write to `CMD` is taken, and the word is issued. -/
theorem illegalWordRaisesIllegal : Obligations.IllegalWordRaisesIllegal := by
  intro s w rest hb hw
  exact (step_withCommand_of_idle (s := { s with events := rest }) hb w).trans (commandWrite_of_illegalWord hb hw)

end Sys2Proof.Machine
end

