-- ==== Sys2Proof/Proofs/Tables.lean ====
section
/-! PROOFS. The statements of 40_tables.md. First what each command may write at its issue, and the frame of all seven;
then TBLW and TBLC outcome by outcome; then the lock, from what one step of an idle core can do; last the right shifts
that match given left shifts. -/

namespace Sys2Proof.Machine

/-! ## What a command writes at its issue -/

section

variable (s : State)

/-- TBLW writes the table store and `STATUS` (40 R152). -/
theorem tblwBody_writes (tid : BitVec 4) (idx : BitVec 9) (val : Entry) :
    ∃ f T W, tblwBody tid idx val s = { s with status := f, tbl := T, wr := W } ∧
      f.busy = s.status.busy ∧ f.tblOk = s.status.tblOk := by
  rcases tblwBody_cases tid idx val s with ⟨-, e⟩ | ⟨t, -, ⟨-, e⟩ | ⟨-, -, e⟩ | ⟨-, -, e⟩⟩ <;>
    exact ⟨_, _, _, e, rfl, rfl⟩

/-- TBLC writes `STATUS` alone (40 R153). -/
theorem tblcBody_writes : ∃ f, tblcBody s = { s with status := f } ∧ f.busy = s.status.busy := by
  rcases tblcBody_cases s with ⟨-, e⟩ | ⟨-, -, e⟩ | ⟨-, -, e⟩ <;> exact ⟨_, e, rfl⟩

/-- DESB writes `IDX`, `RUN` but its mode, and `STATUS` (41 R203; log entries 6 and 26). -/
theorem desbBody_writes (dir : Dir) :
    ∃ f op l n, desbBody dir s = { s with status := f, run := { s.run with op := op, latch := l }, idx := n } ∧
      f.tblOk = s.status.tblOk ∧
      (n = s.idx ∨ n = { s1 := s.nblk.toNat, s2 := s.nblk.toNat, s3 := s.nblk.toNat }) := by
  rcases desbBody_cases dir s with ⟨-, e⟩ | ⟨-, e⟩
  · exact ⟨_, _, _, _, e, rfl, .inl rfl⟩
  · exact ⟨_, _, _, _, e, rfl, .inr rfl⟩

/-- PASS writes stage 1, the indices, `RUN` but its latch, and `STATUS` (42 R244). -/
theorem passBody_writes (P : Params) (dir : Dir) (ksel : KeySel) (ivsel : BitVec 2) :
    ∃ f op m n v p, passBody P dir ksel ivsel s =
        { s with
          status := f, run := { s.run with op := op, mode := m }, idx := n
          vec := { s.vec with s1 := v }, pp := { s.pp with s1 := p } } ∧
      f.tblOk = s.status.tblOk := by
  rcases passBody_cases P dir ksel ivsel s with ⟨-, e⟩ | ⟨iv, -, ⟨-, e⟩ | ⟨-, -, e⟩ | ⟨-, -, e⟩⟩ <;>
    exact ⟨_, _, _, _, _, _, e, rfl⟩

/-- EDEE and EDED write all three stages, the handshake file, `RUN` but its latch, and `STATUS` (43 R286). -/
theorem tripleBody_writes (P : Params) (op : RunOp) (mode : Mode) (pp : PerStage PassParams) :
    ∃ f o m n v p c, tripleBody P op mode pp s =
        { s with
          status := f, run := { s.run with op := o, mode := m }, idx := n, vec := v, pp := p, sem := c } ∧
      f.tblOk = s.status.tblOk := by
  rcases tripleBody_cases P op mode pp s with ⟨-, e⟩ | ⟨-, -, e⟩ | ⟨-, -, e⟩ <;>
    exact ⟨_, _, _, _, _, _, _, e, rfl⟩

end

/-- Settles O11: an ignored command leaves the state, and an accepted one writes what its `_writes` lemma lists. -/
theorem commandsChangeOnlyTheirState : Obligations.CommandsChangeOnlyTheirState := by
  intro i s t h
  rcases exec_cases i s with ⟨-, e⟩ | ⟨-, e⟩ <;> rw [e] at h <;> cases h
  · simp
  · cases i with
    | tblw tid idx val =>
      obtain ⟨f, T, W, e, hb, ho⟩ := tblwBody_writes s.accepted tid idx val
      simp [commandBody, e, hb, ho]
    | tblc =>
      obtain ⟨f, e, hb⟩ := tblcBody_writes s.accepted
      simp [commandBody, e, hb]
    | desb dir =>
      obtain ⟨f, op, l, n, e, ho, hn⟩ := desbBody_writes s.accepted dir
      simpa [commandBody, e, ho] using hn
    | ivgen => simp [commandBody, ivgenBody]
    | pass dir ksel ivsel =>
      obtain ⟨f, op, m, n, v, p, e, ho⟩ := passBody_writes s.accepted Config.params dir ksel ivsel
      simp [commandBody, e, ho]
    | edee mode =>
      obtain ⟨f, o, m, n, v, p, c, e, ho⟩ :=
        tripleBody_writes s.accepted Config.params .edee mode (edeePasses s.accepted)
      simp [commandBody, e, ho]
    | eded mode =>
      obtain ⟨f, o, m, n, v, p, c, e, ho⟩ :=
        tripleBody_writes s.accepted Config.params .eded mode (ededPasses s.accepted)
      simp [commandBody, e, ho]

/-! ## TBLW (40 R152) -/

theorem exec_of_idle {s : State} (hb : s.status.busy = false) (i : Instr) :
    exec i s = .next (commandBody i s.accepted) :=
  (exec_eq_issue i s).trans (issue_of_idle hb)

theorem tableOfTid_eq_none : ∀ {tid : BitVec 4}, 8 ≤ tid.toNat → tableOfTid tid = none := by decide

theorem tableOfTid_tidOfTable (tab : TableId) : tableOfTid (tidOfTable tab) = some tab := by cases tab <;> rfl

/-- Every `TID` below 8 names a table (30 R121). -/
theorem exists_tidOfTable : ∀ {tid : BitVec 4}, tid.toNat < 8 → ∃ tab, tid = tidOfTable tab := by
  have h : ∀ tid : BitVec 4, tid.toNat < 8 → ∃ tab ∈ allTables, tid = tidOfTable tab := by decide
  exact fun {tid} ht => (h tid ht).imp fun _ => And.right

section

variable {s : State} (hb : s.status.busy = false) (idx : BitVec 9) (val : Entry)

include hb

theorem exec_tblw_illegal {tid : BitVec 4} (ht : 8 ≤ tid.toNat) :
    exec (.tblw tid idx val) s = .next (errorState .illegal s) := by
  rw [exec_of_idle hb, commandBody, tblwBody, tableOfTid_eq_none ht]
  rfl

/-- TBLW on a table: its two checks, and the write. -/
theorem exec_tblw_table (tab : TableId) :
    exec (.tblw (tidOfTable tab) idx val) s = .next (
      if s.status.tblOk then errorState .locked s
      else if tab.size ≤ idx.toNat then errorState .struct s
      else { doneState s with tbl := tableSet s.tbl tab idx.toNat val, wr := tableSet s.wr tab idx.toNat true }) := by
  rw [exec_of_idle hb, commandBody, tblwBody, tableOfTid_tidOfTable]
  rfl

theorem exec_tblw_locked (tab : TableId) (ho : s.status.tblOk = true) :
    exec (.tblw (tidOfTable tab) idx val) s = .next (errorState .locked s) := by
  rw [exec_tblw_table hb, if_pos ho]

end

/-- Read after write of an entry its table has. -/
theorem tableGet_tableSet_of_lt {α : Type} (T : TableStore α) {tab : TableId} {i : Nat} (hi : i < tab.size) (v : α)
    (u : TableId) (j : Nat) :
    tableGet (tableSet T tab i v) u j = if u = tab ∧ j = i then some v else tableGet T u j := by
  rw [tableGet_tableSet]
  simp only [hi, and_true, eq_comm]

/-- Settles O12: the outcomes are those of `exec_tblw_table`, and the written stores are read back entry by entry. -/
theorem tblwWritesOneEntry : Obligations.TblwWritesOneEntry := by
  intro tid idx val s hb
  refine ⟨exec_tblw_illegal hb idx val, fun w hopc hres => ?_, ?_⟩
  · have hopc' : (w.extractLsb' 0 8).toNat = 1 := by rw [hopc]; rfl
    exact commandWrite_of_illegalWord hb (.inr (.inr (.inl ⟨hopc', .inl hres⟩)))
  · rintro tab rfl
    refine ⟨exec_tblw_locked hb idx val tab, fun ho hi => ?_, fun ho hi => ?_⟩
    · rw [exec_tblw_table hb, ho, if_neg Bool.false_ne_true, if_pos hi]
    · have hw := exec_tblw_table hb idx val tab
      rw [ho, if_neg Bool.false_ne_true, if_neg (Nat.not_le.mpr hi)] at hw
      exact ⟨_, hw, rfl, tableGet_tableSet_of_lt s.tbl hi val, tableGet_tableSet_of_lt s.wr hi true⟩

/-! ## TBLC (40 R153) -/

/-- TBLC in an idle core: the re-commit, and the check. -/
theorem exec_tblc {s : State} (hb : s.status.busy = false) :
    exec .tblc s = .next (
      if s.status.tblOk then doneState s
      else if tablesReady s.tbl s.wr then
        { s with status := { s.status with done := true, tblOk := true, err := .noError } }
      else errorState .cfg s) := by
  rw [exec_of_idle hb, commandBody, tblcBody]
  rfl

/-- One unwritten or illegal entry fails the commit check. -/
theorem tablesReady_eq_false {tbl : TableStore Entry} {wr : TableStore Bool} {t : TableId} {i : Nat} (hi : i < t.size)
    (h : tableGet wr t i = some false ∨ ∃ v, tableGet tbl t i = some v ∧ legalEntry t v = false) :
    tablesReady tbl wr = false := by
  refine Bool.eq_false_iff.mpr fun hr => ?_
  obtain ⟨hw, v, hv, hl⟩ := (tablesReady_iff tbl wr).mp hr t i hi
  rcases h with h | ⟨u, hu, hbad⟩
  · rw [hw] at h; cases h
  · rw [hv] at hu; cases hu
    rw [hl] at hbad; cases hbad

/-- Settles O13: the outcomes are those of `exec_tblc`, its check read entry by entry. -/
theorem tblcCommitsCompleteTables : Obligations.TblcCommitsCompleteTables := by
  intro s hb
  refine ⟨fun ho => ?_, fun ho hall => ?_, fun ho ⟨t, i, hi, hbad⟩ => ?_, fun w hopc hres => ?_⟩
  · rw [exec_tblc hb, if_pos ho]
  · rw [exec_tblc hb, ho, if_neg Bool.false_ne_true, if_pos ((tablesReady_iff _ _).mpr hall)]
  · rw [exec_tblc hb, ho, if_neg Bool.false_ne_true, tablesReady_eq_false hi hbad, if_neg Bool.false_ne_true]
  · have hopc' : (w.extractLsb' 0 8).toNat = 2 := by rw [hopc]; rfl
    exact commandWrite_of_illegalWord hb (.inr (.inr (.inr (.inl ⟨.inl hopc', hres⟩))))

/-! ## Committed tables (40 R154) -/

/-- Everything a step but a reset can do to an idle core: only the model's own fields change, an enabled agent takes its
core step (in a state that meets the invariant none is enabled), the host's command word is issued, or the host writes
one word (20 R79, R82; 60 R345). -/
theorem step_of_idle_cases {s t : State} (hb : s.status.busy = false)
    (hr : ∀ d rest, s.events ≠ Event.reset d :: rest) (hs : step s = .next t) :
    (∃ ev r n, t = { s with events := ev, rdata := r, draws := n }) ∨
    (∃ st ev n, enabled s st = true ∧ t = coreStep Config.params st { s with events := ev, draws := n }) ∨
    (∃ w rest, commandWrite w { s with events := rest } = .next t) ∨
    (∃ r w rest, t = writeReg r w { s with events := rest }) := by
  cases hev : s.events with
  | nil =>
    rw [step_of_no_event hev] at hs
    cases hs
    rcases coreAlone_cases Config.params s with ⟨-, e⟩ | ⟨st, n, he, e⟩
    · exact .inl ⟨_, _, _, e⟩
    · exact .inr (.inl ⟨st, _, n, he, e⟩)
  | cons e rest =>
    rw [step_of_event hev] at hs
    cases e with
    | write off size w =>
      rw [takeEvent] at hs
      rcases hostWrite_cases Config.params off size w { s with events := rest } with
        ⟨-, e⟩ | ⟨-, -, e⟩ | ⟨-, -, ⟨-, e⟩ | ⟨-, -, e⟩ | ⟨-, -, e⟩⟩ <;> rw [e] at hs
      · cases hs
      · cases hs
      · cases hs; exact .inl ⟨_, _, _, rfl⟩
      · exact .inr (.inr (.inl ⟨_, _, hs⟩))
      · cases hs; exact .inr (.inr (.inr ⟨_, _, _, rfl⟩))
    | read off size =>
      rw [takeEvent] at hs
      rcases hostRead_cases Config.params off size { s with events := rest } with ⟨-, e⟩ | ⟨-, -, e⟩ | ⟨-, -, e⟩ <;>
        (rw [e] at hs; cases hs)
      rcases readReg_cases (registerAt Config.params off) { s with events := rest } with ⟨-, e⟩ | ⟨-, e⟩ <;>
        exact .inl ⟨_, _, _, e⟩
    | poll =>
      cases hs
      refine .inl ⟨_, _, _, (hostPoll_eq _ _).trans (if_neg ?_)⟩
      rw [hb]
      decide
    | turn st =>
      cases hs
      rcases stageTurn_cases Config.params st { s with events := rest } with ⟨-, e⟩ | ⟨he, e⟩
      · exact .inl ⟨_, _, _, e⟩
      · exact .inr (.inl ⟨st, _, _, he, e⟩)
    | reset d => exact absurd hev (hr d rest)

/-- The table set and its lock: every entry, every `WR` bit and `TBL_OK` (10 R38 to R40). -/
def tableSetOf (s : State) : TableStore Entry × TableStore Bool × Bool := (s.tbl, s.wr, s.status.tblOk)

theorem writeReg_tableSetOf (r : WinReg) (w : Word) (s : State) : tableSetOf (writeReg r w s) = tableSetOf s := by
  cases r <;> rfl

theorem coreStep_tableSetOf (P : Params) {st : Stage} {s : State} (he : enabled s st = true) :
    tableSetOf (coreStep P st s) = tableSetOf s := by
  obtain ⟨hop, hst⟩ := coreStep_keepsOperands P he
  simp only [operandsOf, Prod.mk.injEq] at hop
  obtain ⟨-, -, -, -, -, -, -, htbl, hwr, -⟩ := hop
  have hok : (coreStep P st s).status.tblOk = s.status.tblOk := by
    rcases hst with e | e
    · rw [e]
    · rw [e]; rfl
  rw [tableSetOf, htbl, hwr, hok, tableSetOf]

/-- On committed tables TBLW and TBLC write no table, and no other command ever does. -/
theorem commandBody_tableSetOf (i : Instr) {s : State} (ho : s.status.tblOk = true) :
    tableSetOf (commandBody i s) = tableSetOf s := by
  cases i with
  | tblw tid idx val =>
    rcases tblwBody_cases tid idx val s with ⟨-, e⟩ | ⟨t, -, ⟨-, e⟩ | ⟨h, -, -⟩ | ⟨h, -, -⟩⟩
    · rw [commandBody, e]; rfl
    · rw [commandBody, e]; rfl
    · exact absurd (ho.symm.trans h) (by decide)
    · exact absurd (ho.symm.trans h) (by decide)
  | tblc =>
    rcases tblcBody_cases s with ⟨-, e⟩ | ⟨h, -, -⟩ | ⟨h, -, -⟩
    · rw [commandBody, e]; rfl
    · exact absurd (ho.symm.trans h) (by decide)
    · exact absurd (ho.symm.trans h) (by decide)
  | desb dir =>
    obtain ⟨f, op, l, n, e, hf, -⟩ := desbBody_writes s dir
    simp only [commandBody, e, tableSetOf, hf]
  | ivgen => rfl
  | pass dir ksel ivsel =>
    obtain ⟨f, op, m, n, v, p, e, hf⟩ := passBody_writes s Config.params dir ksel ivsel
    simp only [commandBody, e, tableSetOf, hf]
  | edee mode =>
    obtain ⟨f, o, m, n, v, p, c, e, hf⟩ := tripleBody_writes s Config.params .edee mode (edeePasses s)
    simp only [commandBody, e, tableSetOf, hf]
  | eded mode =>
    obtain ⟨f, o, m, n, v, p, c, e, hf⟩ := tripleBody_writes s Config.params .eded mode (ededPasses s)
    simp only [commandBody, e, tableSetOf, hf]

theorem commandWrite_tableSetOf {w : Word} {s t : State} (ho : s.status.tblOk = true)
    (h : commandWrite w s = .next t) : tableSetOf t = tableSetOf s := by
  cases hw : decode w with
  | ok i =>
    rw [commandWrite_of_decode hw] at h
    rcases exec_cases i s with ⟨-, e⟩ | ⟨-, e⟩ <;> rw [e] at h <;> cases h
    · rfl
    · exact commandBody_tableSetOf i ho
  | error c =>
    rw [commandWrite_of_illegal hw, issue] at h
    split at h <;> cases h <;> rfl

/-- No agent but the reset signal changes a committed table set (60 R345). -/
theorem step_tableSetOf {s t : State} (ho : s.status.tblOk = true) (hr : ∀ d rest, s.events ≠ Event.reset d :: rest)
    (hs : step s = .next t) : tableSetOf t = tableSetOf s := by
  cases hb : s.status.busy
  · rcases step_of_idle_cases hb hr hs with
      ⟨ev, r, n, rfl⟩ | ⟨st, ev, n, he, rfl⟩ | ⟨w, rest, hw⟩ | ⟨r, w, rest, rfl⟩
    · rfl
    · exact coreStep_tableSetOf Config.params (s := { s with events := ev, draws := n }) he
    · exact commandWrite_tableSetOf (s := { s with events := rest }) ho hw
    · exact writeReg_tableSetOf r w { s with events := rest }
  · rcases step_of_busy_cases hb hr hs with ⟨ev, r, n, rfl⟩ | ⟨st, ev, r, n, he, rfl⟩
    · rfl
    · exact coreStep_tableSetOf Config.params (s := { s with events := ev, rdata := r, draws := n }) he

/-- Settles O14: a step keeps the committed set and its lock, and a legal `TID` names a table. -/
theorem committedTablesAreImmutable : Obligations.CommittedTablesAreImmutable := by
  intro s ho
  refine ⟨fun t hr hs => ?_, fun tid idx val hb ht => ?_⟩
  · simpa only [tableSetOf, Prod.mk.injEq, ho] using step_tableSetOf ho hr hs
  · obtain ⟨tab, rfl⟩ := exists_tidOfTable ht
    exact exec_tblw_locked hb idx val tab ho

/-! ## Matching shift schedules (40 R157, R158) -/

theorem shiftSum_succ {xs : List Entry} {n : Nat} (h : n < xs.length) :
    shiftSum xs (n + 1) = shiftSum xs n + xs[n].toNat := by
  rw [shiftSum, shiftSum, List.map_take, List.map_take, List.sum_take_succ _ _ (by simpa using h), List.getElem_map]

/-- The left shifts determine every sum of matching right shifts modulo 28. -/
theorem shiftSum_mod_of_matches {ls rs rs' : List Entry} (h : rsMatchesLs ls rs) (h' : rsMatchesLs ls rs') {n : Nat}
    (hn : n ≤ 16) : shiftSum rs n % 28 = shiftSum rs' n % 28 := by
  cases n with
  | zero => rfl
  | succ r =>
    have hr := h r hn
    have hr' := h' r hn
    omega

/-- At most one schedule of sixteen counts in 0 to 27 matches given left shifts: each count is the difference of two
sums, and both sums are known modulo 28. -/
theorem rs_unique_of_matches {ls rs rs' : List Entry} (hlen : rs.length = 16) (hlen' : rs'.length = 16)
    (hle : ∀ v ∈ rs, v.toNat ≤ 27) (hle' : ∀ v ∈ rs', v.toNat ≤ 27) (h : rsMatchesLs ls rs)
    (h' : rsMatchesLs ls rs') : rs = rs' := by
  refine List.ext_getElem (hlen.trans hlen'.symm) fun i hi hi' => BitVec.eq_of_toNat_eq ?_
  have hbefore := shiftSum_mod_of_matches h h' (n := i) (by omega)
  have hafter := shiftSum_mod_of_matches h h' (n := i + 1) (by omega)
  rw [shiftSum_succ hi, shiftSum_succ hi'] at hafter
  have hv := hle _ (List.getElem_mem hi)
  have hv' := hle' _ (List.getElem_mem hi')
  omega

theorem defaultRs_matches : rsMatchesLs defaultTables.ls.toList defaultTables.rs.toList := by
  unfold rsMatchesLs
  decide +kernel

theorem defaultRs_le : ∀ v ∈ defaultTables.rs.toList, v.toNat ≤ 27 := by decide +kernel

theorem defaultRs_toNat :
    defaultTables.rs.toList.map BitVec.toNat = [0, 1, 2, 2, 2, 2, 2, 2, 1, 2, 2, 2, 2, 2, 2, 1] := by decide +kernel

/-- Settles O23: the default right shifts match, and no other schedule does. -/
theorem defaultRightShiftsAreTheOnlyMatch : Obligations.DefaultRightShiftsAreTheOnlyMatch := by
  intro rs hlen hle
  rw [← defaultRs_toNat, (List.map_injective_iff.mpr fun _ _ => BitVec.eq_of_toNat_eq).eq_iff]
  constructor
  · exact fun h => rs_unique_of_matches hlen Vector.length_toList hle defaultRs_le h defaultRs_matches
  · rintro rfl
    exact defaultRs_matches

end Sys2Proof.Machine
end

