-- ==== Sys2Proof/Proofs/Cipher.lean ====
section
/-! PROOFS. The statements of 41_cipher_core.md. First the layers of the transform one by one: the reduced key, the
subkeys, the S-box lanes, the round loop. Then its algebra: the matching right shifts reverse the subkeys, reversed
subkeys undo the rounds, and the complement passes through every layer. Last the command DESB. -/

namespace Sys2Proof.Machine

/-! ## The reduced key (41 R191) -/

theorem keptKeyBits_getD {k : Nat} (h : k < 56) : keptKeyBits.getD k 0 = k + 1 + k / 7 := by
  simp [keptKeyBits, List.getD_eq_getElem?_getD, h]

theorem dbit_reduceKey (key : Block) (i : Nat) (h1 : 1 ≤ i) (h56 : i ≤ 56) :
    dbit (reduceKey key) i = dbit key (i + (i - 1) / 7) := by
  rw [reduceKey, dbit_selectBits keptKeyBits key (by simp [keptKeyBits]) i h1 h56, keptKeyBits_getD (by omega),
    Nat.sub_add_cancel h1]

/-- Settles O15: it is the law of the reduced key's DES bits. -/
theorem reducedKeyKeepsSevenBitsOfEight : Obligations.ReducedKeyKeepsSevenBitsOfEight := dbit_reduceKey

/-! ## The S-box lanes (41 R196, R197) -/

/-- Row and column read only the six bits of the group. -/
theorem rowColumn_congr (order : SboxIndexOrder) {g g' : Nat → Nat} (h : ∀ k, 1 ≤ k → k ≤ 6 → g k = g' k) :
    rowColumn order g = rowColumn order g' := by
  cases order <;> simp [rowColumn, h]

theorem sboxIndex_eq_rowColumn (order : SboxIndexOrder) (g : BitVec 6) :
    sboxIndex order g = 16 * (rowColumn order fun k => (g.getLsbD (6 - k)).toNat).1 +
      (rowColumn order fun k => (g.getLsbD (6 - k)).toNat).2 := by
  cases order <;> rfl

/-- Bit `g_k` of the group of lane `i` is DES bit `6(i-1) + k` of the input. -/
theorem getLsbD_group (y : BitVec 48) {i k : Nat} (h1 : 1 ≤ i) (h8 : i ≤ 8) (hk1 : 1 ≤ k) (hk6 : k ≤ 6) :
    (y.extractLsb' (48 - 6 * i) 6).getLsbD (6 - k) = dbit y (6 * (i - 1) + k) := by
  rw [BitVec.getLsbD_extractLsb', dbit, BitVec.getMsbD, decide_eq_true (by omega), decide_eq_true (by omega),
    Bool.true_and, Bool.true_and]
  congr 1; omega

/-- The cell a lane selects, by the table of 41 R196. -/
theorem sboxLane_eq (order : SboxIndexOrder) (sb : Vector Entry 512) (y : BitVec 48) {i : Nat} (h1 : 1 ≤ i)
    (h8 : i ≤ 8) :
    sboxLane order sb y i =
      (sb.toList.getD
        (64 * (i - 1) + 16 * (rowColumn order fun k => (dbit y (6 * (i - 1) + k)).toNat).1 +
          (rowColumn order fun k => (dbit y (6 * (i - 1) + k)).toNat).2) 0#7).extractLsb' 0 4 := by
  have hbits : (rowColumn order fun k => ((y.extractLsb' (48 - 6 * i) 6).getLsbD (6 - k)).toNat) =
      rowColumn order fun k => (dbit y (6 * (i - 1) + k)).toNat :=
    rowColumn_congr order fun k hk1 hk6 => congrArg Bool.toNat (getLsbD_group y h1 h8 hk1 hk6)
  rw [sboxLane, sboxIndex_eq_rowColumn, hbits, BitVec.setWidth_eq_extractLsb' (by decide), Nat.add_assoc]

/-- Lane `i` writes DES bits `4i-3` to `4i` of the layer. -/
theorem extract_sboxLayer (order : SboxIndexOrder) (sb : Vector Entry 512) (y : BitVec 48) {i : Nat} (h1 : 1 ≤ i)
    (h8 : i ≤ 8) : (sboxLayer order sb y).extractLsb' (32 - 4 * i) 4 = sboxLane order sb y i := by
  unfold sboxLayer
  interval_cases i <;>
    simp only [Nat.reduceMul, Nat.reduceSub, Nat.reduceLeDiff, BitVec.extractLsb'_append_eq_of_le,
      BitVec.extractLsb'_append_eq_right, BitVec.extractLsb'_eq_self]

/-- Settles O17: the bits of the layer are a lane's, and a lane is its cell. -/
theorem sboxLanesSelectTheirCells : Obligations.SboxLanesSelectTheirCells := by
  intro order sb y i h1 h8
  rw [extract_sboxLayer order sb y h1 h8, sboxLane_eq order sb y h1 h8]

/-! ## The loop (41 R202) -/

/-- The block halves of a loop state. -/
def LoopState.halves (q : LoopState) : Halves := { l := q.l, r := q.r }

/-- Turn `r` of the loop is one rotation, one contraction and one round with count `n` of the direction's schedule. -/
theorem loopTurn_eq (order : SboxIndexOrder) (tb : TableStore Entry) (dec : Bool) (q : LoopState) {r : Nat} {n : Entry}
    (hn : (shiftSchedule tb dec).getD r 0#7 = n) :
    loopTurn order tb dec q r =
      { c := rotateHalf dec q.c n
        d := rotateHalf dec q.d n
        l := q.r
        r := q.l ^^^
          feistel order tb q.r (permute tb.pc2 (rotateHalf dec q.c n ++ rotateHalf dec q.d n : BitVec 56)) } := by
  subst hn
  cases dec <;> rfl

/-- The loop from turn `k` on runs the rounds with the subkeys of the remaining counts. -/
theorem foldl_loopTurn_halves (order : SboxIndexOrder) (tb : TableStore Entry) (dec : Bool) (ns : List Entry) (k : Nat)
    (q : LoopState) (hns : (shiftSchedule tb dec).drop k = ns) :
    ((List.range' k ns.length).foldl (loopTurn order tb dec) q).halves =
      feistelRounds order tb q.halves (subkeysFrom tb.pc2 dec ns q.c q.d) := by
  induction ns generalizing k q with
  | nil => rfl
  | cons n ns ih =>
    have hn : (shiftSchedule tb dec).getD k 0#7 = n := by
      rw [List.getD_eq_getElem?_getD, ← Nat.add_zero k, ← List.getElem?_drop, hns]; rfl
    have hrest : (shiftSchedule tb dec).drop (k + 1) = ns := by
      rw [← List.drop_drop, hns, List.drop_one, List.tail_cons]
    rw [List.length_cons, List.range'_succ, List.foldl_cons, ih (k + 1) _ hrest, loopTurn_eq order tb dec q hn]
    rfl

theorem shiftSchedule_length (tb : TableStore Entry) (dec : Bool) : (shiftSchedule tb dec).length = 16 := by
  cases dec <;> exact Vector.length_toList

/-- Settles O18: the sixteen turns of the loop are the sixteen rounds of the key schedule. -/
theorem transformIsTheLoopOfRule202 : Obligations.TransformIsTheLoopOfRule202 := by
  intro order tb x key dec
  have hloop := foldl_loopTurn_halves order tb dec (shiftSchedule tb dec) 0
    { c := halfC (reduceKey key), d := halfD (reduceKey key), l := (splitBlock tb x).l, r := (splitBlock tb x).r } rfl
  rw [shiftSchedule_length, ← List.range_eq_range'] at hloop
  exact (congrArg (joinHalves tb) hloop).symm

/-! ## Matching right shifts reverse the subkeys (41 R205) -/

/-- Subkey `r` contracts the key halves rotated by the first `r + 1` counts together. -/
theorem keySchedule_getElem? (tb : TableStore Entry) (key : Block) (dec : Bool) {r : Nat} (h : r < 16) :
    (keySchedule tb key dec)[r]? =
      some (permute tb.pc2 (rotated dec (halfC (reduceKey key)) (shiftSum (shiftSchedule tb dec) (r + 1)) ++
        rotated dec (halfD (reduceKey key)) (shiftSum (shiftSchedule tb dec) (r + 1)) : BitVec 56)) :=
  subkeysFrom_getElem? tb.pc2 dec _ _ _ r (by rwa [shiftSchedule_length])

/-- A list of sixteen subkeys is the key schedule when each of the sixteen is. -/
theorem keySchedule_eq_of_getElem? {tb : TableStore Entry} {key : Block} {dec : Bool} {ks : List (BitVec 48)}
    (hlen : ks.length = 16) (h : ∀ r, r < 16 → (keySchedule tb key dec)[r]? = ks[r]?) :
    keySchedule tb key dec = ks := by
  refine List.ext_getElem?' fun r hr => h r ?_
  rwa [keySchedule_length, hlen, Nat.max_self] at hr

/-- Settles O19: the right rotation before a round is the left rotation before the matching one. -/
theorem keyScheduleIsSymmetric : Obligations.KeyScheduleIsSymmetric := by
  intro tb key hm r hr
  have hsum := hm r hr
  rw [Nat.add_comm, show 16 - r = 15 - r + 1 by omega] at hsum
  have hrot : ∀ c, rotated true c (shiftSum (shiftSchedule tb true) (r + 1)) =
      rotated false c (shiftSum (shiftSchedule tb false) (15 - r + 1)) := fun c => (rotl28_eq_rotr28 c _ _ hsum).symm
  rw [keySchedule_getElem? tb key true hr, keySchedule_getElem? tb key false (by omega), hrot, hrot]

/-- The decrypting subkeys as a list (41 R205). -/
theorem keySchedule_true_eq_reverse {tb : TableStore Entry} (h : rsMatchesLs tb.ls.toList tb.rs.toList) (key : Block) :
    keySchedule tb key true = (keySchedule tb key false).reverse := by
  refine keySchedule_eq_of_getElem? (by simp) fun r hr => ?_
  rw [List.getElem?_reverse (by rwa [keySchedule_length]), keySchedule_length]
  exact keyScheduleIsSymmetric tb key h r hr

/-! ## Reversed subkeys undo the rounds (41 R204) -/

theorem feistelRounds_undo (order : SboxIndexOrder) (tb : TableStore Entry) (h : Halves) (ks : List (BitVec 48)) :
    feistelRounds order tb (feistelRounds order tb h ks).swap ks.reverse = h.swap := by
  induction ks generalizing h with
  | nil => rfl
  | cons k ks ih =>
    have hinner : feistelRounds order tb (feistelRounds order tb (feistelRound order tb h k) ks).swap ks.reverse =
      (feistelRound order tb h k).swap := ih _
    rw [List.reverse_cons, feistelRounds, List.foldl_append]
    exact (congrArg (feistelRound order tb · k) hinner).trans (feistelRound_undo order tb h k)

/-- Every entry of the table is the number of a DES bit of an `n`-bit value. -/
def SelectsFrom (n : Nat) {m : Nat} (T : Vector Entry m) : Prop := ∀ v ∈ T.toList, 1 ≤ v.toNat ∧ v.toNat ≤ n

/-- The bit-selecting tables of a legal set read inside their operands (40 R153). -/
theorem selectsFrom_of_tablesLegal {tb : TableStore Entry} (h : tablesLegal tb) :
    SelectsFrom 64 tb.ip ∧ SelectsFrom 64 tb.fp ∧ SelectsFrom 32 tb.e ∧ SelectsFrom 56 tb.pc2 :=
  ⟨fun v hv => of_decide_eq_true (h .ip v hv), fun v hv => of_decide_eq_true (h .fp v hv),
    fun v hv => of_decide_eq_true (h .e v hv), fun v hv => of_decide_eq_true (h .pc2 v hv)⟩

theorem SelectsFrom.getD {n m : Nat} {T : Vector Entry m} (h : SelectsFrom n T) {i : Nat} (h1 : 1 ≤ i) (hm : i ≤ m) :
    1 ≤ (T.toList.getD (i - 1) 0#7).toNat ∧ (T.toList.getD (i - 1) 0#7).toNat ≤ n := by
  have hi : i - 1 < T.toList.length := by rw [Vector.length_toList]; omega
  rw [List.getD_eq_getElem _ _ hi]
  exact h _ (List.getElem_mem hi)

/-- One table selects back what another selected when it reads each bit where the other put it. -/
theorem permute_permute {n m : Nat} {S : Vector Entry m} {T : Vector Entry n} (hT : SelectsFrom m T)
    (hST : ∀ i, 1 ≤ i → i ≤ n → (S.toList.getD ((T.toList.getD (i - 1) 0#7).toNat - 1) 0#7).toNat = i)
    (v : BitVec n) : permute T (permute S v) = v := by
  refine eq_of_dbit fun i h1 hn => ?_
  obtain ⟨ht1, htm⟩ := hT.getD h1 hn
  rw [dbit_permute T _ i h1 hn, dbit_permute S v _ ht1 htm, hST i h1 hn]

section

variable {tb : TableStore Entry}

/-- The split of an output finds its halves exchanged, since the output puts the right half first (41 R199, R201). -/
theorem splitBlock_joinHalves (h : InvertibleTables tb) (q : Halves) : splitBlock tb (joinHalves tb q) = q.swap := by
  obtain ⟨hip, -, -, -⟩ := selectsFrom_of_tablesLegal h.legal
  rw [splitBlock, joinHalves, permute_permute hip fun i h1 h64 => (h.inverse i h1 h64).2, extract_append_high,
    extract_append_low]
  rfl

/-- The output of the exchanged halves of a split is the block again. -/
theorem joinHalves_swap_splitBlock (h : InvertibleTables tb) (x : Block) :
    joinHalves tb (splitBlock tb x).swap = x := by
  obtain ⟨-, hfp, -, -⟩ := selectsFrom_of_tablesLegal h.legal
  have hjoin : joinHalves tb (splitBlock tb x).swap = permute tb.fp (permute tb.ip x) :=
    congrArg (permute tb.fp) (block_of_words (permute tb.ip x))
  rw [hjoin, permute_permute hfp fun i h1 h64 => (h.inverse i h1 h64).1]

end

/-- Settles O20: the second transform splits the exchanged halves of the first and runs its rounds backwards. -/
theorem decryptingUndoesEncrypting : Obligations.DecryptingUndoesEncrypting := by
  intro order tb h x key
  rw [transform, transform, splitBlock_joinHalves h, keySchedule_true_eq_reverse h.shifts, feistelRounds_undo,
    joinHalves_swap_splitBlock h]

/-! ## Key bits that do not matter (41 R206) -/

theorem reduceKey_congr {key key' : Block} (h : ∀ i, 1 ≤ i → i ≤ 64 → i % 8 ≠ 0 → dbit key i = dbit key' i) :
    reduceKey key = reduceKey key' := by
  refine eq_of_dbit fun i h1 h56 => ?_
  rw [dbit_reduceKey key i h1 h56, dbit_reduceKey key' i h1 h56]
  exact h _ (by omega) (by omega) (by omega)

theorem keySchedule_congr {key key' : Block} (h : reduceKey key = reduceKey key') (tb : TableStore Entry) (dec : Bool) :
    keySchedule tb key dec = keySchedule tb key' dec := by
  rw [keySchedule, keySchedule, h]

/-- A rotation reads each bit of a half at one place, whatever the half is. -/
theorem getLsbD_rotated (dec : Bool) (n : Nat) {i : Nat} (h : i < 28) :
    ∃ j, j < 28 ∧ ∀ c, (rotated dec c n).getLsbD i = c.getLsbD j := by
  cases dec
  · exact ⟨_, Nat.mod_lt _ (by decide), fun c => getLsbD_rotl28 c n i h⟩
  · exact ⟨_, Nat.mod_lt _ (by decide), fun c => getLsbD_rotr28 c n i h⟩

/-- A half of one repeated bit stays under every rotation. -/
theorem rotated_constant (dec : Bool) (n : Nat) {c : BitVec 28} (hc : c = 0#28 ∨ c = BitVec.allOnes 28) :
    rotated dec c n = c := by
  refine BitVec.eq_of_getLsbD_eq fun i hi => ?_
  obtain ⟨j, hj, hbit⟩ := getLsbD_rotated dec n hi
  rw [hbit]
  rcases hc with rfl | rfl
  · rw [BitVec.getLsbD_zero, BitVec.getLsbD_zero]
  · rw [BitVec.getLsbD_allOnes, BitVec.getLsbD_allOnes, decide_eq_true hi, decide_eq_true hj]

theorem halfC_append_halfD (k : BitVec 56) : halfC k ++ halfD k = k :=
  (BitVec.extractLsb'_append_extractLsb'_eq_extractLsb' rfl).trans BitVec.extractLsb'_eq_self

section

variable {key : Block} (hc : halfC (reduceKey key) = 0#28 ∨ halfC (reduceKey key) = BitVec.allOnes 28)
  (hd : halfD (reduceKey key) = 0#28 ∨ halfD (reduceKey key) = BitVec.allOnes 28) (tb : TableStore Entry)

include hc hd

theorem keySchedule_getElem?_of_constant_halves (dec : Bool) {r : Nat} (hr : r < 16) :
    (keySchedule tb key dec)[r]? = some (permute tb.pc2 (reduceKey key)) := by
  rw [keySchedule_getElem? tb key dec hr, rotated_constant _ _ hc, rotated_constant _ _ hd, halfC_append_halfD]

theorem keySchedule_of_constant_halves (dec : Bool) :
    keySchedule tb key dec = List.replicate 16 (permute tb.pc2 (reduceKey key)) := by
  refine keySchedule_eq_of_getElem? List.length_replicate fun r hr => ?_
  rw [keySchedule_getElem?_of_constant_halves hc hd tb dec hr, List.getElem?_replicate, if_pos hr]

end

/-- Settles O21: the transform reads the key through its reduction, and the subkeys through the rotations. -/
theorem droppedKeyBitsDoNotMatter : Obligations.DroppedKeyBitsDoNotMatter := by
  intro order tb key key'
  constructor
  · intro h
    have hred := reduceKey_congr h
    exact ⟨hred, fun x dec => by rw [transform, transform, keySchedule_congr hred]⟩
  · intro hc hd
    refine ⟨fun dec r hr => keySchedule_getElem?_of_constant_halves hc hd tb dec hr, fun x => ?_⟩
    rw [transform, transform, keySchedule_of_constant_halves hc hd, keySchedule_of_constant_halves hc hd]

/-! ## Complementation (41 R207) -/

theorem permute_not {n m : Nat} {T : Vector Entry m} (hT : SelectsFrom n T) (v : BitVec n) :
    permute T (~~~v) = ~~~permute T v := by
  refine eq_of_dbit fun i h1 hm => ?_
  obtain ⟨ht1, htn⟩ := hT.getD h1 hm
  rw [dbit_not _ i h1 hm, dbit_permute T _ i h1 hm, dbit_permute T v i h1 hm, dbit_not v _ ht1 htn]

theorem extract_not {n : Nat} (v : BitVec n) {i k : Nat} (h : i + k ≤ n) :
    (~~~v).extractLsb' i k = ~~~v.extractLsb' i k := by
  refine BitVec.eq_of_getLsbD_eq fun j hj => ?_
  simp [hj, show i + j < n by omega]

theorem reduceKey_not (key : Block) : reduceKey (~~~key) = ~~~reduceKey key := by
  refine eq_of_dbit fun i h1 h56 => ?_
  rw [dbit_not _ i h1 h56, dbit_reduceKey _ i h1 h56, dbit_reduceKey key i h1 h56,
    dbit_not key _ (by omega) (by omega)]

theorem rotateHalf_not (dec : Bool) (c : BitVec 28) (n : Entry) : rotateHalf dec (~~~c) n = ~~~rotateHalf dec c n := by
  refine BitVec.eq_of_getLsbD_eq fun i hi => ?_
  obtain ⟨j, hj, hbit⟩ := getLsbD_rotated dec n.toNat hi
  have hrot : ∀ x, (rotateHalf dec x n).getLsbD i = x.getLsbD j := hbit
  rw [BitVec.getLsbD_not, hrot, hrot, BitVec.getLsbD_not, decide_eq_true hi, decide_eq_true hj]

theorem subkeysFrom_not {pc2 : Vector Entry 48} (h : SelectsFrom 56 pc2) (dec : Bool) (ns : List Entry)
    (c d : BitVec 28) : subkeysFrom pc2 dec ns (~~~c) (~~~d) = (subkeysFrom pc2 dec ns c d).map (~~~·) := by
  induction ns generalizing c d with
  | nil => rfl
  | cons n ns ih =>
    simp only [subkeysFrom, List.map_cons, rotateHalf_not, ih, ← BitVec.not_append, permute_not h]

theorem keySchedule_not {tb : TableStore Entry} (h : SelectsFrom 56 tb.pc2) (key : Block) (dec : Bool) :
    keySchedule tb (~~~key) dec = (keySchedule tb key dec).map (~~~·) := by
  rw [keySchedule, reduceKey_not, halfC, halfD, extract_not _ (by decide), extract_not _ (by decide),
    subkeysFrom_not h]
  rfl

/-- The halves complemented. -/
def Halves.complement (h : Halves) : Halves := { l := ~~~h.l, r := ~~~h.r }

/-- The two complements cancel at the S-box input. -/
theorem feistel_not (order : SboxIndexOrder) {tb : TableStore Entry} (h : SelectsFrom 32 tb.e) (r : BitVec 32)
    (k : BitVec 48) : feistel order tb (~~~r) (~~~k) = feistel order tb r k := by
  rw [feistel, feistel, permute_not h, ← BitVec.not_xor_right, ← BitVec.not_xor_left, BitVec.not_not]

theorem feistelRound_complement (order : SboxIndexOrder) {tb : TableStore Entry} (h : SelectsFrom 32 tb.e) (q : Halves)
    (k : BitVec 48) : feistelRound order tb q.complement (~~~k) = (feistelRound order tb q k).complement := by
  simp only [feistelRound, Halves.complement, feistel_not order h, BitVec.not_xor_left]

theorem feistelRounds_complement (order : SboxIndexOrder) {tb : TableStore Entry} (h : SelectsFrom 32 tb.e) (q : Halves)
    (ks : List (BitVec 48)) :
    feistelRounds order tb q.complement (ks.map (~~~·)) = (feistelRounds order tb q ks).complement := by
  rw [feistelRounds, List.foldl_map]
  exact List.foldl_hom Halves.complement fun q k => feistelRound_complement order h q k

theorem splitBlock_not {tb : TableStore Entry} (h : SelectsFrom 64 tb.ip) (x : Block) :
    splitBlock tb (~~~x) = (splitBlock tb x).complement := by
  rw [splitBlock, permute_not h, extract_not _ (by decide), extract_not _ (by decide)]
  rfl

theorem joinHalves_complement {tb : TableStore Entry} (h : SelectsFrom 64 tb.fp) (q : Halves) :
    joinHalves tb q.complement = ~~~joinHalves tb q := by
  rw [joinHalves, Halves.complement, ← BitVec.not_append, permute_not h, joinHalves]

/-- Settles O22: the complement passes through the split, the subkeys, the rounds and the output. -/
theorem complementedInputsComplementTheOutput : Obligations.ComplementedInputsComplementTheOutput := by
  intro order tb h x key dec
  obtain ⟨hip, hfp, he, hpc2⟩ := selectsFrom_of_tablesLegal h
  rw [transform, splitBlock_not hip, keySchedule_not hpc2, feistelRounds_complement order he,
    joinHalves_complement hfp, transform]

/-! ## DESB (41 R203) -/

/-- `s` after the acceptance of DESB: the operands are latched and every `IDX[s]` is `NBLK` (log entries 6 and 26). -/
def desbAccepted (dir : Dir) (s : State) : State :=
  { s with
    idx := { s1 := s.nblk.toNat, s2 := s.nblk.toNat, s3 := s.nblk.toNat }
    run := { op := .desb, mode := s.run.mode, latch := { x := s.din, key := s.dkey, dec := decide (dir = .dec) } }
    status := { busy := true, done := false, tblOk := true, err := .noError } }

theorem exec_desb_of_noTables (dir : Dir) {s : State} (hb : s.status.busy = false) (ho : s.status.tblOk = false) :
    exec (.desb dir) s = .next (errorState .cfg s) := by
  rcases desbBody_cases dir s.accepted with ⟨-, e⟩ | ⟨h, -⟩
  · rw [exec_of_idle hb, commandBody, e]
    rfl
  · exact absurd (ho.symm.trans h) (by decide)

theorem exec_desb_of_tables (dir : Dir) {s : State} (hb : s.status.busy = false) (ho : s.status.tblOk = true) :
    exec (.desb dir) s = .next (desbAccepted dir s) := by
  rcases desbBody_cases dir s.accepted with ⟨h, -⟩ | ⟨-, e⟩
  · exact absurd (ho.symm.trans h) (by decide)
  · have hstatus : s.accepted.status.started = (desbAccepted dir s).status :=
      congrArg (Status.mk true false · .noError) ho
    rw [exec_of_idle hb, commandBody, e, hstatus]
    rfl

/-- While DESB runs the one enabled agent is stage 1's (60 R345). -/
theorem enabledStages_of_desb {s : State} (h : s.run.op = .desb) : enabledStages s = [.s1] := by
  have he : ∀ st, enabled s st = decide (st = .s1) := fun st => by rw [enabled, h]
  simp [enabledStages, he]

/-- The turn of stage 1 is DESB's core step. -/
theorem step_turn_of_desb {s : State} {rest : List Event} (h : s.run.op = .desb) :
    step { s with events := Event.turn .s1 :: rest } = .next (desbStep Config.params { s with events := rest }) := by
  have he : enabled { s with events := rest } .s1 = true := by rw [enabled, h]; rfl
  rw [step_of_event rfl, takeEvent, stageTurn, if_pos he, coreStep, h]

/-- The core left alone takes the same step (log entry 21). -/
theorem step_alone_of_desb {s : State} (h : s.run.op = .desb) (he : s.events = []) :
    step s = step { s with events := [Event.turn .s1] } := by
  rw [step_single he (enabledStages_of_desb h), coreStep, h, step_turn_of_desb h, ← he]

/-- Settles O24: CFG or the latch at acceptance, the core step by either agent, and ILLEGAL by the decoder. -/
theorem desbTransformsOneBlock : Obligations.DesbTransformsOneBlock := by
  intro dir s hb
  refine ⟨exec_desb_of_noTables dir hb, fun ho => ⟨_, exec_desb_of_tables dir hb ho, rfl, fun rest => ?_⟩,
    fun w hopc hres => commandWrite_of_illegalWord hb ?_⟩
  · exact ⟨step_turn_of_desb (s := desbAccepted dir s) rfl, step_alone_of_desb (s := desbAccepted dir s) rfl⟩
  · exact .inr (.inr (.inr (.inr (.inl ⟨.inl (by rw [hopc]; rfl), hres⟩))))

end Sys2Proof.Machine
end

