-- ==== Sys2Proof/Proofs/Chaining.lean ====
section
/-! PROOFS. The statements of 42_chaining.md. First the acceptance of IVGEN and PASS; then the core step of PASS; then a
whole PASS as a countdown of the blocks it has left; last the algebra of a pass as a function of its block list. -/

namespace Sys2Proof.Machine

/-! ## IVGEN (42 R245) -/

theorem exec_ivgen {s : State} (hb : s.status.busy = false) :
    exec .ivgen s = .next { doneState s with
      iv1 := Config.ivSource s.draws, iv2 := Config.ivSource (s.draws + 1), iv3 := Config.ivSource (s.draws + 2),
      draws := s.draws + 3 } := by
  rw [exec_of_idle hb, commandBody, ivgenBody]
  rfl

/-- Settles O25: IVGEN makes no check of its own, and the decoder rejects a word with a reserved bit. -/
theorem ivgenDrawsThreeIvs : Obligations.IvgenDrawsThreeIvs := by
  refine fun s hb => ⟨exec_ivgen hb, fun w hopc hres => commandWrite_of_illegalWord hb ?_⟩
  exact .inr (.inr (.inr (.inl ⟨.inr (by rw [hopc]; rfl), hres⟩)))

/-! ## The acceptance of PASS (42 R244) -/

/-- The key by its bit range (10 R35). -/
theorem keyOf_eq (s : State) (ksel : KeySel) :
    keyOf s ksel = if ksel = .k1 then s.key.extractLsb' 64 64 else s.key.extractLsb' 0 64 := by
  cases ksel <;> rfl

theorem ivOf_of_ne_zero (s : State) {ivsel : BitVec 2} (h : ivsel ≠ 0#2) :
    ivOf s ivsel = some (if ivsel = 1#2 then s.iv1 else if ivsel = 2#2 then s.iv2 else s.iv3) := by
  have hcases : ∀ v : BitVec 2, v ≠ 0#2 → v = 1#2 ∨ v = 2#2 ∨ v = 3#2 := by decide
  rcases hcases ivsel h with rfl | rfl | rfl <;> rfl

theorem started_accepted_of_ready {P : Params} {s : State} (h : ReadyToRun P s) :
    s.status.accepted.started = { busy := true, done := false, tblOk := true, err := .noError } :=
  congrArg (Status.mk true false · .noError) h.tablesOk

/-- Settles O26: none of the three checks refuses, so the body starts the pass. -/
theorem passStartsOneChainingPass : Obligations.PassStartsOneChainingPass := by
  intro dir ksel ivsel s hready hiv
  have hsel := ivOf_of_ne_zero s.accepted hiv
  rw [exec_of_idle hready.idle, commandBody]
  rcases passBody_cases Config.params dir ksel ivsel s.accepted with
    ⟨h, -⟩ | ⟨iv, h, ⟨ho, -⟩ | ⟨-, hn, -⟩ | ⟨-, -, e⟩⟩
  · rw [hsel] at h; cases h
  · exact absurd (hready.tablesOk.symm.trans ho) (by decide)
  · exact absurd ((nblkRefused_eq_false.mpr hready.range).symm.trans hn) (by decide)
  · rw [hsel] at h
    cases h
    rw [e, accepted_status, started_accepted_of_ready hready, keyOf_eq]
    rfl

/-! ## The core step of PASS (42 R240, R241, R244) -/

theorem chainStep_enc (P : Params) (tb : TableStore Entry) {pp : PassParams} (h : pp.dir = .enc) (v b : Block)
    (j : Nat) : chainStep P tb pp v b j = chainEncrypt P tb pp.k v b := by
  rw [chainStep, h]

/-- With `DEC_VECTOR_INIT = iv` a decrypting step XORs with its vector at every block (42 R242). -/
theorem chainStep_dec_of_iv {P : Params} (hP : P.decVectorInit = .iv) (tb : TableStore Entry) {pp : PassParams}
    (h : pp.dir = .dec) (v b : Block) (j : Nat) :
    chainStep P tb pp v b j = { block := transform P.sboxOrder tb b pp.k true ^^^ v, vector := b } := by
  rw [chainStep, h]
  simp only [chainDecrypt, undoVector, hP, reduceCtorEq, and_false, if_false]

/-- The chaining step stage 1 makes next. -/
def passChained (P : Params) (s : State) : Chained :=
  chainStep P s.tbl s.pp.s1 s.vec.s1 (readBlock s.mem s.idx.s1) s.idx.s1

section

variable (P : Params) (s : State)

theorem passStep_of_last (h : s.idx.s1 + 1 = s.nblk.toNat) : passStep P s = complete (passMove P s) := by
  rw [passStep_eq, if_pos h]

theorem passStep_of_more (h : s.idx.s1 + 1 ≠ s.nblk.toNat) : passStep P s = passMove P s := by
  rw [passStep_eq, if_neg h]

/-- What the step does whether or not it is the last: the move, with another `RUN.OP` and `STATUS` at most. -/
theorem passStep_eq_move :
    passStep P s = { s with
      mem := writeBlock s.mem s.idx.s1 (passChained P s).block
      vec := { s.vec with s1 := (passChained P s).vector }
      idx := { s.idx with s1 := s.idx.s1 + 1 }
      run := { s.run with op := (passStep P s).run.op }
      status := (passStep P s).status } := by
  rw [passStep_eq]
  split <;> rfl

end

section

variable {s : State} (ho : s.run.op = .pass)

include ho

theorem enabled_of_pass (st : Stage) : enabled s st = (decide (st = .s1) && decide (s.idx.s1 < s.nblk.toNat)) := by
  rw [enabled, ho]

theorem coreStep_of_pass (P : Params) (st : Stage) : coreStep P st s = passStep P s := by
  rw [coreStep, ho]

/-- The turn of stage 1 is the core step of PASS while a block is left. -/
theorem step_turn_of_pass (hlt : s.idx.s1 < s.nblk.toNat) (rest : List Event) :
    step { s with events := Event.turn .s1 :: rest } = .next (passStep Config.params { s with events := rest }) := by
  have he : enabled { s with events := rest } .s1 = true := by
    rw [enabled_of_pass (s := { s with events := rest }) ho]
    simpa using hlt
  rw [step_of_event rfl, takeEvent, stageTurn, if_pos he, coreStep_of_pass (s := { s with events := rest }) ho]

/-- The core left alone takes the same step (log entry 21). -/
theorem step_alone_of_pass (hlt : s.idx.s1 < s.nblk.toNat) (he : s.events = []) :
    step s = .next (passStep Config.params s) := by
  have hst : enabledStages s = [.s1] := by simp [enabledStages, enabled_of_pass ho, hlt]
  rw [step_single he hst, coreStep_of_pass ho]

end

/-- Settles O27: the step writes the block and the vector of `passChained`, and completes at the last block. -/
theorem passStepRewritesOneBlock : Obligations.PassStepRewritesOneBlock := by
  intro s rest hinv ho
  have hwf := hinv.stores.memWf
  refine ⟨_, step_turn_of_pass ho (hinv.pass ho).first rest, fun hd => ?_, fun hd => ?_, fun a ha => ?_, ?_,
    fun hlast => ?_, fun hmore => ?_, ?_⟩
  · rw [passStep_eq_move, passChained, chainStep_enc _ _ hd]
    exact ⟨readBlock_writeBlock_same hwf _ _, rfl⟩
  · rw [passStep_eq_move, passChained, chainStep_dec_of_iv rfl _ hd]
    exact ⟨readBlock_writeBlock_same hwf _ _, rfl⟩
  · rw [passStep_eq_move]
    exact readByte_writeBlock_of_ne hwf _ _ ha
  · rw [passStep_eq_move]
  · rw [passStep_of_last Config.params { s with events := rest } hlast]
    exact ⟨rfl, rfl⟩
  · rw [passStep_of_more Config.params { s with events := rest } hmore]
    exact ⟨ho, rfl⟩
  · rw [passStep_eq_move]

/-! ## A run as a countdown -/

theorem busyBefore_succ {s t : State} {k : Nat} (hb : s.status.busy = true) (hs : step s = .next t)
    (h : busyBefore k t) : busyBefore (k + 1) s := by
  intro m hm
  cases m with
  | zero => exact ⟨s, rfl, hb⟩
  | succ m =>
    rw [runSteps_succ hs]
    exact h m (Nat.lt_of_succ_lt_succ hm)

/-- A run whose every step counts one down takes exactly as many steps as it had to go, busy before each. -/
theorem run_of_countdown {Q : Nat → State → Prop}
    (hstep : ∀ k s, Q (k + 1) s → s.status.busy = true ∧ ∃ t, step s = .next t ∧ Q k t) :
    ∀ {k s}, Q k s → ∃ t, runSteps k s = .next t ∧ busyBefore k s ∧ Q 0 t := by
  intro k
  induction k with
  | zero => exact fun {s} h => ⟨s, rfl, fun _ hm => absurd hm (Nat.not_lt_zero _), h⟩
  | succ k ih =>
    intro s h
    obtain ⟨hb, t, hs, ht⟩ := hstep k s h
    obtain ⟨u, hrun, hbusy, hu⟩ := ih ht
    exact ⟨u, (runSteps_succ hs k).trans hrun, busyBefore_succ hb hs hbusy, hu⟩

/-! ## A whole PASS (42 R243, R244) -/

theorem blocksOf_length (s : State) (n : Nat) : (blocksOf s n).length = n := by simp [blocksOf]

theorem blocksOf_getD (s : State) {n j : Nat} (h : j < n) : (blocksOf s n).getD j 0#64 = readBlock s.mem j := by
  simp [blocksOf, List.getD_eq_getElem?_getD, h]

theorem blocksOf_eq_of_getD {s : State} {n : Nat} {bs : List Block} (hlen : bs.length = n)
    (h : ∀ j, j < n → readBlock s.mem j = bs.getD j 0#64) : blocksOf s n = bs := by
  refine List.ext_getElem ((blocksOf_length s n).trans hlen.symm) fun j _ hj => ?_
  rw [← List.getD_eq_getElem bs 0#64 hj, ← h j (hlen ▸ hj)]
  simp [blocksOf]

/-- `s` stands in the PASS that started in `u`: the blocks before `IDX[1]` are the pass's, the others are those of `u`,
and the vector is the pass's. -/
structure PassOver (P : Params) (u s : State) : Prop where
  count : s.nblk = u.nblk
  tables : s.tbl = u.tbl
  params : s.pp.s1 = u.pp.s1
  blocks : ∀ j, readBlock s.mem j =
    if j < s.idx.s1 then (passBlocks P u.tbl u.pp.s1 (blocksOf u u.nblk.toNat)).getD j 0#64 else readBlock u.mem j
  vector : s.vec.s1 = vectorAfter P u.tbl u.pp.s1 (blocksOf u u.nblk.toNat) s.idx.s1

section

variable {P : Params} {u s : State}

theorem PassOver.start (hidx : u.idx.s1 = 0) (hvec : u.vec.s1 = u.pp.s1.iv) : PassOver P u u where
  count := rfl
  tables := rfl
  params := rfl
  blocks := fun j => by rw [hidx, if_neg (Nat.not_lt_zero j)]
  vector := by rw [hidx, hvec, vectorAfter]

/-- `RUN.OP` and `STATUS` are no part of `PassOver`. -/
theorem PassOver.complete (h : PassOver P u s) : PassOver P u (complete s) :=
  ⟨h.count, h.tables, h.params, h.blocks, h.vector⟩

/-- The step of a PASS finds the pass's next input block, writes its output block and hands on its vector. -/
theorem PassOver.passMove (h : PassOver P u s) (hwf : Memory.wf s.mem) (hlt : s.idx.s1 < s.nblk.toNat) :
    PassOver P u (passMove P s) := by
  have hn : s.idx.s1 < u.nblk.toNat := h.count ▸ hlt
  have hin : s.idx.s1 < (blocksOf u u.nblk.toNat).length := by rwa [blocksOf_length]
  have hread : readBlock s.mem s.idx.s1 = (blocksOf u u.nblk.toNat).getD s.idx.s1 0#64 := by
    rw [h.blocks, if_neg (Nat.lt_irrefl _), blocksOf_getD u hn]
  refine ⟨h.count, h.tables, h.params, fun j => ?_, ?_⟩
  · simp only [Machine.passMove]
    rw [h.tables, h.params, hread, h.vector, chainStep_block_of_pass _ _ _ hin, readBlock_writeBlock hwf]
    split
    · next hj =>
      rw [← hj]
      exact (if_pos (Nat.lt_succ_self _)).symm
    · next hj =>
      rw [h.blocks j]
      exact if_congr (by omega) rfl rfl
  · simp only [Machine.passMove]
    rw [h.tables, h.params, hread, h.vector, chainStep_vector_of_pass _ _ _ hin]

theorem PassOver.passStep (h : PassOver P u s) (hwf : Memory.wf s.mem) (hlt : s.idx.s1 < s.nblk.toNat) :
    PassOver P u (passStep P s) := by
  rw [passStep_eq]
  split
  · exact (h.passMove hwf hlt).complete
  · exact h.passMove hwf hlt

end

/-- `s` is left alone in the PASS that started in `u`, with `k` blocks to go. -/
structure PassCountdown (u : State) (k : Nat) (s : State) : Prop where
  onPass : PassOver Config.params u s
  left : s.idx.s1 + k = s.nblk.toNat
  alone : s.events = []
  inv : Inv Config.params s
  running : 0 < k → s.run.op = .pass ∧ s.status = u.status
  finished : k = 0 → s.status = u.status.completed

theorem PassCountdown.passStep {u s : State} {k : Nat} (h : PassCountdown u (k + 1) s) :
    PassCountdown u k (passStep Config.params s) := by
  obtain ⟨ho, hst⟩ := h.running (Nat.succ_pos k)
  have hleft := h.left
  refine ⟨h.onPass.passStep h.inv.stores.memWf (by omega), ?_, ?_, passStep_keeps h.inv ho, fun hk => ?_,
    fun hk => ?_⟩
  · rw [passStep_eq_move]
    show s.idx.s1 + 1 + k = s.nblk.toNat
    omega
  · rw [passStep_eq_move]
    exact h.alone
  · rw [passStep_of_more _ _ (by omega)]
    exact ⟨ho, hst⟩
  · rw [passStep_of_last _ _ (by omega), complete_status]
    exact congrArg Status.completed hst

/-- A PASS left alone in its first state takes `NBLK` steps to its end. -/
theorem run_of_passStart {u : State} (hinv : Inv Config.params u) (ho : u.run.op = .pass) (hidx : u.idx.s1 = 0)
    (hvec : u.vec.s1 = u.pp.s1.iv) (he : u.events = []) :
    ∃ t, runSteps u.nblk.toNat u = .next t ∧ busyBefore u.nblk.toNat u ∧ PassCountdown u 0 t := by
  have hpos := (hinv.pass ho).range.1
  refine run_of_countdown (fun k s h => ?_)
    ⟨.start hidx hvec, by rw [hidx, Nat.zero_add], he, hinv, fun _ => ⟨ho, rfl⟩, fun h0 => by omega⟩
  obtain ⟨hop, -⟩ := h.running (Nat.succ_pos k)
  exact ⟨h.inv.busy_of_op (by simp [hop]), _, step_alone_of_pass hop (h.inv.pass hop).first h.alone, h.passStep⟩

/-- Settles O28: the accepted state starts the countdown, whose end is the whole pass. -/
theorem passRunsOverEveryBlock : Obligations.PassRunsOverEveryBlock := by
  intro dir ksel ivsel s u hinv hready hiv he hex
  have hu : Inv Config.params u :=
    issue_keeps hinv (fun _ => commandBody_keeps _) ((exec_eq_issue _ s).symm.trans hex)
  rw [passStartsOneChainingPass dir ksel ivsel s hready hiv] at hex
  cases hex
  obtain ⟨t, hrun, hbusy, ht⟩ := run_of_passStart hu rfl rfl rfl he
  have hend : t.idx.s1 = s.nblk.toNat := by rw [← Nat.add_zero t.idx.s1, ht.left, ht.onPass.count]
  have hlen : ∀ pp, (passBlocks Config.params s.tbl pp (blocksOf s s.nblk.toNat)).length = s.nblk.toNat := fun pp =>
    (passBlocks_length pp _).trans (blocksOf_length s _)
  refine ⟨t, hrun, hbusy, ht.finished rfl, blocksOf_eq_of_getD (hlen _) fun j hj => ?_, fun j hj => ?_⟩
  · rw [ht.onPass.blocks, if_pos (hend ▸ hj)]
    rfl
  · rw [ht.onPass.blocks, if_neg (hend ▸ Nat.not_lt.mpr hj)]

/-! ## A decrypting pass undoes an encrypting pass (42 R246) -/

theorem passFrom_dec_enc {P : Params} (hP : P.decVectorInit = .iv) {tb : TableStore Entry} (h : InvertibleTables tb)
    (k iv : Block) (bs : List Block) (j : Nat) (v : Block) :
    passFrom P tb { dir := .dec, k := k, iv := iv } j v (passFrom P tb { dir := .enc, k := k, iv := iv } j v bs) =
      bs := by
  induction bs generalizing j v with
  | nil => rfl
  | cons b bs ih =>
    have hblock : transform P.sboxOrder tb (transform P.sboxOrder tb (b ^^^ v) k false) k true ^^^ v = b := by
      rw [decryptingUndoesEncrypting P.sboxOrder tb h, BitVec.xor_assoc, BitVec.xor_self, BitVec.xor_zero]
    simp only [passFrom, chainStep_enc P tb (pp := ⟨.enc, k, iv⟩) rfl,
      chainStep_dec_of_iv hP tb (pp := ⟨.dec, k, iv⟩) rfl, chainEncrypt]
    rw [hblock, ih]

/-- Settles O29: both passes hand the encrypted block on as the vector. -/
theorem decryptingPassUndoesEncryptingPass : Obligations.DecryptingPassUndoesEncryptingPass :=
  fun _ _ k iv bs h hP => passFrom_dec_enc hP h k iv bs 0 iv

/-! ## Error propagation (42 R247) -/

section

variable {P : Params} {tb : TableStore Entry}

theorem passBlocks_getElem? (pp : PassParams) (bs : List Block) (j : Nat) :
    (passBlocks P tb pp bs)[j]? = bs[j]?.map fun b => (chainStep P tb pp (vectorAfter P tb pp bs j) b j).block := by
  by_cases hj : j < bs.length
  · have hout : j < (passBlocks P tb pp bs).length := by rwa [passBlocks_length]
    rw [List.getElem?_eq_getElem hout, List.getElem?_eq_getElem hj, Option.map_some,
      ← List.getD_eq_getElem bs 0#64 hj, chainStep_block_of_pass _ _ _ hj, List.getD_eq_getElem _ _ hout]
  · rw [List.getElem?_eq_none (by rw [passBlocks_length]; omega), List.getElem?_eq_none (by omega), Option.map_none]

/-- The first outputs of a pass are the pass over the first inputs. -/
theorem passFrom_take (pp : PassParams) (bs : List Block) (j : Nat) (v : Block) (n : Nat) :
    (passFrom P tb pp j v bs).take n = passFrom P tb pp j v (bs.take n) := by
  induction bs generalizing j v n with
  | nil => simp only [passFrom, List.take_nil]
  | cons b bs ih =>
    cases n with
    | zero => rfl
    | succ n => simp only [passFrom, List.take_succ_cons, ih]

end

/-- The vector of a decrypting pass is the IV before block 0 and the input block before it elsewhere (42 R242). -/
theorem vectorAfter_dec_congr {P : Params} {tb : TableStore Entry} {k iv iv' : Block} {bs bs' : List Block} {j : Nat}
    (hiv : j = 0 → iv = iv') (hprev : 0 < j → bs[j - 1]? = bs'[j - 1]?) :
    vectorAfter P tb { dir := .dec, k := k, iv := iv } bs j =
      vectorAfter P tb { dir := .dec, k := k, iv := iv' } bs' j := by
  cases j with
  | zero => exact hiv rfl
  | succ j =>
    have hj : bs[j]? = bs'[j]? := hprev (Nat.succ_pos j)
    simp only [vectorAfter, List.getD_eq_getElem?_getD, hj]

/-- Settles O30: a decrypting step reads its input and its vector, and an encrypting pass runs over its first inputs
first. -/
theorem outputsDependOnFewBlocks : Obligations.OutputsDependOnFewBlocks := by
  intro P tb k iv iv' bs bs' j _
  constructor
  · intro hP hj hiv hprev
    have hvec := vectorAfter_dec_congr (P := P) (tb := tb) (k := k) hiv hprev
    simp only [passBlocks_getElem?, hj, hvec, chainStep_dec_of_iv hP tb (pp := ⟨.dec, k, _⟩) rfl]
  · rintro rfl hle
    have htake : bs.take (j + 1) = bs'.take (j + 1) :=
      List.ext_getElem? fun m => by
        rw [List.getElem?_take, List.getElem?_take]
        split
        · next hm => exact hle m (Nat.le_of_lt_succ hm)
        · rfl
    have hfirst : ∀ ys : List Block, ys[j]? = (ys.take (j + 1))[j]? := fun ys =>
      (List.getElem?_take_of_lt (Nat.lt_succ_self j)).symm
    rw [hfirst, hfirst (passBlocks P tb _ bs'), passBlocks, passBlocks, passFrom_take, passFrom_take, htake]

end Sys2Proof.Machine
end

