-- ==== Sys2Proof/Proofs/Pipeline.lean ====
section
/-! PROOFS. The statements of 43_pipeline.md. First the acceptance of EDEE and EDED; then which stage is enabled, and
what one stage step does; then what holds at every point of a run, from which its result and its length follow; last
the algebra of the three passes. -/

namespace Sys2Proof.Machine

/-! ## The acceptance of EDEE and EDED (43 R282, R283, R286) -/

/-- The state after an accepted EDEE or EDED with the pass parameters `pp`. -/
def tripleAccepted (op : RunOp) (mode : Mode) (pp : PerStage PassParams) (s : State) : State :=
  { s with
    pp := pp
    vec := { s1 := pp.s1.iv, s2 := pp.s2.iv, s3 := pp.s3.iv }
    idx := { s1 := 0, s2 := 0, s3 := 0 }
    sem := freshSem s.sem s.nblk.toNat
    run := { s.run with op := op, mode := mode }
    status := { busy := true, done := false, tblOk := true, err := .noError } }

theorem tripleBody_of_ready {P : Params} {s : State} (h : ReadyToRun P s) (op : RunOp) (mode : Mode)
    (pp : PerStage PassParams) : tripleBody P op mode pp s.accepted = tripleAccepted op mode pp s := by
  rcases tripleBody_cases P op mode pp s.accepted with ⟨ho, -⟩ | ⟨-, hn, -⟩ | ⟨-, -, e⟩
  · exact absurd (h.tablesOk.symm.trans ho) (by decide)
  · exact absurd ((nblkRefused_eq_false.mpr h.range).symm.trans hn) (by decide)
  · rw [e, accepted_status, started_accepted_of_ready h]
    rfl

section

variable {s : State} (h : ReadyToRun Config.params s)

include h

theorem exec_edee_of_ready (mode : Mode) :
    exec (.edee mode) s = .next (tripleAccepted .edee mode (edeePasses s) s) :=
  (exec_of_idle h.idle _).trans (congrArg _ (tripleBody_of_ready h .edee mode (edeePasses s)))

theorem exec_eded_of_ready (mode : Mode) :
    exec (.eded mode) s = .next (tripleAccepted .eded mode (ededPasses s) s) :=
  (exec_of_idle h.idle _).trans (congrArg _ (tripleBody_of_ready h .eded mode (ededPasses s)))

/-- Both commands at once: an accepted run with the pass parameters of its command. -/
theorem eq_tripleAccepted_of_exec {i : Instr} {mode : Mode} {u : State} (hi : i = .edee mode ∨ i = .eded mode)
    (hex : exec i s = .next u) :
    ∃ op, (op = .edee ∨ op = .eded) ∧
      u = tripleAccepted op mode (if i = .edee mode then edeePasses s else ededPasses s) s := by
  rcases hi with rfl | rfl
  · rw [exec_edee_of_ready h] at hex
    cases hex
    exact ⟨.edee, .inl rfl, by rw [if_pos rfl]⟩
  · rw [exec_eded_of_ready h] at hex
    cases hex
    exact ⟨.eded, .inr rfl, by rw [if_neg (by simp)]⟩

end

/-- Settles O31: neither check refuses, so the body starts the run and sets the triples of its blocks. -/
theorem edeeStartsThreeStages : Obligations.EdeeStartsThreeStages := fun mode s hready hsem =>
  ⟨tripleAccepted .edee mode (edeePasses s) s, exec_edee_of_ready hready mode, rfl,
    readSlots_freshSem hsem s.nblk.toNat⟩

/-- Settles O32: as for EDEE, with the pass parameters of EDED. -/
theorem ededStartsThreeStages : Obligations.EdedStartsThreeStages := fun mode s hready hsem =>
  ⟨tripleAccepted .eded mode (ededPasses s) s, exec_eded_of_ready hready mode, rfl,
    readSlots_freshSem hsem s.nblk.toNat⟩

/-! ## Which stage is enabled (43 R287, R288) -/

section

variable {s : State} (hrun : tripleRuns s)

include hrun

theorem enabled_of_tripleRuns (st : Stage) : enabled s st = stageReady s st := by
  rcases hrun with ho | ho <;> rw [enabled, ho]

theorem coreStep_of_tripleRuns (P : Params) (st : Stage) : coreStep P st s = stageStep P st s := by
  rcases hrun with ho | ho <;> rw [coreStep, ho]

end

theorem earlierDone_iff {s : State} {st : Stage} : earlierDone s st = true ↔
    st = .s1 ∨ (st = .s2 ∧ s.idx.s1 = s.nblk.toNat) ∨ (st = .s3 ∧ s.idx.s2 = s.nblk.toNat) := by
  cases st <;> simp [earlierDone]

/-- `stageReady` in the words of 43 R287 and R288, in every state. -/
theorem stageReady_iff_rules {s : State} {st : Stage} : stageReady s st = true ↔
    s.idx.get st < s.nblk.toNat ∧ (readSlots s.sem (s.idx.get st)).get st = true ∧
      (s.run.mode = .conc ∨ st = .s1 ∨ (st = .s2 ∧ s.idx.s1 = s.nblk.toNat) ∨
        (st = .s3 ∧ s.idx.s2 = s.nblk.toNat)) := by
  simp only [stageReady, Bool.and_eq_true, Bool.or_eq_true, decide_eq_true_eq, earlierDone_iff, and_assoc]

section

variable {P : Params} {s : State}

/-- The one stage of a sequential run that is not waiting: the first with a block left (43 R288). -/
def sequentialStage (s : State) : Stage :=
  if s.idx.s1 < s.nblk.toNat then .s1 else if s.idx.s2 < s.nblk.toNat then .s2 else .s3

theorem stageReady_iff_of_seq (h : TripleInv P s) (hm : s.run.mode = .seq) {st : Stage} :
    stageReady s st = true ↔ st = sequentialStage s := by
  have h21 := h.order21
  have h1 := h.order1
  have h3 := h.unfinished
  have hnot : s.run.mode ≠ .conc := by rw [hm]; decide
  unfold sequentialStage
  cases st with
  | s1 =>
    rw [stageReady_s1 h]
    split_ifs <;> simp only [iff_false, iff_true] <;> omega
  | s2 =>
    rw [stageReady_s2 h]
    split_ifs <;> simp only [hnot, false_or, iff_false, iff_true] <;> omega
  | s3 =>
    rw [stageReady_s3 h]
    split_ifs <;> simp only [hnot, false_or, iff_false, iff_true] <;> omega

/-- While a run is in progress some stage is ready: concurrently stage 3 or 2 where blocks wait for it, else stage 1
(43 R293). -/
theorem exists_stageReady (h : TripleInv P s) : ∃ st, stageReady s st = true := by
  have h32 := h.order32
  have h21 := h.order21
  have h3 := h.unfinished
  cases hm : s.run.mode with
  | seq => exact ⟨_, (stageReady_iff_of_seq h hm).mpr rfl⟩
  | conc =>
    by_cases h3' : s.idx.s3 < s.idx.s2
    · exact ⟨.s3, (stageReady_s3 h).mpr ⟨h3', .inl hm⟩⟩
    · by_cases h2' : s.idx.s2 < s.idx.s1
      · exact ⟨.s2, (stageReady_s2 h).mpr ⟨h2', .inl hm⟩⟩
      · exact ⟨.s1, (stageReady_s1 h).mpr (by omega)⟩

end

/-- Settles O34: `sequentialStage` is ready and no other; a stage above the first is ready by R288 only. -/
theorem sequentialModeEnablesOneStage : Obligations.SequentialModeEnablesOneStage := by
  intro s hinv hrun hm
  have ht := hinv.triple hrun
  have hnot : s.run.mode ≠ .conc := by rw [hm]; decide
  simp only [enabled_of_tripleRuns hrun]
  refine ⟨⟨sequentialStage s, (stageReady_iff_of_seq ht hm).mpr rfl, fun _ => (stageReady_iff_of_seq ht hm).mp⟩,
    fun h2 => ?_, fun h3 => ?_⟩
  · exact ((stageReady_s2 ht).mp h2).2.resolve_left hnot
  · exact ((stageReady_s3 ht).mp h3).2.resolve_left hnot

/-! ## The stage step (43 R287, R290) -/

/-- The indices of stages that have all finished `n` blocks. -/
abbrev allAt (n : Nat) : PerStage Nat := { s1 := n, s2 := n, s3 := n }

section

variable (P : Params) {st : Stage} {s : State}

theorem stageStep_of_last (h : s.idx.set st (s.idx.get st + 1) = allAt s.nblk.toNat) :
    stageStep P st s = complete (stageMove P st s) := by
  rw [stageStep_eq, if_pos]
  exact (PerStage.mk.injEq ..).mp h

theorem stageStep_of_more (h : s.idx.set st (s.idx.get st + 1) ≠ allAt s.nblk.toNat) :
    stageStep P st s = stageMove P st s := by
  rw [stageStep_eq, if_neg]
  exact fun hall => h ((PerStage.mk.injEq ..).mpr hall)

/-- What the step does whether or not it is the last: the move, with another `RUN.OP` and `STATUS` at most. -/
theorem stageStep_eq_move (st : Stage) (s : State) :
    stageStep P st s = { stageMove P st s with
      run := { s.run with op := (stageStep P st s).run.op }, status := (stageStep P st s).status } := by
  rw [stageStep_eq]
  split <;> rfl

end

/-- The handshake of a step: it takes the slot of its own stage and gives the next one (43 R287). -/
theorem readSlots_handOff {m : List (Nat × Slots)} (h : storeWf noSlots m) (j : Nat) (st : Stage) (i : Nat) :
    readSlots (writeSlot (writeSlot m j st false) j (nextSlot st) true) i =
      if i = j then ((readSlots m i).set st false).set (nextSlot st) true else readSlots m i := by
  rw [readSlots_writeSlot (writeSlot_wf _ _ _ h), readSlots_writeSlot h, if_pos rfl, readSlots_writeSlot h]
  split
  · next hij => rw [if_pos hij.symm, hij]
  · next hij => rw [if_neg (Ne.symm hij)]

theorem step_turn_of_ready {s : State} {st : Stage} (hrun : tripleRuns s) (hr : stageReady s st = true)
    (rest : List Event) :
    step { s with events := Event.turn st :: rest } = .next (stageStep Config.params st { s with events := rest }) := by
  have hrun' : tripleRuns { s with events := rest } := hrun
  rw [step_of_event rfl, takeEvent, stageTurn, if_pos ((enabled_of_tripleRuns hrun' st).trans hr),
    coreStep_of_tripleRuns hrun']

/-- The turn of a stage that is not ready changes nothing (log entry 22). -/
theorem step_turn_of_not_ready {s : State} {st : Stage} (hrun : tripleRuns s) (hr : ¬ stageReady s st = true)
    (rest : List Event) :
    step { s with events := Event.turn st :: rest } = .next { s with events := rest } := by
  have he : ¬ enabled { s with events := rest } st = true := by
    rw [enabled_of_tripleRuns (s := { s with events := rest }) hrun]
    exact hr
  rw [step_of_event rfl, takeEvent, stageTurn, if_neg he]

/-- Settles O33: where the stage is ready the step is its move, completed after the last; else it changes nothing. -/
theorem stageStepHandsOneBlockOn : Obligations.StageStepHandsOneBlockOn := by
  intro s st rest hinv hrun
  have hmem := hinv.stores.memWf
  rw [← stageReady_iff_rules]
  by_cases hr : stageReady s st = true
  · refine ⟨_, step_turn_of_ready hrun hr rest, fun hno => absurd hr hno, fun _ => ⟨fun hd => ?_, fun hd => ?_,
      fun a ha => ?_, fun j => ?_, ?_, fun st' hne => ?_, fun hlast => ?_, fun hmore => ?_, ?_⟩⟩
    · rw [stageStep_eq_move]
      simp only [stageMove, chainStep_enc _ _ hd, perStage_get_set_same]
      exact ⟨readBlock_writeBlock_same hmem _ _, rfl⟩
    · rw [stageStep_eq_move]
      simp only [stageMove, chainStep_dec_of_iv (P := Config.params) rfl _ hd, perStage_get_set_same, and_true]
      exact readBlock_writeBlock_same hmem _ _
    · rw [stageStep_eq_move]
      exact readByte_writeBlock_of_ne hmem _ _ ha
    · rw [stageStep_eq_move]
      exact readSlots_handOff hinv.stores.semWf _ st j
    · rw [stageStep_eq_move]
      exact perStage_get_set_same _ st _
    · rw [stageStep_eq_move]
      exact ⟨perStage_get_set_of_ne _ _ hne.symm, perStage_get_set_of_ne _ _ hne.symm⟩
    · rw [stageStep_eq_move] at hlast
      rw [stageStep_of_last _ hlast]
      exact ⟨rfl, rfl⟩
    · rw [stageStep_eq_move] at hmore
      rw [stageStep_of_more _ hmore]
      exact ⟨rfl, rfl⟩
    · rw [stageStep_eq_move]
      rfl
  · exact ⟨_, step_turn_of_not_ready hrun hr rest, fun _ => rfl, fun h => absurd h hr⟩

/-- The last step of a run is stage 3's on the last block (43 R290). -/
theorem lastStep_iff {P : Params} {s : State} (h : TripleInv P s) {st : Stage} :
    s.idx.set st (s.idx.get st + 1) = allAt s.nblk.toNat ↔
      st = .s3 ∧ s.idx.s3 + 1 = s.nblk.toNat ∧ s.idx.s1 = s.nblk.toNat ∧ s.idx.s2 = s.nblk.toNat := by
  have h3 := h.unfinished
  cases st <;> simp only [PerStage.set, PerStage.get, PerStage.mk.injEq, reduceCtorEq, true_and, false_and, iff_false]
  · omega
  · omega
  · omega

/-- A step of a run leaves `RUN.OP` NONE exactly when it is the last. -/
theorem stageStep_op_eq_none (P : Params) {s : State} (hrun : tripleRuns s) {st : Stage} :
    (stageStep P st s).run.op = .none ↔ s.idx.set st (s.idx.get st + 1) = allAt s.nblk.toNat := by
  have hne : s.run.op ≠ .none := by rcases hrun with ho | ho <;> simp [ho]
  constructor
  · intro hop
    by_contra hmore
    rw [stageStep_of_more P hmore] at hop
    exact hne hop
  · intro hlast
    rw [stageStep_of_last P hlast]
    rfl

/-- Settles O37: the step completes the run where it is the last, and otherwise it is the move alone. -/
theorem completionIsTheLastStepOfStageThree : Obligations.CompletionIsTheLastStepOfStageThree := by
  intro s st hinv hrun _
  rw [coreStep_of_tripleRuns hrun]
  have hnone := stageStep_op_eq_none Config.params hrun (st := st)
  refine ⟨hnone.trans (lastStep_iff (hinv.triple hrun)), fun hop => ?_, fun hop => ?_, ?_⟩
  · rw [stageStep_of_last _ (hnone.mp hop)]
    rfl
  · rw [stageStep_of_more _ (hnone.not.mp hop)]
    rfl
  · rw [stageStep_eq_move]
    exact ⟨rfl, rfl, rfl, rfl, rfl, rfl, rfl⟩

/-! ## Progress and the slots (43 R293, R295) -/

/-- The core left alone in a run takes a ready stage's step (log entries 4 and 21). -/
theorem step_alone_of_tripleRuns {s : State} (hinv : Inv Config.params s) (hrun : tripleRuns s)
    (he : s.events = []) :
    ∃ st n, stageReady s st = true ∧ step s = .next (stageStep Config.params st { s with draws := n }) := by
  obtain ⟨st₀, h₀⟩ := exists_stageReady (hinv.triple hrun)
  rw [step_of_no_event he]
  rcases coreAlone_cases Config.params s with ⟨hnone, -⟩ | ⟨st, n, hst, e⟩
  · rw [← enabled_of_tripleRuns hrun, hnone] at h₀
    cases h₀
  · rw [enabled_of_tripleRuns hrun] at hst
    rw [e, coreStep_of_tripleRuns (s := { s with draws := n }) hrun]
    exact ⟨st, n, hst, rfl⟩

theorem idxSum_set (i : PerStage Nat) (st : Stage) :
    (i.set st (i.get st + 1)).s1 + (i.set st (i.get st + 1)).s2 + (i.set st (i.get st + 1)).s3 =
      i.s1 + i.s2 + i.s3 + 1 := by
  cases st <;> simp only [PerStage.set, PerStage.get] <;> omega

/-- Settles O35: a stage is ready, and the core left alone takes the step of one. -/
theorem tripleRunNeverDeadlocks : Obligations.TripleRunNeverDeadlocks := by
  intro s hinv hrun
  simp only [enabled_of_tripleRuns hrun]
  refine ⟨exists_stageReady (hinv.triple hrun), fun he => ?_⟩
  obtain ⟨st, n, -, hs⟩ := step_alone_of_tripleRuns hinv hrun he
  refine ⟨_, hs, ?_⟩
  rw [stageStep_eq_move]
  exact idxSum_set s.idx st

/-- The stages' indices divide the blocks among the three slots (10 R43). -/
theorem exactlyOneSlot_slotsAt {i : PerStage Nat} (h32 : i.s3 ≤ i.s2) (h21 : i.s2 ≤ i.s1) (j : Nat) :
    exactlyOneSlot (slotsAt i j) = true := by
  simp only [exactlyOneSlot, atMostOneSlot, slotsAt, Bool.and_eq_true, Bool.or_eq_true, Bool.not_eq_true',
    Bool.and_eq_false_iff, decide_eq_true_eq, decide_eq_false_iff_not]
  omega

theorem slotsAt_finished {n j : Nat} (h : j < n) : slotsAt (allAt n) j = freshSlots := by
  simp [slotsAt, freshSlots, h]

/-- Settles O36: the invariant gives the triples, and the last step hands them on with every index at `NBLK`. -/
theorem oneSlotAvailableThenSlotOne : Obligations.OneSlotAvailableThenSlotOne := by
  intro s hinv hrun
  have ht := hinv.triple hrun
  refine ⟨fun j hj => ?_, fun t hs hreset hop j hj => ?_⟩
  · rw [ht.slots j hj]
    exact exactlyOneSlot_slotsAt ht.order32 ht.order21 j
  · rcases step_of_busy_cases (busy_of_tripleRuns hinv hrun) hreset hs with
      ⟨ev, r, n, rfl⟩ | ⟨st, ev, r, n, he, rfl⟩
    · have hop' : s.run.op = .none := hop
      simp [tripleRuns, hop'] at hrun
    · have hrun' : tripleRuns { s with events := ev, rdata := r, draws := n } := hrun
      rw [enabled_of_tripleRuns hrun] at he
      obtain ⟨hlt, hown, -⟩ := stageReady_slots ht he
      rw [coreStep_of_tripleRuns hrun'] at hop ⊢
      have hlast : s.idx.set st (s.idx.get st + 1) = _ := (stageStep_op_eq_none Config.params hrun').mp hop
      rw [stageStep_eq_move]
      refine (slots_handOff hinv.stores.semWf ht.slots ht.order32 ht.order21 hlt hown j hj).trans ?_
      rw [hlast]
      exact slotsAt_finished hj

/-! ## The events of a run -/

theorem coreStep_events (P : Params) {st : Stage} {s : State} (he : enabled s st = true) :
    (coreStep P st s).events = s.events := by
  rcases coreStep_cases P he with ⟨-, e⟩ | ⟨-, e⟩ | ⟨-, -, e⟩ <;> rw [e]
  · rfl
  · rw [passStep_eq_move]
  · rw [stageStep_eq_move]
    rfl

theorem coreAlone_events (P : Params) (s : State) : (coreAlone P s).events = s.events := by
  rcases coreAlone_cases P s with ⟨-, e⟩ | ⟨st, n, he, e⟩ <;> rw [e]
  exact coreStep_events P (s := { s with draws := n }) he

/-- A step of a busy core schedules nothing new: it takes an event, or leaves them all (a poll). -/
theorem step_of_busy_events {s t : State} (hb : s.status.busy = true) (hs : step s = .next t) :
    t.events ⊆ s.events := by
  cases hev : s.events with
  | nil =>
    rw [step_of_no_event hev] at hs
    cases hs
    rw [coreAlone_events, hev]
    exact List.Subset.refl _
  | cons e rest =>
    rw [step_of_event hev] at hs
    have htail : rest ⊆ e :: rest := List.subset_cons_self e rest
    cases e with
    | write off size v =>
      rw [takeEvent] at hs
      rcases hostWrite_cases Config.params off size v { s with events := rest } with
        ⟨-, e⟩ | ⟨-, -, e⟩ | ⟨-, -, ⟨-, e⟩ | ⟨h, -⟩ | ⟨h, -⟩⟩
      · rw [e] at hs; cases hs
      · rw [e] at hs; cases hs
      · rw [e] at hs; cases hs; exact htail
      · exact absurd (hb.symm.trans h) (by decide)
      · exact absurd (hb.symm.trans h) (by decide)
    | read off size =>
      rw [takeEvent] at hs
      rcases hostRead_cases Config.params off size { s with events := rest } with
        ⟨-, e⟩ | ⟨-, -, e⟩ | ⟨-, -, e⟩ <;> (rw [e] at hs; cases hs)
      rcases readReg_cases (registerAt Config.params off) { s with events := rest } with ⟨-, e⟩ | ⟨-, e⟩ <;>
        (rw [e]; exact htail)
    | poll =>
      cases hs
      rw [hostPoll_eq, if_pos hb, coreAlone_events]
      exact List.Subset.refl _
    | turn st =>
      cases hs
      rcases stageTurn_cases Config.params st { s with events := rest } with ⟨-, e⟩ | ⟨he, e⟩ <;> rw [e]
      · exact htail
      · rw [coreStep_events Config.params he]
        exact htail
    | reset d => cases hs; exact htail

theorem exec_events {i : Instr} {s u : State} (hex : exec i s = .next u) : u.events = s.events := by
  obtain ⟨-, -, -, -, -, -, hev, -⟩ := commandsChangeOnlyTheirState i s u hex
  exact hev

theorem not_reset_next {s : State} (h : ∀ e ∈ s.events, e.noReset = true) (d : ResetDraw) (rest : List Event) :
    s.events ≠ Event.reset d :: rest := by
  intro hev
  have hr := h (.reset d) (by rw [hev]; exact List.mem_cons_self)
  cases hr

/-! ## What holds at every point of a run (43 R291, R292) -/

/-- What every step from a busy state keeps holds at the end of a busy run. -/
theorem busyRun_keeps {Q : State → Prop}
    (hstep : ∀ s t, Q s → s.status.busy = true → step s = .next t → Q t) :
    ∀ {k u t}, Q u → busyBefore k u → runSteps k u = .next t → Q t := by
  intro k
  induction k with
  | zero =>
    intro u t h _ hrun
    cases hrun
    exact h
  | succ k ih =>
    intro u t h hbusy hrun
    obtain ⟨_, hv, hb⟩ := hbusy 0 (Nat.succ_pos k)
    cases hv
    cases hs : step u with
    | next s =>
      rw [runSteps_succ hs] at hrun
      refine ih (hstep u s h hb hs) (fun m hm => ?_) hrun
      rw [← runSteps_succ hs]
      exact hbusy (m + 1) (Nat.succ_lt_succ hm)
    | fault r => rw [runSteps, hs] at hrun; cases hrun
    | refused r => rw [runSteps, hs] at hrun; cases hrun

/-- A stage step leaves the blocks from `NBLK` on alone. -/
theorem readBlock_stageStep_beyond (P : Params) {s : State} (hwf : Memory.wf s.mem) {st : Stage}
    (hlt : s.idx.get st < s.nblk.toNat) {j : Nat} (hj : s.nblk.toNat ≤ j) :
    readBlock (stageStep P st s).mem j = readBlock s.mem j := by
  rw [stageStep_eq_move]
  exact readBlock_writeBlock_of_ne hwf _ (by omega)

/-- A stage step either leaves `RUN.OP` and `STATUS`, or ends the run with every index at `NBLK` (43 R290). -/
theorem stageStep_more_or_last (P : Params) (st : Stage) (s : State) :
    ((stageStep P st s).run.op = s.run.op ∧ (stageStep P st s).status = s.status) ∨
    ((stageStep P st s).idx = allAt s.nblk.toNat ∧ (stageStep P st s).status = s.status.completed) := by
  by_cases hlast : s.idx.set st (s.idx.get st + 1) = allAt s.nblk.toNat
  · rw [stageStep_of_last P hlast]
    exact .inr ⟨hlast, rfl⟩
  · rw [stageStep_of_more P hlast]
    exact .inl ⟨rfl, rfl⟩

/-- Settles O38: no stage has finished a block, and every vector is its stage's IV. -/
theorem acceptedRunStartsOnTheBlocks : Obligations.AcceptedRunStartsOnTheBlocks := by
  intro i mode s t _ hready hi hex
  obtain ⟨op, -, rfl⟩ := eq_tripleAccepted_of_exec hready hi hex
  refine ⟨blocksOf_length s _, fun j hj => ?_, rfl, rfl, rfl⟩
  rw [blockAt_of_untouched (Nat.zero_le j) (Nat.zero_le j) (Nat.zero_le j)]
  exact (blocksOf_getD s hj).symm

/-- `s` stands in the Triple-DES run over `bs` that was accepted in the state `u`, or is where that run ended. -/
structure InRun (bs : List Block) (u s : State) : Prop where
  inv : Inv Config.params s
  onPasses : RunOver Config.params bs s
  operands : operandsOf s = operandsOf u
  beyond : ∀ j, u.nblk.toNat ≤ j → readBlock s.mem j = readBlock u.mem j
  noReset : ∀ e ∈ s.events, e.noReset = true
  running : s.status.busy = true → tripleRuns s ∧ s.status = u.status
  finished : s.status.busy = false → s.idx = allAt u.nblk.toNat ∧ s.status = u.status.completed

theorem InRun.nblk {bs : List Block} {u s : State} (h : InRun bs u s) : s.nblk = u.nblk := congrArg Prod.fst h.operands

/-- The start of a run: EDEE or EDED, just accepted. -/
theorem InRun.start {i : Instr} {mode : Mode} {s u : State} (hinv : Inv Config.params s)
    (hready : ReadyToRun Config.params s) (hi : i = .edee mode ∨ i = .eded mode) (hex : exec i s = .next u)
    (hev : ∀ e ∈ u.events, e.noReset = true) : InRun (blocksOf s s.nblk.toNat) u u := by
  have hinv' : Inv Config.params u :=
    issue_keeps hinv (fun _ => commandBody_keeps _) ((exec_eq_issue _ s).symm.trans hex)
  have hpasses := acceptedRunStartsOnTheBlocks i mode s u hinv hready hi hex
  obtain ⟨op, hop, rfl⟩ := eq_tripleAccepted_of_exec hready hi hex
  exact ⟨hinv', hpasses, rfl, fun _ _ => rfl, hev, fun _ => ⟨hop, rfl⟩, fun hb => Bool.noConfusion hb⟩

theorem InRun.step {bs : List Block} {u s t : State} (h : InRun bs u s) (hb : s.status.busy = true)
    (hs : step s = .next t) : InRun bs u t := by
  obtain ⟨hrun, hst⟩ := h.running hb
  have hreset := not_reset_next h.noReset
  have hinv := everyStepKeepsTheInvariant s t h.inv hs
  have hpasses := everyStepKeepsTheRunOnItsPasses bs s t h.inv hrun h.onPasses hreset hs
  have hops := (step_of_busy_keepsOperands hb hreset hs).1.trans h.operands
  have hev : ∀ e ∈ t.events, e.noReset = true := fun e he => h.noReset e (step_of_busy_events hb hs he)
  rcases step_of_busy_cases hb hreset hs with ⟨ev, r, n, rfl⟩ | ⟨st, ev, r, n, he, rfl⟩
  · exact ⟨hinv, hpasses, hops, h.beyond, hev, h.running, h.finished⟩
  · have hrun' : tripleRuns { s with events := ev, rdata := r, draws := n } := hrun
    rw [enabled_of_tripleRuns hrun] at he
    rw [coreStep_of_tripleRuns hrun'] at hinv hpasses hops hev ⊢
    obtain ⟨hlt, -, -⟩ := stageReady_slots (h.inv.triple hrun) he
    have hbeyond : ∀ j, u.nblk.toNat ≤ j → readBlock (stageStep Config.params st _).mem j = readBlock u.mem j :=
      fun j hj => (readBlock_stageStep_beyond Config.params (s := { s with events := ev, rdata := r, draws := n })
        h.inv.stores.memWf hlt (h.nblk ▸ hj)).trans (h.beyond j hj)
    rcases stageStep_more_or_last Config.params st { s with events := ev, rdata := r, draws := n } with
      ⟨hop, hst'⟩ | ⟨hidx, hst'⟩ <;> have hbusy := congrArg Status.busy hst'
    · exact ⟨hinv, hpasses, hops, hbeyond, hev, fun _ => ⟨by rwa [tripleRuns, hop], hst'.trans hst⟩,
        fun hb' => (Bool.false_ne_true (hb'.symm.trans (hbusy.trans hb))).elim⟩
    · exact ⟨hinv, hpasses, hops, hbeyond, hev, fun hb' => (Bool.false_ne_true (hbusy.symm.trans hb')).elim,
        fun _ => ⟨hidx.trans (by rw [h.nblk]), hst'.trans (congrArg _ hst)⟩⟩

/-- Where an accepted EDEE or EDED has got to, under whatever schedule without a reset. -/
theorem InRun.of_run {i : Instr} {mode : Mode} {s u t : State} {k : Nat} (hinv : Inv Config.params s)
    (hready : ReadyToRun Config.params s) (hi : i = .edee mode ∨ i = .eded mode) (hex : exec i s = .next u)
    (hev : ∀ e ∈ u.events, e.noReset = true) (hbusy : busyBefore k u) (hrun : runSteps k u = .next t) :
    InRun (blocksOf s s.nblk.toNat) u t :=
  busyRun_keeps (fun _ _ h => h.step) (.start hinv hready hi hex hev) hbusy hrun

/-- A run that has ended has left the three passes over its blocks in the block store. -/
theorem InRun.result {bs : List Block} {u t : State} (h : InRun bs u t) (hb : t.status.busy = false) :
    blocksOf t u.nblk.toNat = triplePass Config.params t.tbl t.pp bs := by
  obtain ⟨hidx, -⟩ := h.finished hb
  have hlen : (triplePass Config.params t.tbl t.pp bs).length = u.nblk.toNat := by
    simp only [triplePass, passBlocks_length, h.onPasses.count, h.nblk]
  refine blocksOf_eq_of_getD hlen fun j hj => ?_
  rw [h.onPasses.blocks j (h.nblk ▸ hj), hidx]
  exact blockAt_of_three_passes hj

/-- A run that has ended on committed tables leaves the core ready for the next. -/
theorem InRun.ready {bs : List Block} {u t : State} (h : InRun bs u t) (hb : t.status.busy = false)
    (ho : u.status.tblOk = true) (hr : nblkInRange Config.params u) : ReadyToRun Config.params t := by
  obtain ⟨-, hst⟩ := h.finished hb
  refine ⟨hb, by rw [hst]; exact ho, ?_⟩
  rw [nblkInRange, h.nblk]
  exact hr

/-- Settles O40: the end of a run is the three passes by `InRun.result`, with the tables and parameters of its start. -/
theorem tripleRunResultIsScheduleFree : Obligations.TripleRunResultIsScheduleFree := by
  intro i mode s u t k hinv hready hi hex hev hbusy hrun hb
  have h := InRun.of_run hinv hready hi hex hev hbusy hrun
  have hops := h.operands
  have hres := h.result hb
  have hbeyond := h.beyond
  obtain ⟨op, -, rfl⟩ := eq_tripleAccepted_of_exec hready hi hex
  simp only [operandsOf, Prod.mk.injEq] at hops
  obtain ⟨-, -, -, -, -, -, -, htbl, -, hpp⟩ := hops
  rw [htbl, hpp] at hres
  exact ⟨hres, hbeyond⟩

/-! ## The length of a run (43 R294) -/

/-- `s` is left alone in the run over `bs` that was accepted in `u`, with `k` stage steps to go. -/
structure TripleCountdown (bs : List Block) (u : State) (k : Nat) (s : State) : Prop where
  inRun : InRun bs u s
  left : s.idx.s1 + s.idx.s2 + s.idx.s3 + k = 3 * u.nblk.toNat
  alone : s.events = []

section

variable {bs : List Block} {u s : State} {k : Nat}

/-- With steps to go the core is busy: at the end of a run every index is `NBLK`. -/
theorem TripleCountdown.busy (h : TripleCountdown bs u (k + 1) s) : s.status.busy = true := by
  by_contra hb
  obtain ⟨hidx, -⟩ := h.inRun.finished (Bool.eq_false_iff.mpr hb)
  have hleft := h.left
  rw [hidx] at hleft
  dsimp only at hleft
  omega

/-- With no step to go the core is idle: in a run stage 3 has a block left. -/
theorem TripleCountdown.idle (h : TripleCountdown bs u 0 s) : s.status.busy = false := by
  rw [Bool.eq_false_iff]
  intro hb
  have ht := h.inRun.inv.triple (h.inRun.running hb).1
  have h1 := ht.order1
  have h21 := ht.order21
  have h3 := ht.unfinished
  have hleft := h.left
  rw [h.inRun.nblk] at h1 h3
  omega

theorem TripleCountdown.step (h : TripleCountdown bs u (k + 1) s) :
    s.status.busy = true ∧ ∃ t, Machine.step s = .next t ∧ TripleCountdown bs u k t := by
  have hb := h.busy
  obtain ⟨-, hprogress⟩ := tripleRunNeverDeadlocks s h.inRun.inv (h.inRun.running hb).1
  obtain ⟨t, hs, hsum⟩ := hprogress h.alone
  have hleft := h.left
  refine ⟨hb, t, hs, h.inRun.step hb hs, by omega, List.subset_nil.mp ?_⟩
  rw [← h.alone]
  exact step_of_busy_events hb hs

end

/-- Settles O41: an accepted run has `3·NBLK` steps to go, and ends with none. -/
theorem tripleRunTakesThreeStepsPerBlock : Obligations.TripleRunTakesThreeStepsPerBlock := by
  intro i mode s u hinv hready hi he hex
  have hev : u.events = [] := (exec_events hex).trans he
  have hstart := InRun.start hinv hready hi hex (by rw [hev]; exact fun _ h => absurd h List.not_mem_nil)
  obtain ⟨op, -, rfl⟩ := eq_tripleAccepted_of_exec hready hi hex
  obtain ⟨t, hrun, hbusy, hend⟩ := run_of_countdown (fun _ _ h => h.step)
    (TripleCountdown.mk (k := 3 * s.nblk.toNat) hstart (Nat.zero_add _) hev)
  obtain ⟨hidx, hst⟩ := hend.inRun.finished hend.idle
  exact ⟨t, hrun, hbusy, hst, hidx⟩

/-! ## The algebra of the three passes (43 R296, R298) -/

section

variable {P : Params} (hP : P.decVectorInit = .iv) {tb : TableStore Entry} (h : InvertibleTables tb)

include h

/-- The other order of 41 R204: encrypting is injective on the finitely many blocks, so it has its left inverse as its
right inverse too. -/
theorem encryptingUndoesDecrypting (order : SboxIndexOrder) (x key : Block) :
    transform order tb (transform order tb x key true) key false = x := by
  have hleft : Function.LeftInverse (fun y => transform order tb y key true)
      (fun y => transform order tb y key false) := fun y => decryptingUndoesEncrypting order tb h y key
  exact hleft.rightInverse_of_surjective (Finite.surjective_of_injective hleft.injective) x

include hP

theorem passFrom_enc_dec (k iv : Block) (bs : List Block) (j : Nat) (v : Block) :
    passFrom P tb { dir := .enc, k := k, iv := iv } j v (passFrom P tb { dir := .dec, k := k, iv := iv } j v bs) =
      bs := by
  induction bs generalizing j v with
  | nil => rfl
  | cons b bs ih =>
    have hblock : transform P.sboxOrder tb (transform P.sboxOrder tb b k true ^^^ v ^^^ v) k false = b := by
      rw [BitVec.xor_assoc, BitVec.xor_self, BitVec.xor_zero, encryptingUndoesDecrypting h]
    simp only [passFrom, chainStep_enc P tb (pp := ⟨.enc, k, iv⟩) rfl,
      chainStep_dec_of_iv hP tb (pp := ⟨.dec, k, iv⟩) rfl, chainEncrypt]
    rw [hblock, ih]

/-- An encrypting pass undoes a decrypting pass with the same key and IV. -/
theorem encryptingPassUndoesDecryptingPass (k iv : Block) (bs : List Block) :
    passBlocks P tb { dir := .enc, k := k, iv := iv } (passBlocks P tb { dir := .dec, k := k, iv := iv } bs) = bs :=
  passFrom_enc_dec hP h k iv bs 0 iv

/-- The passes of EDED undo those of EDEE, the last first. -/
theorem triplePass_eded_edee (s : State) (bs : List Block) :
    triplePass P tb (ededPasses s) (triplePass P tb (edeePasses s) bs) = bs := by
  simp only [triplePass, ededPasses, edeePasses]
  rw [decryptingPassUndoesEncryptingPass P tb _ _ _ h hP, encryptingPassUndoesDecryptingPass hP h,
    decryptingPassUndoesEncryptingPass P tb _ _ _ h hP]

end

/-- Settles O42: the first run ends ready for the second, with the same operands, and the passes undo each other. -/
theorem ededAfterEdeeRestoresTheBlocks : Obligations.EdedAfterEdeeRestoresTheBlocks := by
  intro m m' s u t v w k k' hinv hready htb hexE hev hbusy hrun hb hexD hbusy' hrun' hb'
  have hE := InRun.of_run hinv hready (.inl rfl) hexE hev hbusy hrun
  obtain ⟨hfirst, -⟩ := tripleRunResultIsScheduleFree _ m s u t k hinv hready (.inl rfl) hexE hev hbusy hrun hb
  have hops := hE.operands
  rw [exec_edee_of_ready hready] at hexE
  cases hexE
  have hevT : ∀ e ∈ v.events, e.noReset = true := by rw [exec_events hexD]; exact hE.noReset
  have hreadyT := hE.ready hb rfl hready.range
  obtain ⟨hsecond, -⟩ :=
    tripleRunResultIsScheduleFree _ m' t v w k' hE.inv hreadyT (.inr rfl) hexD hevT hbusy' hrun' hb'
  simp only [operandsOf, Prod.mk.injEq] at hops
  obtain ⟨hnblk, hkey, hiv1, hiv2, hiv3, -, -, htbl, -, -⟩ := hops
  have hpasses : ededPasses t = ededPasses s := by rw [ededPasses, hkey, hiv1, hiv2, hiv3]; rfl
  rw [if_neg (by simp), hpasses, htbl, hnblk] at hsecond
  rw [if_pos rfl] at hfirst
  exact hsecond.trans ((congrArg _ hfirst).trans (triplePass_eded_edee rfl htb s _))

/-- Settles O43: the second pass undoes the first, and the third is the one that is left. -/
theorem equalKeysMakeOnePass : Obligations.EqualKeysMakeOnePass := by
  intro P s bs h hP hkey hiv
  simp only [triplePass, edeePasses]
  rw [← hkey, ← hiv, decryptingPassUndoesEncryptingPass P s.tbl _ _ _ h hP]

end Sys2Proof.Machine
end

