-- ==== Sys2Proof/Proofs/Exceptions.lean ====
section
/-! PROOFS. The statements of 60_exceptions.md. First what the rule of a command word does to `STATUS`: it reports the
first error that applies, or it runs; then the order of the errors and the retry; then the steps that leave `ERR`. -/

namespace Sys2Proof.Machine

/-! ## A rule reports its error, or runs (60 R331, R339) -/

/-- A command's rule with the error code `c` takes `s` to `t`: with a code it reports it, and with none it runs, which
changes `STATUS` only as an immediate command, as TBLC's commit, or as the start of a long command (30 R128, 40 R153). -/
def ReportsOrRuns (c : ErrCode) (s t : State) : Prop :=
  (c ≠ .noError ∧ t = raiseError c s) ∨
  (c = .noError ∧
    (t.status = s.status.finished ∨ t.status = s.status.committed ∨ t.status = s.status.started))

section

variable {c : ErrCode} {s t : State}

theorem ReportsOrRuns.reports (s : State) (hc : c ≠ .noError) : ReportsOrRuns c s (raiseError c s) := .inl ⟨hc, rfl⟩

theorem ReportsOrRuns.eq_raiseError (h : ReportsOrRuns c s t) (hc : c ≠ .noError) : t = raiseError c s := by
  rcases h with ⟨-, e⟩ | ⟨h0, -⟩
  · exact e
  · exact absurd h0 hc

/-- Run on an accepted state, whose `ERR` is 0, a rule leaves its code in `ERR`. -/
theorem ReportsOrRuns.err_eq (h : ReportsOrRuns c s t) (he : s.status.err = .noError) : t.status.err = c := by
  rcases h with ⟨-, rfl⟩ | ⟨rfl, e | e | e⟩
  · rfl
  all_goals rw [e]; exact he

/-- A rule that leaves an idle core running has started a long command, and so keeps `DONE` and has no error. -/
theorem ReportsOrRuns.done_of_busy (h : ReportsOrRuns c s t) (hb : s.status.busy = false)
    (hbt : t.status.busy = true) : t.status.done = s.status.done ∧ c = .noError := by
  rcases h with ⟨-, rfl⟩ | ⟨h0, e | e | e⟩
  · exact absurd (hb.symm.trans hbt) (by decide)
  · rw [e] at hbt; exact absurd (hb.symm.trans hbt) (by decide)
  · rw [e] at hbt; exact absurd (hb.symm.trans hbt) (by decide)
  · rw [e]; exact ⟨rfl, h0⟩

end

/-- The check of a run on `NBLK` is the body's own (60 R334). -/
theorem badCount_eq_nblkRefused (s : State) : badCount s = nblkRefused Config.params s.nblk :=
  (Bool.decide_or _ _).symm

/-- The checks of a run on committed tables: STRUCT alone is left. -/
theorem runError_of_tables {s : State} (ho : s.status.tblOk = true) :
    runError s = if nblkRefused Config.params s.nblk then .struct else .noError := by
  rw [runError, ho, badCount_eq_nblkRefused]
  rfl

theorem runError_of_noTables {s : State} (ho : s.status.tblOk = false) : runError s = .cfg := if_pos ho

section

variable (s : State)

/-- The checks of TBLW on a table: LOCKED before STRUCT (60 R339). -/
theorem expectedError_tblw_table (tab : TableId) (idx : BitVec 9) (val : Entry) :
    expectedError s (.tblw (tidOfTable tab) idx val) =
      if s.status.tblOk then .locked else if tab.size ≤ idx.toNat then .struct else .noError := by
  cases tab <;> rfl

theorem tblwBody_reportsOrRuns (tid : BitVec 4) (idx : BitVec 9) (val : Entry) :
    ReportsOrRuns (expectedError s (.tblw tid idx val)) s (tblwBody tid idx val s) := by
  by_cases ht : 8 ≤ tid.toNat
  · rw [expectedError, if_pos ht, tblwBody, tableOfTid_eq_none ht]
    exact .reports s (by decide)
  · obtain ⟨tab, rfl⟩ := exists_tidOfTable (Nat.lt_of_not_le ht)
    rw [expectedError_tblw_table, tblwBody, tableOfTid_tidOfTable]
    dsimp only
    split
    · exact .reports s (by decide)
    · split
      · exact .reports s (by decide)
      · exact .inr ⟨rfl, .inl rfl⟩

theorem tblcBody_reportsOrRuns : ReportsOrRuns (expectedError s .tblc) s (tblcBody s) := by
  rcases tblcBody_cases s with ⟨ho, e⟩ | ⟨ho, hr, e⟩ | ⟨ho, hr, e⟩ <;> rw [e, expectedError, ho]
  · exact .inr ⟨rfl, .inl rfl⟩
  · rw [hr]; exact .inr ⟨rfl, .inr (.inl rfl)⟩
  · rw [hr]; exact .reports s (by decide)

theorem desbBody_reportsOrRuns (dir : Dir) : ReportsOrRuns (expectedError s (.desb dir)) s (desbBody dir s) := by
  rcases desbBody_cases dir s with ⟨ho, e⟩ | ⟨ho, e⟩ <;> rw [e, expectedError, ho]
  · exact .reports s (by decide)
  · exact .inr ⟨rfl, .inr (.inr rfl)⟩

/-- EDEE and EDED: CFG before STRUCT (60 R339). -/
theorem tripleBody_reportsOrRuns (op : RunOp) (mode : Mode) (pp : PerStage PassParams) :
    ReportsOrRuns (runError s) s (tripleBody Config.params op mode pp s) := by
  rcases tripleBody_cases Config.params op mode pp s with ⟨ho, e⟩ | ⟨ho, hn, e⟩ | ⟨ho, hn, e⟩ <;> rw [e]
  · rw [runError_of_noTables ho]; exact .reports s (by decide)
  · rw [runError_of_tables ho, hn]; exact .reports s (by decide)
  · rw [runError_of_tables ho, hn]; exact .inr ⟨rfl, .inr (.inr rfl)⟩

/-- PASS: ILLEGAL for `IVSEL` 00, then the checks of a run. -/
theorem passBody_reportsOrRuns (dir : Dir) (ksel : KeySel) (ivsel : BitVec 2) :
    ReportsOrRuns (expectedError s (.pass dir ksel ivsel)) s (passBody Config.params dir ksel ivsel s) := by
  by_cases hv : ivsel = 0#2
  · subst hv
    exact .reports (c := .illegal) s (by decide)
  · have hsel := ivOf_of_ne_zero s hv
    rw [expectedError, if_neg hv]
    rcases passBody_cases Config.params dir ksel ivsel s with
      ⟨hnone, -⟩ | ⟨iv, -, ⟨ho, e⟩ | ⟨ho, hn, e⟩ | ⟨ho, hn, e⟩⟩
    · rw [hsel] at hnone; cases hnone
    · rw [e, runError_of_noTables ho]; exact .reports s (by decide)
    · rw [e, runError_of_tables ho, hn]; exact .reports s (by decide)
    · rw [e, runError_of_tables ho, hn]; exact .inr ⟨rfl, .inr (.inr rfl)⟩

/-- Every command: its first failing check is reported, and with none its rule runs. -/
theorem commandBody_reportsOrRuns (i : Instr) : ReportsOrRuns (expectedError s i) s (commandBody i s) := by
  cases i with
  | tblw tid idx val => exact tblwBody_reportsOrRuns s tid idx val
  | tblc => exact tblcBody_reportsOrRuns s
  | desb dir => exact desbBody_reportsOrRuns s dir
  | ivgen => exact .inr ⟨rfl, .inl rfl⟩
  | pass dir ksel ivsel => exact passBody_reportsOrRuns s dir ksel ivsel
  | edee mode => exact tripleBody_reportsOrRuns s .edee mode (edeePasses s)
  | eded mode => exact tripleBody_reportsOrRuns s .eded mode (ededPasses s)

/-- No check reads `DONE` or `ERR`. -/
theorem expectedError_of_outcome (i : Instr) (d : Bool) (c : ErrCode) :
    expectedError { s with status := { s.status with done := d, err := c } } i = expectedError s i := by
  cases i <;> rfl

end

/-! ## The order of the errors, and the retry (60 R339, R341) -/

/-- What an idle core does with a command. -/
theorem exec_reportsOrRuns (i : Instr) {s : State} (hb : s.status.busy = false) :
    ∃ t, exec i s = .next t ∧ ReportsOrRuns (expectedError s i) s.accepted t := by
  have hsame : expectedError s.accepted i = expectedError s i := expectedError_of_outcome s i false .noError
  exact ⟨_, exec_of_idle hb i, hsame ▸ commandBody_reportsOrRuns s.accepted i⟩

theorem exec_of_error {i : Instr} {s : State} (hb : s.status.busy = false) (hc : expectedError s i ≠ .noError) :
    exec i s = .next (errorState (expectedError s i) s) := by
  obtain ⟨t, hs, h⟩ := exec_reportsOrRuns i hb
  rw [hs, h.eq_raiseError hc]
  rfl

/-- Settles O9: an idle core reports the first failing check and leaves `ERR` 0 where there is none. -/
theorem errorsByPriorityAndNothingElse : Obligations.ErrorsByPriorityAndNothingElse := by
  intro i s
  refine ⟨fun hb => (exec_eq_issue i s).trans (issue_of_busy hb), fun hb => ⟨exec_of_error hb, fun hc => ?_⟩,
    fun hb w => commandWrite_of_illegalWord hb⟩
  obtain ⟨t, hs, h⟩ := exec_reportsOrRuns i hb
  exact ⟨t, hs, (h.err_eq rfl).trans hc⟩

/-- Settles O10: the failed command changed `DONE` and `ERR` alone, which no check reads. -/
theorem retryFailsAgain : Obligations.RetryFailsAgain := by
  intro i s t hb hs herr
  obtain ⟨t', hs', h⟩ := exec_reportsOrRuns i hb
  cases hs.symm.trans hs'
  have hc : expectedError s i ≠ .noError := h.err_eq rfl ▸ herr
  cases hs.symm.trans (exec_of_error hb hc)
  have hsame : expectedError (errorState (expectedError s i) s) i = expectedError s i :=
    expectedError_of_outcome s i false _
  rw [exec_of_error (s := errorState (expectedError s i) s) hb (hsame.symm ▸ hc), hsame]
  rfl

/-! ## The previous outcome (60 R340) -/

/-- A command word, legal or not, is a rule that is issued. -/
theorem commandWrite_eq_issue (w : Word) :
    ∃ cmd, (∀ s, commandWrite w s = issue cmd s) ∧ ∀ s, ∃ c, ReportsOrRuns c s (cmd s) := by
  cases hw : decode w with
  | ok i =>
    exact ⟨commandBody i, fun s => (commandWrite_of_decode hw s).trans (exec_eq_issue i s),
      fun s => ⟨_, commandBody_reportsOrRuns s i⟩⟩
  | error e => exact ⟨raiseError .illegal, commandWrite_of_illegal hw, fun s => ⟨_, .reports s (by decide)⟩⟩

/-- Acceptance forgets `DONE` and `ERR`. -/
theorem issue_forgets_outcome (cmd : State → State) {s : State} (hb : s.status.busy = false) (d : Bool) (c : ErrCode) :
    issue cmd s = issue cmd { s with status := { s.status with done := d, err := c } } :=
  (issue_of_idle hb).trans
    (issue_of_idle (s := { s with status := { s.status with done := d, err := c } }) hb).symm

theorem writeReg_status (r : WinReg) (v : Word) (s : State) : (writeReg r v s).status = s.status := by
  cases r <;> rfl

theorem readReg_status (r : WinReg) (s : State) : (readReg r s).status = s.status := by
  rcases readReg_cases r s with ⟨-, e⟩ | ⟨-, e⟩ <;> rw [e]

/-- No error arises after acceptance (60 R337), and a completion leaves `ERR` alone. -/
theorem coreStep_err (P : Params) {st : Stage} {s : State} (he : enabled s st = true) :
    (coreStep P st s).status.err = s.status.err := by
  rcases (coreStep_keepsOperands P he).2 with e | e <;> rw [e]
  rfl

theorem coreAlone_err (P : Params) (s : State) : (coreAlone P s).status.err = s.status.err := by
  rcases coreAlone_cases P s with ⟨-, e⟩ | ⟨st, n, he, e⟩ <;> rw [e]
  exact coreStep_err P (s := { s with draws := n }) he

/-- `CMD` stands at offset 0 alone (20 R72). -/
theorem eq_zero_of_registerAt_cmd {P : Params} {off : Nat} (h : registerAt P off = .cmd) : off = 0 := by
  by_cases hn : off ∈ namedOffsets
  · rw [namedOffsets_eq] at hn
    obtain ⟨p, hp, rfl⟩ := List.mem_map.mp hn
    rw [registerAt_named P hp] at h
    exact (by decide : ∀ p ∈ registerMap, p.2 = .cmd → p.1 = 0) p hp h
  · rw [registerAt_unnamed P hn] at h
    split at h
    · split at h <;> cases h
    · cases h

/-- No event but an accepted write to `CMD` or a reset changes `ERR`. -/
theorem takeEvent_err {P : Params} {e : Event} {s t : State}
    (hcmd : s.status.busy = false → ∀ size v, e ≠ .write 0x00000 size v) (hreset : ∀ d, e ≠ .reset d)
    (hs : takeEvent P e s = .next t) : t.status.err = s.status.err := by
  cases e with
  | write off size v =>
    rw [takeEvent] at hs
    rcases hostWrite_cases P off size v s with
      ⟨-, e⟩ | ⟨-, -, e⟩ | ⟨-, -, ⟨-, e⟩ | ⟨hb, hr, -⟩ | ⟨-, -, e⟩⟩
    · rw [e] at hs; cases hs
    · rw [e] at hs; cases hs
    · rw [e] at hs; cases hs; rfl
    · exact absurd (congrArg (Event.write · size v) (eq_zero_of_registerAt_cmd hr)) (hcmd hb size v)
    · rw [e] at hs; cases hs; rw [writeReg_status]
  | read off size =>
    rw [takeEvent] at hs
    rcases hostRead_cases P off size s with ⟨-, e⟩ | ⟨-, -, e⟩ | ⟨-, -, e⟩ <;> (rw [e] at hs; cases hs)
    rw [readReg_status]
  | poll =>
    cases hs
    rw [hostPoll_eq]
    split
    · rw [coreAlone_err]
    · rfl
  | turn st =>
    cases hs
    rcases stageTurn_cases P st s with ⟨-, e⟩ | ⟨he, e⟩ <;> rw [e]
    exact coreStep_err P he
  | reset d => exact absurd rfl (hreset d)

/-- `takeEvent_err` for the next event, and the core left alone. -/
theorem step_err {s t : State}
    (hcmd : s.status.busy = false → ∀ size v rest, s.events ≠ Event.write 0x00000 size v :: rest)
    (hreset : ∀ d rest, s.events ≠ Event.reset d :: rest) (hs : step s = .next t) :
    t.status.err = s.status.err := by
  cases hev : s.events with
  | nil =>
    rw [step_of_no_event hev] at hs
    cases hs
    exact coreAlone_err Config.params s
  | cons e rest =>
    rw [step_of_event hev] at hs
    rw [hev] at hcmd hreset
    refine takeEvent_err (s := { s with events := rest }) (fun hb size v he => ?_) (fun d he => ?_) hs
    · exact hcmd hb size v rest (congrArg (· :: rest) he)
    · exact hreset d rest (congrArg (· :: rest) he)

/-- Settles O8: the word's rule runs on the accepted state, where `DONE` and `ERR` are 0; the steps that leave `ERR` are
those of `step_err`. -/
theorem acceptanceForgetsThePreviousOutcome : Obligations.AcceptanceForgetsThePreviousOutcome := by
  refine fun s => ⟨fun hb w => ?_, fun t hs hcmd hreset => step_err hcmd hreset hs⟩
  obtain ⟨cmd, hissue, hrule⟩ := commandWrite_eq_issue w
  obtain ⟨c, h⟩ := hrule s.accepted
  have herr : (cmd s.accepted).status.err = c := h.err_eq rfl
  refine ⟨fun d e₀ => ?_, cmd s.accepted, (hissue s).trans (issue_of_idle hb), fun hne => ?_, fun hbt => ?_⟩
  · rw [hissue, hissue]
    exact issue_forgets_outcome cmd hb d e₀
  · rw [h.eq_raiseError (herr ▸ hne)]
    rfl
  · obtain ⟨hdone, hc⟩ := h.done_of_busy hb hbt
    exact ⟨hdone, herr.trans hc⟩

end Sys2Proof.Machine
end

