-- ==== Sys2Proof/Proofs/ResetAndHazards.lean ====
section
/-! PROOFS. The statement of 70_reset_and_hazards.md about the host's framing. First the bytes of one block; then the
blocks of a buffer, by induction on their number. -/

namespace Sys2Proof.Machine

/-! ## The bytes of one block (70 R380, 20 R77) -/

/-- The places of a block's bytes, from the top. -/
theorem bytesOfBlock_eq_map (b : Block) :
    bytesOfBlock b = (List.range 8).map fun k => b.extractLsb' (56 - 8 * k) 8 := rfl

/-- Byte `k` of a chunk stands `k` bytes from the top, place by place: the bytes below it are cut off one by one, then
all above it. -/
theorem extract_blockOfBytes (bs : List Byte) {k : Nat} (hk : k < 8) :
    (blockOfBytes bs).extractLsb' (56 - 8 * k) 8 = bs.getD k 0#8 := by
  unfold blockOfBytes
  interval_cases k <;>
    simp only [BitVec.extractLsb'_append_eq_of_le (w := 8), BitVec.extractLsb'_append_eq_of_add_le (w := 8),
      BitVec.extractLsb'_eq_self, Nat.reduceMul, Nat.reduceAdd, Nat.reduceSub, Nat.reduceLeDiff]

/-- The bytes of the block made of the first chunk are that chunk, the padding cut off. -/
theorem take_bytesOfBlock_blockOfBytes (m : List Byte) :
    (bytesOfBlock (blockOfBytes (m.take 8))).take m.length = m.take 8 := by
  rw [bytesOfBlock_eq_map]
  refine List.ext_getElem (by simp [Nat.min_comm]) fun k hk hk' => ?_
  have hk8 : k < 8 := hk'.trans_le (List.length_take_le 8 m)
  rw [List.getElem_take, List.getElem_map, List.getElem_range, extract_blockOfBytes _ hk8,
    List.getD_eq_getElem _ _ hk']

/-! ## The blocks of a buffer (70 R380, R381) -/

theorem length_frameBlocks (n : Nat) (m : List Byte) : (frameBlocks n m).length = n := by
  induction n generalizing m with
  | zero => rfl
  | succ n ih => rw [frameBlocks, List.length_cons, ih]

theorem length_frame (m : List Byte) : (frame m).length = (m.length + 7) / 8 := length_frameBlocks _ m

/-- Block `j` is made of the chunk at byte `8j`. -/
theorem getD_frameBlocks {n j : Nat} (m : List Byte) (hj : j < n) :
    (frameBlocks n m).getD j 0#64 = blockOfBytes ((m.drop (8 * j)).take 8) := by
  induction n generalizing m j with
  | zero => exact absurd hj (Nat.not_lt_zero j)
  | succ n ih =>
    rw [frameBlocks]
    cases j with
    | zero => rfl
    | succ j =>
      rw [List.getD_cons_succ, ih (m.drop 8) (Nat.lt_of_succ_lt_succ hj), List.drop_drop, Nat.mul_succ, Nat.add_comm]

/-- Enough blocks lose no byte of the buffer: the first block gives the first chunk back, the others the rest. -/
theorem reassemble_frameBlocks {n : Nat} {m : List Byte} (hm : m.length ≤ 8 * n) :
    reassemble m.length (frameBlocks n m) = m := by
  induction n generalizing m with
  | zero => rw [List.eq_nil_of_length_eq_zero (Nat.le_zero.mp hm)]; rfl
  | succ n ih =>
    have hrest : reassemble (m.length - 8) (frameBlocks n (m.drop 8)) = m.drop 8 :=
      List.length_drop (l := m) (i := 8) ▸ ih (by rw [List.length_drop]; omega)
    calc reassemble m.length (frameBlocks (n + 1) m)
        = (bytesOfBlock (blockOfBytes (m.take 8))).take m.length ++
            reassemble (m.length - 8) (frameBlocks n (m.drop 8)) := List.take_append
      _ = m.take 8 ++ m.drop 8 := by rw [take_bytesOfBlock_blockOfBytes, hrest]
      _ = m := List.take_append_drop 8 m

/-- `getD` in a chunk is `getD` in the buffer. -/
theorem getD_chunk (m : List Byte) (i : Nat) {k : Nat} (hk : k < 8) :
    ((m.drop i).take 8).getD k 0#8 = m.getD (i + k) 0#8 := by
  simp only [List.getD_eq_getElem?_getD, List.getElem?_take_of_lt hk, List.getElem?_drop]

/-- Settles O56: the length and the bytes block by block, and reassembly because `ceil(n / 8)` blocks hold `n` bytes. -/
theorem reassemblyUndoesFraming : Obligations.ReassemblyUndoesFraming := by
  refine fun m => ⟨length_frame m, reassemble_frameBlocks (by omega), fun j k hj hk => ?_⟩
  rw [frame, getD_frameBlocks m (length_frame m ▸ hj), extract_blockOfBytes _ hk, getD_chunk m _ hk]

end Sys2Proof.Machine
end
